-- ==== Sys2Proof/Word.lean ====
section
/-! DEFINITION. The widths of the core's values (R9): an 8-bit byte, the 16-bit registers and indices, the 17-bit
commit cursor. All values are unsigned (R13). -/

namespace Sys2Proof

/-- A byte of the protocol, of the image and of the store (R9, R60). -/
abbrev Byte := BitVec 8

/-- The width of `TA`, `CRC` and of every byte index (R9). -/
abbrev Word16 := BitVec 16

/-- The width of the commit cursor, which must hold `end + 1` when `end = 65535` (R9, R31). -/
abbrev Cursor := BitVec 17

/-- Low byte of a 16-bit value, `v[7:0]` (R13). -/
def lowByte (v : Word16) : Byte := v.extractLsb' 0 8

/-- High byte of a 16-bit value, `v[15:8]` (R13). -/
def highByte (v : Word16) : Byte := v.extractLsb' 8 8

end Sys2Proof
end

