-- ==== Sys2Proof/Config.lean ====
section
/-! DEFINITION. What an implementation fixes: the configuration record `CFG` of R8, with the quantities R8 derives
from it, the two values the spec leaves free (as constants with no body), and configuration T of the test vectors. -/

namespace Sys2Proof

/-- The two regions of the memory image (R17). -/
inductive Region where
  | data
  | status
  deriving DecidableEq, Repr

/-- The stored address spaces of R60: physical data, status, store. The logical data space is a view (TRANSLATE). -/
inductive Space where
  | data
  | status
  | store
  deriving DecidableEq, Repr

/-- The address space of a region's array in the image (R60). -/
def Region.space : Region → Space
  | .data => .data
  | .status => .status

/-- Which accumulation function `CRC_STEP` the configuration has (R8, R141): the default, or any other one, named by
a number and left uninterpreted. -/
inductive CrcAlgorithm where
  | crc16
  | other (n : Nat)
  deriving DecidableEq, Repr

/-- FREE VALUE, log 3: the accumulation function of `CrcAlgorithm.other n`. R141 makes `CRC_STEP` a parameter, a total
function of its two arguments, and gives only a default. -/
opaque Config.otherCrcStep : Nat → Word16 → Byte → Word16

/-- FREE VALUE, log 12: what `CRC` holds after the `n`-th failed `send`. U5 says `any value`. -/
opaque Config.freeCrc : Nat → Word16

/-- The configuration record `CFG` (R8). Time values and sizes are natural numbers with R8's bounds in
`Config.wf`; command codes and template bytes are bytes. -/
structure Config where
  /-- log2 of the page size -/
  pageBits : Nat
  /-- bytes of the logical data space -/
  totalSpace : Nat
  /-- entries (logical page, physical slot) -/
  pageMap : List (Nat × Nat)
  /-- bytes of the status array -/
  statusSize : Nat
  /-- factory template of the data array, in physical order (D31) -/
  templateData : List Byte
  /-- factory template of the status array -/
  templateStatus : List Byte
  /-- write support enabled -/
  writeEn : Bool
  /-- true = strict, false = tolerant invalid-address policy -/
  strict : Bool
  /-- persistence enabled -/
  persistEn : Bool
  /-- idle threshold in ticks -/
  idleThreshold : Nat
  /-- bytes committed per service call -/
  commitBudget : Nat
  /-- blank-detection sample size -/
  blankSample : Nat
  /-- base of the data region in the store -/
  storeDataBase : Nat
  /-- base of the status region in the store -/
  storeStatusBase : Nat
  cmdReadMemory : Byte
  cmdReadStatus : Byte
  cmdWriteMemory : Byte
  cmdWriteStatus : Byte
  /-- the accumulation function `CRC_STEP` -/
  crcAlgorithm : CrcAlgorithm
  /-- width of the time input -/
  timeBits : Nat
  deriving DecidableEq, Repr

/-- `PAGE_SIZE = 2^PAGE_BITS` (R8). -/
def Config.pageSize (cfg : Config) : Nat := 2 ^ cfg.pageBits

/-- `N_LPAGES = TOTAL_SPACE / PAGE_SIZE` (R8). -/
def Config.logicalPages (cfg : Config) : Nat := cfg.totalSpace / cfg.pageSize

/-- `N_SLOTS`, the number of entries of the page map (R8). -/
def Config.slots (cfg : Config) : Nat := cfg.pageMap.length

/-- `DATA_SIZE = N_SLOTS × PAGE_SIZE` (R8). -/
def Config.dataSize (cfg : Config) : Nat := cfg.slots * cfg.pageSize

/-- `STORE_SIZE = DATA_SIZE + STATUS_SIZE` (R8). -/
def Config.storeSize (cfg : Config) : Nat := cfg.dataSize + cfg.statusSize

/-- The number of addresses of a stored space (R60). -/
def Config.size (cfg : Config) : Space → Nat
  | .data => cfg.dataSize
  | .status => cfg.statusSize
  | .store => cfg.storeSize

/-- `BASE(r)`: where region `r` begins in the store (R63). -/
def Config.base (cfg : Config) : Region → Nat
  | .data => cfg.storeDataBase
  | .status => cfg.storeStatusBase

/-- The template of a region (R8). -/
def Config.template (cfg : Config) : Region → List Byte
  | .data => cfg.templateData
  | .status => cfg.templateStatus

/-- The modulus of time values, `2^TIME_BITS` (R116). -/
def Config.timeModulus (cfg : Config) : Nat := 2 ^ cfg.timeBits

/-- Configuration T of `95_test_vectors.md`, the complete configuration the spec writes out, with the default codes
of R105 (PRESUMED, log 2) and the default `CRC_STEP`. It is State.reset's configuration (DESIGN CHOICE, log 1). -/
def Config.configT : Config where
  pageBits := 3
  totalSpace := 64
  pageMap := [(0, 0), (2, 1), (5, 2)]
  statusSize := 16
  templateData := [0xFF, 0xFF, 0xFF, 0xFF, 0xFF, 0xFF, 0xFF, 0xFF, 0x10, 0x11, 0x12, 0x13, 0x14, 0x15, 0x16, 0x17,
    0x20, 0x21, 0x22, 0x23, 0x24, 0x25, 0x26, 0x27]
  templateStatus := [0xE0, 0xE1, 0xE2, 0xE3, 0xE4, 0xE5, 0xE6, 0xE7, 0xE8, 0xE9, 0xEA, 0xEB, 0xEC, 0xED, 0xEE, 0xEF]
  writeEn := true
  strict := false
  persistEn := true
  idleThreshold := 100
  commitBudget := 4
  blankSample := 4
  storeDataBase := 0
  storeStatusBase := 24
  cmdReadMemory := 0xF0
  cmdReadStatus := 0xAA
  cmdWriteMemory := 0x0F
  cmdWriteStatus := 0x55
  crcAlgorithm := .crc16
  timeBits := 32

end Sys2Proof
end

