-- ==== Sys2Proof/Syntax.lean ====
section
/-! DEFINITION. The operations of the core: one constructor of `Instr` per row of the opcode table, the five outcomes
of command decode (R104) and the entry-point events of the environment (R118). -/

namespace Sys2Proof

/-- What the command byte selects (R104): the phases after HEADER in R26. -/
inductive Command where
  | readMemory
  | readStatus
  | writeMemory
  | writeStatus
  | unknown
  deriving DecidableEq, Repr

/-- The operations, in the opcode table's order: commands (format HEADER3), entry points (ENTRY), internal operations
(INTERNAL) and environment primitives (PRIMITIVE). -/
inductive Instr where
  /-- READ_MEMORY from logical address `ta` (R150). -/
  | readMemory (ta : Word16)
  /-- READ_STATUS from status index `ta` (R155). -/
  | readStatus (ta : Word16)
  /-- WRITE_MEMORY at logical address `ta` (R170). -/
  | writeMemory (ta : Word16)
  /-- WRITE_STATUS at status index `ta` (R171). -/
  | writeStatus (ta : Word16)
  /-- An unknown command: its byte and its ignored address (R181). -/
  | unknown (code : Byte) (ta : Word16)
  /-- The entry point TRANSACT: header receive, then dispatch (R101). -/
  | transact
  /-- The entry point SERVICE (R223). -/
  | service (now : Nat)
  /-- The entry point CONSTRUCT (R290). -/
  | construct (now : Nat)
  /-- The entry point FACTORY_RESET (R293). -/
  | factoryReset
  /-- TRANSLATE a logical address (R130). -/
  | translate (addr : Word16)
  /-- CRC_EMIT: send the complemented checksum (R134). -/
  | crcEmit
  /-- LOCATE: is a write location valid (R174). -/
  | locate (r : Region) (ta : Word16)
  /-- BURN one byte (R175). -/
  | burn (r : Region) (i : Word16) (incoming : Byte)
  /-- MARK an index dirty (R200). -/
  | mark (r : Region) (i : Word16)
  /-- CLEAR a region's dirty range (R203). -/
  | clear (r : Region)
  /-- BLANK_CHECK: does the store look blank (R291). -/
  | blankCheck
  /-- FACTORY_RESET_BODY: rewrite store and image (R292). -/
  | factoryResetBody
  /-- LOAD_STORE: copy the store into the image (R294). -/
  | loadStore
  /-- recv: the accumulating receive (R110). -/
  | recv
  /-- send: the accumulating send (R111). -/
  | send (b : Byte)
  /-- send_raw: the side-channel send (R112). -/
  | sendRaw (b : Byte)
  /-- reportProtocolError (R113). -/
  | reportProtocolError (code : Byte)
  /-- store.readByte (R114). -/
  | storeReadByte (address : Nat)
  /-- store.writeByte (R115). -/
  | storeWriteByte (address : Nat) (byte : Byte)
  deriving DecidableEq, Repr

/-- The entry-point events the environment issues (R118). -/
inductive Event where
  | construct (now : Nat)
  | factoryReset
  | transact
  | service (now : Nat)
  deriving DecidableEq, Repr

/-- The operation an event invokes (R10). -/
def Event.toInstr : Event → Instr
  | .construct now => .construct now
  | .factoryReset => .factoryReset
  | .transact => .transact
  | .service now => .service now

end Sys2Proof
end

