-- ==== Sys2Proof/Machine/State.lean ====
section
/-! DEFINITION. The machine's state as plain data, the reasons a step can stop, and the state after reset. -/

namespace Sys2Proof.Machine

/-- A stored space: (address, byte) pairs, addresses strictly rising, no pair equal to what an unlisted address reads
as (`Memory.wf`). -/
abbrev Memory := List Host.Cell

/-- The dispatcher phase (R26): receiving the header, running a command, or no transaction in progress. -/
inductive Phase where
  | header
  | running (c : Command)
  | done
  deriving DecidableEq, Repr

/-- `DIRTY[r] = (flag, low, high)`, an inclusive index range (R27). -/
structure DirtyRange where
  flag : Bool
  low : Word16
  high : Word16
  deriving DecidableEq, Repr

/-- The empty range CLEAR leaves: flag false, `low = 0xFFFF`, `high = 0x0000` (R29). -/
def DirtyRange.empty : DirtyRange := ⟨false, 0xFFFF, 0x0000⟩

/-- `COMMIT` (R31): idle, or committing a region with the next index `cursor` and the last index `last` (the spec's
`end`, a word Lean reserves). -/
inductive Commit where
  | idle
  | committing (r : Region) (cursor : Cursor) (last : Word16)
  deriving DecidableEq, Repr

/-- TRANSLATE's answer (R130): a physical byte index, or the sentinel. -/
inductive Translation where
  | mapped (p : Word16)
  | unmapped
  deriving DecidableEq, Repr

/-- LOCATE's answer (R174). -/
inductive Location where
  | valid (i : Word16)
  | invalid
  deriving DecidableEq, Repr

/-- What a run shows to the outside (R298): bytes passed to `send` and to `send_raw` with the bus host's answer, codes
reported, store accesses. -/
inductive Shown where
  | send (b : Byte) (ok : Bool)
  | sendRaw (b : Byte) (ok : Bool)
  | report (code : Byte)
  | storeRead (address : Nat)
  | storeWrite (address : Nat) (b : Byte)
  deriving DecidableEq, Repr

/-- What an internal operation or a primitive hands to its caller (DESIGN CHOICE, log 18). -/
inductive OpResult where
  | none
  | translated (t : Translation)
  | located (l : Location)
  /-- the `ok` of CRC_EMIT, `send`, `send_raw` -/
  | answered (ok : Bool)
  | blank (b : Bool)
  /-- the byte of `recv`, or that it failed -/
  | received (b : Option Byte)
  | stored (b : Byte)
  deriving DecidableEq, Repr

/-- The environment's answers still to come (R11, R119, log 4): free inputs, as finite scripts. -/
structure Env where
  /-- entry-point events, next first (R118) -/
  events : List Event
  /-- answers to `recv`: a byte, or a failure; an exhausted script fails (R119) -/
  rx : List (Option Byte)
  /-- answers to `send` and `send_raw`; an exhausted script succeeds -/
  tx : List Bool
  /-- clock readings at the return of bus primitives; the last one stands -/
  ticks : List Nat
  /-- store reads that diverge from the store's content: a value, or none (U9); an exhausted script does not diverge -/
  reads : List (Option Byte)
  deriving DecidableEq, Repr

/-- The whole machine. -/
structure State where
  /-- `CFG`; written by no operation (R34) -/
  cfg : Config
  /-- whether CONSTRUCT has run (R117 (a), log 7) -/
  constructed : Bool
  /-- the dispatcher phase (R26) -/
  phase : Phase
  /-- `CMD` (R23) -/
  cmd : Byte
  /-- `TA` (R23) -/
  ta : Word16
  /-- `CRC` (R23) -/
  crc : Word16
  /-- `DATA` (R20) -/
  data : Memory
  /-- `STATUS` (R21) -/
  status : Memory
  /-- `STORE`, the environment's (R36) -/
  store : Memory
  /-- `DIRTY[data]` (R27) -/
  dirtyData : DirtyRange
  /-- `DIRTY[status]` (R27) -/
  dirtyStatus : DirtyRange
  /-- `COMMIT` (R31) -/
  commit : Commit
  /-- `LAST_BUS` (R33) -/
  lastBus : Nat
  /-- the environment's answers still to come -/
  env : Env
  /-- what the run has shown, newest first (R298, log 19) -/
  trace : List Shown
  /-- the value the last operation with a result handed back (log 18) -/
  result : OpResult
  /-- how many free values have been drawn (log 12) -/
  freeCount : Nat
  deriving DecidableEq, Repr

/-- No fault exists: "there is no fatal error class in this core" (R250), and 93 says that nothing in this core is
treated as a fault. Nothing raises one. -/
inductive Fault where
  deriving DecidableEq, Repr

/-- Why the model gives a run no meaning. Every one is safe: the model stops where the spec gives no meaning. -/
inductive Refusal where
  /-- An instruction with no meaning yet: raised by no arm of this model. Safe. -/
  | notModelled (mnemonic : String)
  /-- Raised by every operation under a configuration that breaks R8: "a model must refuse an ill-formed one"
  (U1). Safe. -/
  | illFormedConfiguration
  /-- Raised by TRANSACT, SERVICE and FACTORY_RESET before CONSTRUCT (R39, R117 (a), U2). Safe. -/
  | notConstructed
  /-- Raised by a second CONSTRUCT on the same machine (R117 (a), U2). Safe. -/
  | alreadyConstructed
  /-- Raised by an entry point invoked while a transaction is running (R117 (b), U2). Safe. -/
  | overlappingEntryPoint
  /-- Raised by BURN, MARK, the store primitives and SERVICE for an address outside its space, which no run under a
  well-formed configuration reaches (R205 (e), U10). Safe. -/
  | addressOutsideSpace (sp : Space) (address : Nat)
  /-- Raised by the store primitives, BLANK_CHECK and LOAD_STORE when PERSIST_EN = 0: "there is no store"
  (R36). Safe. -/
  | noStore
  deriving DecidableEq, Repr

/-- No answer of the environment is pending. -/
def Env.empty : Env := ⟨[], [], [], [], []⟩

/-- A machine before CONSTRUCT (R39: no state has a value yet; the values here are the model's, log 27) on a store with
the given content (U8). -/
def State.powerUp (cfg : Config) (store : Memory) : State where
  cfg := cfg
  constructed := false
  phase := .done
  cmd := 0
  ta := 0
  crc := 0
  data := []
  status := []
  store := store
  dirtyData := .empty
  dirtyStatus := .empty
  commit := .idle
  lastBus := 0
  env := .empty
  trace := []
  result := .none
  freeCount := 0

/-- The machine right after reset: after `CONSTRUCT(0)` on a blank store (R39, R295 (a)) under configuration T. Image
and store hold the templates, which unlisted addresses read as; both trackers are clear; COMMIT is Idle; LAST_BUS is
the `now` of CONSTRUCT. `CMD`, `TA`, `CRC` have no value in the spec and are zero (DESIGN CHOICE, log 10). -/
def State.reset : State := { State.powerUp Config.configT [] with constructed := true }

end Sys2Proof.Machine
end

