-- ==== Sys2Proof/WellFormed.lean ====
section
/-! DEFINITION. Which configurations and operations have a meaning: one named check per constraint of R8's table, and
the operand ranges of the operations. -/

namespace Sys2Proof

/-- 0 ≤ PAGE_BITS ≤ 16 (R8). -/
def Config.pageBitsOk (cfg : Config) : Bool := decide (cfg.pageBits ≤ 16)

/-- TOTAL_SPACE is a multiple of PAGE_SIZE, at least PAGE_SIZE, at most 65536 (R8). -/
def Config.totalSpaceOk (cfg : Config) : Bool :=
  decide (cfg.totalSpace % cfg.pageSize = 0) && decide (cfg.pageSize ≤ cfg.totalSpace) && decide (cfg.totalSpace ≤ 65536)

/-- Every logical page of PAGE_MAP is below N_LPAGES (R8). -/
def Config.pagesInRange (cfg : Config) : Bool := cfg.pageMap.all fun e => decide (e.1 < cfg.logicalPages)

/-- The logical pages of PAGE_MAP are pairwise distinct (R8). -/
def Config.pagesDistinct (cfg : Config) : Bool := decide ((cfg.pageMap.map Prod.fst).Nodup)

/-- The slots of PAGE_MAP are exactly 0 to N_SLOTS − 1, each once (R8): all below N_SLOTS and pairwise distinct. -/
def Config.slotsExact (cfg : Config) : Bool :=
  (cfg.pageMap.all fun e => decide (e.2 < cfg.slots)) && decide ((cfg.pageMap.map Prod.snd).Nodup)

/-- 1 ≤ N_SLOTS (R8); N_SLOTS ≤ N_LPAGES follows from the distinct pages. -/
def Config.slotsNonempty (cfg : Config) : Bool := decide (1 ≤ cfg.slots)

/-- STATUS_SIZE is a multiple of 8, at least 8, at most 65536 (R8). -/
def Config.statusSizeOk (cfg : Config) : Bool :=
  decide (cfg.statusSize % 8 = 0) && decide (8 ≤ cfg.statusSize) && decide (cfg.statusSize ≤ 65536)

/-- TEMPLATE_DATA has exactly DATA_SIZE bytes (R8). -/
def Config.templateDataOk (cfg : Config) : Bool := decide (cfg.templateData.length = cfg.dataSize)

/-- TEMPLATE_STATUS has exactly STATUS_SIZE bytes (R8). -/
def Config.templateStatusOk (cfg : Config) : Bool := decide (cfg.templateStatus.length = cfg.statusSize)

/-- IDLE_THRESHOLD < 2^TIME_BITS (R8). -/
def Config.idleThresholdOk (cfg : Config) : Bool := decide (cfg.idleThreshold < cfg.timeModulus)

/-- 1 ≤ COMMIT_BUDGET (R8). -/
def Config.commitBudgetOk (cfg : Config) : Bool := decide (1 ≤ cfg.commitBudget)

/-- 1 ≤ BLANK_SAMPLE ≤ min(DATA_SIZE, STATUS_SIZE) (R8). -/
def Config.blankSampleOk (cfg : Config) : Bool :=
  decide (1 ≤ cfg.blankSample) && decide (cfg.blankSample ≤ cfg.dataSize) && decide (cfg.blankSample ≤ cfg.statusSize)

/-- Both store regions lie inside [0, STORE_SIZE) (R8). -/
def Config.storeRegionsInside (cfg : Config) : Bool :=
  decide (cfg.storeDataBase + cfg.dataSize ≤ cfg.storeSize) && decide (cfg.storeStatusBase + cfg.statusSize ≤ cfg.storeSize)

/-- The two store regions are disjoint (R8). -/
def Config.storeRegionsDisjoint (cfg : Config) : Bool :=
  decide (cfg.storeDataBase + cfg.dataSize ≤ cfg.storeStatusBase) ||
  decide (cfg.storeStatusBase + cfg.statusSize ≤ cfg.storeDataBase)

/-- The four command codes, in the opcode table's order (R8). -/
def Config.codes (cfg : Config) : List Byte :=
  [cfg.cmdReadMemory, cfg.cmdReadStatus, cfg.cmdWriteMemory, cfg.cmdWriteStatus]

/-- The four command codes are pairwise distinct (R8). -/
def Config.codesDistinct (cfg : Config) : Bool := decide cfg.codes.Nodup

/-- No command code equals 0x33 (R8). -/
def Config.codesNot33 (cfg : Config) : Bool := cfg.codes.all fun c => decide (c ≠ 0x33)

/-- 1 ≤ TIME_BITS (R8). -/
def Config.timeBitsOk (cfg : Config) : Bool := decide (1 ≤ cfg.timeBits)

/-- A well-formed configuration: every constraint of R8's table holds. "a model must refuse an ill-formed one". -/
def Config.wf (cfg : Config) : Bool :=
  cfg.pageBitsOk && cfg.totalSpaceOk && cfg.pagesInRange && cfg.pagesDistinct && cfg.slotsExact && cfg.slotsNonempty &&
  cfg.statusSizeOk && cfg.templateDataOk && cfg.templateStatusOk && cfg.idleThresholdOk && cfg.commitBudgetOk &&
  cfg.blankSampleOk && cfg.storeRegionsInside && cfg.storeRegionsDisjoint && cfg.codesDistinct && cfg.codesNot33 &&
  cfg.timeBitsOk

/-- The codes of the commands that are present: the write commands only with WRITE_EN (R104, R106). -/
def Config.presentCodes (cfg : Config) : List Byte :=
  if cfg.writeEn then cfg.codes else [cfg.cmdReadMemory, cfg.cmdReadStatus]

/-- The operands of an operation lie in the ranges the spec gives them: an index inside its array (R200, R205 (e)), a
store address below STORE_SIZE (R114, R115), a time value of TIME_BITS bits (R116), a write command only where it is
present, an unknown command only with a code that is not present (R104). -/
def Instr.wf (cfg : Config) : Instr → Bool
  | .readMemory _ => true
  | .readStatus _ => true
  | .writeMemory _ => cfg.writeEn
  | .writeStatus _ => cfg.writeEn
  | .unknown code _ => !(cfg.presentCodes.contains code)
  | .transact => true
  | .service now => decide (now < cfg.timeModulus)
  | .construct now => decide (now < cfg.timeModulus)
  | .factoryReset => true
  | .translate _ => true
  | .crcEmit => true
  | .locate _ _ => true
  | .burn r i _ => decide (i.toNat < cfg.size r.space)
  | .mark r i => decide (i.toNat < cfg.size r.space)
  | .clear _ => true
  | .blankCheck => true
  | .factoryResetBody => true
  | .loadStore => true
  | .recv => true
  | .send _ => true
  | .sendRaw _ => true
  | .reportProtocolError _ => true
  | .storeReadByte address => decide (address < cfg.storeSize)
  | .storeWriteByte address _ => decide (address < cfg.storeSize)

end Sys2Proof
end

