-- ==== Sys2Proof/Machine/Ops.lean ====
section
/-! DEFINITION. The named operations over the state: updates, memory, the environment's scripts, the bus and store
primitives, the checksum, what an error does (R260) and how an entry point returns, and the three guards. -/

namespace Sys2Proof.Machine

/-! ## Updates, one per piece of state -/

def State.setConstructed (s : State) : State := { s with constructed := true }
def State.setPhase (p : Phase) (s : State) : State := { s with phase := p }
def State.setCmd (c : Byte) (s : State) : State := { s with cmd := c }
def State.setTa (a : Word16) (s : State) : State := { s with ta := a }
def State.setCrc (c : Word16) (s : State) : State := { s with crc := c }
def State.setCommit (c : Commit) (s : State) : State := { s with commit := c }
def State.setLastBus (t : Nat) (s : State) : State := { s with lastBus := t }
def State.setEnv (e : Env) (s : State) : State := { s with env := e }
def State.setResult (r : OpResult) (s : State) : State := { s with result := r }
def State.setFreeCount (n : Nat) (s : State) : State := { s with freeCount := n }

/-- Record something the run shows (R298), newest first. -/
def State.observe (o : Shown) (s : State) : State := { s with trace := o :: s.trace }

/-- The memory of a stored space. -/
def State.mem (s : State) : Space → Memory
  | .data => s.data
  | .status => s.status
  | .store => s.store

def State.setMem (sp : Space) (m : Memory) (s : State) : State :=
  match sp with
  | .data => { s with data := m }
  | .status => { s with status := m }
  | .store => { s with store := m }

/-- `DIRTY[r]` (R27). -/
def State.dirty (s : State) : Region → DirtyRange
  | .data => s.dirtyData
  | .status => s.dirtyStatus

def State.setDirty (r : Region) (d : DirtyRange) (s : State) : State :=
  match r with
  | .data => { s with dirtyData := d }
  | .status => { s with dirtyStatus := d }

/-! ## Memory -/

/-- A region's template byte `TEMPLATE_r[i]` (R8). -/
def templateByte (cfg : Config) (r : Region) (i : Nat) : Byte := (cfg.template r).getD i 0xFF

/-- What an unlisted address reads as: its factory byte. In the image that is the template byte (R290); in the store,
the template byte that a factory reset writes there (R292). Log 9. -/
def factoryByte (cfg : Config) : Space → Nat → Byte
  | .data, a => templateByte cfg .data a
  | .status, a => templateByte cfg .status a
  | .store, a =>
    if cfg.base .data ≤ a ∧ a < cfg.base .data + cfg.dataSize then templateByte cfg .data (a - cfg.base .data)
    else if cfg.base .status ≤ a ∧ a < cfg.base .status + cfg.statusSize then
      templateByte cfg .status (a - cfg.base .status)
    else 0xFF

/-- Read one byte; `dflt` is what the address reads as when no pair lists it. -/
def Memory.read (dflt : Byte) : Memory → Nat → Byte
  | [], _ => dflt
  | (x, b) :: m, a => if x = a then b else Memory.read dflt m a

/-- Drop an address's pair. -/
def Memory.erase : Memory → Nat → Memory
  | [], _ => []
  | (x, b) :: m, a => if x = a then Memory.erase m a else (x, b) :: Memory.erase m a

/-- Put a pair before the first higher address. -/
def Memory.insert : Memory → Nat → Byte → Memory
  | [], a, v => [(a, v)]
  | (x, b) :: m, a, v => if a < x then (a, v) :: (x, b) :: m else (x, b) :: Memory.insert m a v

/-- Write one byte, keeping the canonical form: a value equal to what the unlisted address reads as is not listed. -/
def Memory.write (dflt : Byte) (m : Memory) (a : Nat) (v : Byte) : Memory :=
  if v = dflt then Memory.erase m a else Memory.insert (Memory.erase m a) a v

/-- Addresses strictly rising. -/
def Memory.rising : Memory → Bool
  | [] => true
  | (x, _) :: m => (m.all fun c => decide (x < c.1)) && Memory.rising m

/-- The canonical form of a stored space: strictly rising addresses, all inside the space, no pair equal to the factory
byte. -/
def Memory.wf (cfg : Config) (sp : Space) (m : Memory) : Bool :=
  Memory.rising m && m.all fun c => decide (c.1 < cfg.size sp) && decide (c.2 ≠ factoryByte cfg sp c.1)

/-- The byte at an address of a stored space. -/
def State.peek (s : State) (sp : Space) (a : Nat) : Byte := Memory.read (factoryByte s.cfg sp a) (s.mem sp) a

/-- Write the byte at an address of a stored space. -/
def State.poke (sp : Space) (a : Nat) (v : Byte) (s : State) : State :=
  s.setMem sp (Memory.write (factoryByte s.cfg sp a) (s.mem sp) a v)

/-! ## The environment's scripts (log 4) -/

def Env.popRx (e : Env) : Option Byte × Env :=
  match e.rx with
  | [] => (none, e)
  | a :: rest => (a, { e with rx := rest })

def Env.popTx (e : Env) : Bool × Env :=
  match e.tx with
  | [] => (true, e)
  | a :: rest => (a, { e with tx := rest })

def Env.popTick (e : Env) : Option Nat × Env :=
  match e.ticks with
  | [] => (none, e)
  | [t] => (some t, e)
  | t :: u :: rest => (some t, { e with ticks := u :: rest })

def Env.popRead (e : Env) : Option Byte × Env :=
  match e.reads with
  | [] => (none, e)
  | a :: rest => (a, { e with reads := rest })

/-! ## The checksum (R140, R141) -/

/-- One bit of the default `CRC_STEP` (R141). -/
def crc16Bit (c : Word16) : Word16 := if c.getLsbD 0 then (c >>> 1) ^^^ 0xA001 else c >>> 1

/-- The default `CRC_STEP` (R141; PRESUMED by the spec, log 3). -/
def crc16Step (c : Word16) (b : Byte) : Word16 := Nat.repeat crc16Bit 8 (c ^^^ b.setWidth 16)

/-- The configuration's `CRC_STEP` (R8, R141). -/
def crcStep (cfg : Config) (c : Word16) (b : Byte) : Word16 :=
  match cfg.crcAlgorithm with
  | .crc16 => crc16Step c b
  | .other n => Config.otherCrcStep n c b

/-! ## Bus primitives (R110 to R113, R136 to R139) -/

/-- `LAST_BUS <- now`, with `now` sampled from the clock (R139). -/
def State.touchBus (s : State) : State :=
  match s.env.popTick with
  | (none, _) => s
  | (some t, e) => (s.setEnv e).setLastBus (t % s.cfg.timeModulus)

/-- `recv` (R110): a byte is folded into `CRC`; a failed receive leaves `CRC` unchanged (R136). -/
def State.recv (s : State) : Option Byte × State :=
  match s.env.popRx with
  | (none, e) => (none, (s.setEnv e).touchBus)
  | (some b, e) => (some b, ((s.setEnv e).setCrc (crcStep s.cfg s.crc b)).touchBus)

/-- `CRC` takes a free value (U5, log 12). -/
def State.freeCrc (s : State) : State := (s.setCrc (Config.freeCrc s.freeCount)).setFreeCount (s.freeCount + 1)

/-- `send` (R111): on success the byte is folded into `CRC` (R137); after a failure `CRC` is free (U5). -/
def State.send (b : Byte) (s : State) : Bool × State :=
  match s.env.popTx with
  | (true, e) => (true, (((s.setEnv e).observe (.send b true)).setCrc (crcStep s.cfg s.crc b)).touchBus)
  | (false, e) => (false, ((s.setEnv e).observe (.send b false)).freeCrc.touchBus)

/-- `send_raw` (R112): the side channel; `CRC` is unchanged either way (R138). -/
def State.sendRaw (b : Byte) (s : State) : Bool × State :=
  match s.env.popTx with
  | (ok, e) => (ok, ((s.setEnv e).observe (.sendRaw b ok)).touchBus)

/-- `reportProtocolError` (R113): recorded; exchanges no byte and does not touch `LAST_BUS` (R139). -/
def State.report (code : Byte) (s : State) : State := s.observe (.report code)

/-- CRC_EMIT (R134): the complement of `CRC`, low byte first, through the side channel; it stops at the first failure
and never writes `CRC`. -/
def State.crcEmit (s : State) : Bool × State :=
  match s.sendRaw (lowByte (~~~ s.crc)) with
  | (false, t) => (false, t)
  | (true, t) => t.sendRaw (highByte (~~~ s.crc))

/-! ## Store primitives (R114, R115) -/

/-- `store.readByte` (R114): the content, or the value the environment lets this read diverge to (U9, log 16). -/
def State.storeReadByte (a : Nat) (s : State) : Byte × State :=
  match s.env.popRead with
  | (v, e) => (v.getD (s.peek .store a), (s.setEnv e).observe (.storeRead a))

/-- `store.writeByte` (R115): synchronous, cannot fail. -/
def State.storeWriteByte (a : Nat) (v : Byte) (s : State) : State := (s.poke .store a v).observe (.storeWrite a v)

/-! ## Errors and the return to the environment (R250 to R261) -/

/-- The error classes of R250 that act on a transaction. PersistenceDivergence, the fifth, is not an error: it is the
write-through of a commit step (R255). -/
inductive ErrorClass where
  /-- a failed receive in the header, a failed `send` or `send_raw` (R251) -/
  | transportFailure
  /-- a failed receive inside a write payload: not an error (R254) -/
  | endOfWrite
  /-- an unrecognized command (R252) -/
  | protocolViolation
  /-- an invalid write location in strict mode (R253); in tolerant mode the byte is skipped and nothing is raised -/
  | invalidWriteAddress
  deriving DecidableEq, Repr

/-- The return of TRANSACT to the environment (R15, R261). -/
def State.endTransaction (s : State) : State := s.setPhase .done

/-- What raising an error does, for every class (R250 to R254): nothing is saved and no handler is entered (R260); the
class's report or checksum is made and the transaction ends. -/
def State.takeError (e : ErrorClass) (s : State) : State :=
  match e with
  | .transportFailure => s.endTransaction
  | .endOfWrite => s.crcEmit.2.endTransaction
  | .protocolViolation => (s.report s.cmd).endTransaction
  | .invalidWriteAddress => (s.report s.cmd).endTransaction

/-! ## Guards -/

/-- How the meaning of an operation ends. -/
abbrev Result := Host.Outcome State Fault Refusal

/-- An ill-formed configuration is refused (R8, U1). -/
def State.whenConfigured (s : State) (k : Result) : Result :=
  if s.cfg.wf then k else .refused .illFormedConfiguration

/-- An entry point other than CONSTRUCT: after CONSTRUCT and outside any transaction (R117 (a), (b), U2). -/
def State.whenReady (s : State) (k : Result) : Result :=
  s.whenConfigured
    (if s.constructed = false then .refused .notConstructed
     else if s.phase = .done then k
     else .refused .overlappingEntryPoint)

/-- An address inside its space (U10). -/
def State.whenInSpace (sp : Space) (a : Nat) (s : State) (k : Result) : Result :=
  if a < s.cfg.size sp then k else .refused (.addressOutsideSpace sp a)

/-- An operation on the store needs a store: PERSIST_EN = 1 (R36). -/
def State.whenStore (s : State) (k : Result) : Result := if s.cfg.persistEn then k else .refused .noStore

end Sys2Proof.Machine
end

