-- ==== Sys2Proof/Machine/Flags.lean ====
section
/-! DEFINITION. The flags of the core: the dirty flags with their bounds (MARK, CLEAR), and the idle condition of the
bus. -/

namespace Sys2Proof.Machine

/-- MARK's min/max update of one range (R200). -/
def DirtyRange.mark (d : DirtyRange) (i : Word16) : DirtyRange where
  flag := true
  low := if i.toNat < d.low.toNat then i else d.low
  high := if d.high.toNat < i.toNat then i else d.high

/-- MARK(r, i) (R200). -/
def State.mark (r : Region) (i : Word16) (s : State) : State := s.setDirty r ((s.dirty r).mark i)

/-- CLEAR(r) (R203). -/
def State.clear (r : Region) (s : State) : State := s.setDirty r .empty

/-- `elapsed = (now − LAST_BUS) mod 2^TIME_BITS` (R216). -/
def State.elapsed (now : Nat) (s : State) : Nat :=
  (now % s.cfg.timeModulus + s.cfg.timeModulus - s.lastBus % s.cfg.timeModulus) % s.cfg.timeModulus

/-- The bus is idle: `elapsed ≥ IDLE_THRESHOLD` (R216). -/
def State.busIdle (now : Nat) (s : State) : Bool := decide (s.cfg.idleThreshold ≤ s.elapsed now)

end Sys2Proof.Machine
end

