-- ==== Sys2Proof/Machine/Bootstrap.lean ====
section
/-! DEFINITION. Construction and factory reset (R290 to R295). -/

namespace Sys2Proof.Machine

/-- Copy a region's template into the image, `n` bytes from index `i` (R290). -/
def copyTemplate (r : Region) : Nat → Nat → State → State
  | 0, _, s => s
  | n + 1, i, s => copyTemplate r n (i + 1) (s.poke r.space i (templateByte s.cfg r i))

/-- Write a region's template into the store, every byte unconditionally (R292). -/
def storeTemplate (r : Region) : Nat → Nat → State → State
  | 0, _, s => s
  | n + 1, i, s => storeTemplate r n (i + 1) (s.storeWriteByte (s.cfg.base r + i) (templateByte s.cfg r i))

/-- Load a region of the image from the store (R294). -/
def loadRegion (r : Region) : Nat → Nat → State → State
  | 0, _, s => s
  | n + 1, i, s =>
    match s.storeReadByte (s.cfg.base r + i) with
    | (b, t) => loadRegion r n (i + 1) (t.poke r.space i b)

/-- BLANK_CHECK's loop (R291) with `n` indices left, the next of them `i`. -/
def blankLoop : Nat → Nat → State → Bool × State
  | 0, _, s => (true, s)
  | n + 1, i, s =>
    match s.storeReadByte (s.cfg.base .data + i) with
    | (b, t) =>
      if b ≠ 0xFF then (false, t)
      else
        match t.storeReadByte (s.cfg.base .status + i) with
        | (c, u) => if c ≠ 0xFF then (false, u) else blankLoop n (i + 1) u

/-- The number of bytes of a region's array. -/
def regionSize (cfg : Config) (r : Region) : Nat := cfg.size r.space

/-- Both templates straight into the image (R290, first branch). -/
def State.copyTemplates (s : State) : State :=
  copyTemplate .status (regionSize s.cfg .status) 0 (copyTemplate .data (regionSize s.cfg .data) 0 s)

/-- LOAD_STORE (R294): both regions, no check of any kind. -/
def State.loadStore (s : State) : State :=
  loadRegion .status (regionSize s.cfg .status) 0 (loadRegion .data (regionSize s.cfg .data) 0 s)

/-- BLANK_CHECK (R291). -/
def State.blankCheck (s : State) : Bool × State := blankLoop s.cfg.blankSample 0 s

/-- FACTORY_RESET_BODY (R292): the templates into the store, then the store into the image; without persistence, the
templates into the image. -/
def State.factoryResetBody (s : State) : State :=
  if s.cfg.persistEn then
    (storeTemplate .status (regionSize s.cfg .status) 0 (storeTemplate .data (regionSize s.cfg .data) 0 s)).loadStore
  else s.copyTemplates

/-- Both trackers cleared and no commit pending (R40, R290, R293). -/
def State.clearAll (s : State) : State := ((s.clear .data).clear .status).setCommit .idle

/-- The image CONSTRUCT leaves (R290). -/
def State.constructImage (s : State) : State :=
  if s.cfg.persistEn = false then s.copyTemplates
  else
    match s.blankCheck with
    | (true, t) => t.factoryResetBody
    | (false, t) => t.loadStore

/-- CONSTRUCT (R290). -/
def State.construct (now : Nat) (s : State) : State :=
  (s.constructImage.clearAll.setLastBus (now % s.cfg.timeModulus)).setConstructed

/-- FACTORY_RESET (R293); `LAST_BUS` is not changed. -/
def State.factoryReset (s : State) : State := s.factoryResetBody.clearAll

/-- The meaning of CONSTRUCT: once per machine, and first (R117 (a)). -/
def execConstruct (now : Nat) (s : State) : Result :=
  s.whenConfigured (if s.constructed = true then .refused .alreadyConstructed else .next (s.construct now))

/-- The meaning of FACTORY_RESET as an entry point (R293). -/
def execFactoryReset (s : State) : Result := s.whenReady (.next s.factoryReset)

/-- The meaning of BLANK_CHECK run alone (R291). -/
def execBlankCheck (s : State) : Result :=
  s.whenConfigured <| s.whenStore <| .next (s.blankCheck.2.setResult (.blank s.blankCheck.1))

/-- The meaning of FACTORY_RESET_BODY run alone (R292). -/
def execFactoryResetBody (s : State) : Result := s.whenConfigured (.next s.factoryResetBody)

/-- The meaning of LOAD_STORE run alone (R294). -/
def execLoadStore (s : State) : Result := s.whenConfigured <| s.whenStore <| .next s.loadStore

end Sys2Proof.Machine
end

