-- ==== Sys2Proof/Decode.lean ====
section
/-! DEFINITION. The transaction header (R100 to R106): command decode, the decoder of header bytes, the encoder, and
the reading of an opcode-table word. -/

namespace Sys2Proof

/-- Command decode (R104): a function of `CMD`, `WRITE_EN` and the four code parameters, in R104's order. -/
def commandOf (cfg : Config) (code : Byte) : Command :=
  if code = cfg.cmdReadMemory then .readMemory
  else if code = cfg.cmdReadStatus then .readStatus
  else if cfg.writeEn = true ∧ code = cfg.cmdWriteMemory then .writeMemory
  else if cfg.writeEn = true ∧ code = cfg.cmdWriteStatus then .writeStatus
  else .unknown

/-- `TA = zext_16(b1) | (zext_16(b2) << 8)`: the address from its two bytes, low byte first (R68). -/
def addressOf (b1 b2 : Byte) : Word16 := b1.setWidth 16 ||| (b2.setWidth 16 <<< 8)

/-- The operation a complete header stands for (R100, R104). -/
def decodeHeader (cfg : Config) (b0 b1 b2 : Byte) : Instr :=
  match commandOf cfg b0 with
  | .readMemory => .readMemory (addressOf b1 b2)
  | .readStatus => .readStatus (addressOf b1 b2)
  | .writeMemory => .writeMemory (addressOf b1 b2)
  | .writeStatus => .writeStatus (addressOf b1 b2)
  | .unknown => .unknown b0 (addressOf b1 b2)

/-- What the decoder answers: an operation and the bytes after its header, or a named rejection. -/
inductive Decoded where
  | instr (i : Instr) (rest : List Byte)
  /-- fewer than three bytes: the header is incomplete (R101) -/
  | incompleteHeader (got : Nat)
  deriving DecidableEq, Repr

/-- The decoder of a transaction's first bytes (R100). Every complete header decodes: an unmatched command byte is the
UNKNOWN operation (R106), and the address has no illegal values (R107). -/
def decode (cfg : Config) : List Byte → Decoded
  | b0 :: b1 :: b2 :: rest => .instr (decodeHeader cfg b0 b1 b2) rest
  | bytes => .incompleteHeader bytes.length

/-- The header of a command: its code, then its address, low byte first (R100, R68). -/
def headerBytes (code : Byte) (ta : Word16) : List Byte := [code, lowByte ta, highByte ta]

/-- The encoder: the header bytes of a command; entry points, internal operations and primitives have no bit-level
encoding (R118). -/
def encode (cfg : Config) : Instr → Option (List Byte)
  | .readMemory ta => some (headerBytes cfg.cmdReadMemory ta)
  | .readStatus ta => some (headerBytes cfg.cmdReadStatus ta)
  | .writeMemory ta => some (headerBytes cfg.cmdWriteMemory ta)
  | .writeStatus ta => some (headerBytes cfg.cmdWriteStatus ta)
  | .unknown code ta => some (headerBytes code ta)
  | .transact => none
  | .service _ => none
  | .construct _ => none
  | .factoryReset => none
  | .translate _ => none
  | .crcEmit => none
  | .locate _ _ => none
  | .burn _ _ _ => none
  | .mark _ _ => none
  | .clear _ => none
  | .blankCheck => none
  | .factoryResetBody => none
  | .loadStore => none
  | .recv => none
  | .send _ => none
  | .sendRaw _ => none
  | .reportProtocolError _ => none
  | .storeReadByte _ => none
  | .storeWriteByte _ _ => none

/-- The three header bytes in a word numbered as the opcode table numbers it: the first byte received in bits 7 to 0,
the next in bits 15 to 8, the last in bits 23 to 16; bits at and above `nbits` are 0. -/
def wordBytes (nbits w : Nat) : List Byte :=
  let v := w % 2 ^ nbits
  [BitVec.ofNat 8 v, BitVec.ofNat 8 (v / 2 ^ 8), BitVec.ofNat 8 (v / 2 ^ 16)]

/-- The instruction the decoder reads from an opcode-table word, under State.reset's configuration. -/
def decodeTableWord (nbits w : Nat) : Option Instr :=
  match decode Config.configT (wordBytes nbits w) with
  | .instr i _ => some i
  | .incompleteHeader _ => none

end Sys2Proof
end

