-- ==== Sys2Proof/Machine/Operands.lean ====
section
/-! DEFINITION. The addressing forms: TRANSLATE for the logical data space, LOCATE for a write location, the byte a read
of a logical address yields. -/

namespace Sys2Proof.Machine

/-- TRANSLATE (R130, R131): the physical byte index of a logical address, or `unmapped`. A pure function of the address
and the configuration. -/
def translate (cfg : Config) (addr : Nat) : Translation :=
  if cfg.totalSpace ≤ addr then .unmapped
  else
    match cfg.pageMap.lookup (addr / cfg.pageSize) with
    | some slot => .mapped (BitVec.ofNat 16 (slot * cfg.pageSize + addr % cfg.pageSize))
    | none => .unmapped

/-- LOCATE (R174): the validity of a write location and its index. -/
def locate (cfg : Config) (r : Region) (ta : Word16) : Location :=
  match r with
  | .data =>
    match translate cfg ta.toNat with
    | .mapped p => .valid p
    | .unmapped => .invalid
  | .status => if ta.toNat < cfg.statusSize then .valid ta else .invalid

/-- The byte READ_MEMORY sends for a logical address: the image byte, or 0xFF where unmapped (R65, R151). -/
def State.logicalByte (s : State) (a : Nat) : Byte :=
  match translate s.cfg a with
  | .mapped p => s.peek .data p.toNat
  | .unmapped => 0xFF

end Sys2Proof.Machine
end

