-- ==== Sys2Proof/Machine/Internal.lean ====
section
/-! DEFINITION. The meanings of TRANSLATE, LOCATE and CRC_EMIT, run alone: the effect on the state, and the answer in
`result`. -/

namespace Sys2Proof.Machine

/-- TRANSLATE (R130): no state written but the answer. -/
def execTranslate (addr : Word16) (s : State) : Result :=
  s.whenConfigured (.next (s.setResult (.translated (translate s.cfg addr.toNat))))

/-- LOCATE (R174): no state written but the answer. -/
def execLocate (r : Region) (ta : Word16) (s : State) : Result :=
  s.whenConfigured (.next (s.setResult (.located (locate s.cfg r ta))))

/-- CRC_EMIT (R134). -/
def execCrcEmit (s : State) : Result :=
  s.whenConfigured (.next (s.crcEmit.2.setResult (.answered s.crcEmit.1)))

end Sys2Proof.Machine
end

