-- ==== Sys2Proof/Machine/Primitives.lean ====
section
/-! DEFINITION. The meanings of the environment primitives, run alone (R110 to R115): the effect on the state, and the
answer in `result`. -/

namespace Sys2Proof.Machine

/-- recv (R110, R136, R139). -/
def execRecv (s : State) : Result :=
  s.whenConfigured (.next (s.recv.2.setResult (.received s.recv.1)))

/-- send (R111, R137, R139). -/
def execSend (b : Byte) (s : State) : Result :=
  s.whenConfigured (.next ((s.send b).2.setResult (.answered (s.send b).1)))

/-- send_raw (R112, R138, R139). -/
def execSendRaw (b : Byte) (s : State) : Result :=
  s.whenConfigured (.next ((s.sendRaw b).2.setResult (.answered (s.sendRaw b).1)))

/-- reportProtocolError (R113). -/
def execReportProtocolError (code : Byte) (s : State) : Result :=
  s.whenConfigured (.next (s.report code))

/-- store.readByte (R114). -/
def execStoreReadByte (address : Nat) (s : State) : Result :=
  s.whenConfigured <| s.whenStore <| s.whenInSpace .store address <|
    .next ((s.storeReadByte address).2.setResult (.stored (s.storeReadByte address).1))

/-- store.writeByte (R115). -/
def execStoreWriteByte (address : Nat) (byte : Byte) (s : State) : Result :=
  s.whenConfigured <| s.whenStore <| s.whenInSpace .store address <|
    .next (s.storeWriteByte address byte)

end Sys2Proof.Machine
end

