-- ==== Sys2Proof/Machine/Scheduler.lean ====
section
/-! DEFINITION. The commit scheduler: SERVICE (R215 to R226). -/

namespace Sys2Proof.Machine

/-- The range to work on once the gate is open: the one in progress, or a copy of the first dirty range, data before
status, or none (R218, R219). -/
def State.chooseCommit (s : State) : Option (Region × Cursor × Word16) :=
  match s.commit with
  | .committing r cursor last => some (r, cursor, last)
  | .idle =>
    if s.dirtyData.flag then some (.data, s.dirtyData.low.setWidth 17, s.dirtyData.high)
    else if s.dirtyStatus.flag then some (.status, s.dirtyStatus.low.setWidth 17, s.dirtyStatus.high)
    else none

/-- The range this call works on: none without persistence (R217), none while the bus is not idle (R216). -/
def State.pendingCommit (now : Nat) (s : State) : Option (Region × Cursor × Word16) :=
  if s.cfg.persistEn = false then none
  else if s.busIdle now = false then none
  else s.chooseCommit

/-- One commit step (R220): compare the image byte with the store byte, write through only if they differ. -/
def State.commitStep (r : Region) (i : Nat) (s : State) : State :=
  match s.storeReadByte (s.cfg.base r + i) with
  | (stored, t) =>
    if stored ≠ s.peek r.space i then t.storeWriteByte (s.cfg.base r + i) (s.peek r.space i) else t

/-- The budget loop (R221): the cursor advances whether or not a write occurred. -/
def commitLoop (r : Region) (last : Word16) : Nat → Cursor → State → Cursor × State
  | 0, cursor, s => (cursor, s)
  | budget + 1, cursor, s =>
    if cursor.toNat ≤ last.toNat then commitLoop r last budget (cursor + 1) (s.commitStep r cursor.toNat)
    else (cursor, s)

/-- Completion (R222): past the last index the region is cleared and COMMIT becomes idle, in the same call. -/
def State.finishCommit (r : Region) (cursor : Cursor) (last : Word16) (s : State) : State :=
  if last.toNat < cursor.toNat then (s.clear r).setCommit .idle else s.setCommit (.committing r cursor last)

/-- The work of one service call on a chosen range (R221, R222). -/
def State.serviceRange (r : Region) (cursor : Cursor) (last : Word16) (s : State) : State :=
  match commitLoop r last s.cfg.commitBudget cursor s with
  | (c, t) => t.finishCommit r c last

/-- The meaning of SERVICE (R223). A range that leaves its region is refused; no reachable state has one (R32, U10,
log 17). -/
def execService (now : Nat) (s : State) : Result :=
  s.whenReady <|
    match s.pendingCommit now with
    | none => .next s
    | some (r, cursor, last) => s.whenInSpace r.space last.toNat <| .next (s.serviceRange r cursor last)

end Sys2Proof.Machine
end

