-- ==== Sys2Proof/Machine/Tracker.lean ====
section
/-! DEFINITION. The meanings of MARK and CLEAR, run alone (R200, R203). -/

namespace Sys2Proof.Machine

/-- MARK (R200). -/
def execMark (r : Region) (i : Word16) (s : State) : Result :=
  s.whenConfigured <| s.whenInSpace r.space i.toNat <| .next (s.mark r i)

/-- CLEAR (R203). -/
def execClear (r : Region) (s : State) : Result := s.whenConfigured (.next (s.clear r))

end Sys2Proof.Machine
end

