-- ==== Sys2Proof/Machine/ReadCommands.lean ====
section
/-! DEFINITION. READ_MEMORY (R150 to R154) and READ_STATUS (R155 to R159). -/

namespace Sys2Proof.Machine

/-- The last two lines of the header receive, `CMD <- b0` and `TA <- ...` (R101), and the phase the command runs in
(R104). -/
def State.beginCommand (c : Command) (code : Byte) (ta : Word16) (s : State) : State :=
  ((s.setCmd code).setTa ta).setPhase (.running c)

/-- READ_MEMORY's loop (R151) with `n` addresses left, the next of them `a`: one byte sent per address, unmapped ones as
0xFF; after the last, the checksum. A failed send ends the transaction with no checksum (R153). -/
def readMemoryLoop : Nat → Nat → State → State
  | 0, _, s => s.crcEmit.2.endTransaction
  | n + 1, a, s =>
    match s.send (s.logicalByte a) with
    | (false, t) => t.takeError .transportFailure
    | (true, t) => readMemoryLoop n (a + 1) (t.setTa (BitVec.ofNat 16 (a + 1)))

/-- READ_MEMORY (R151): from `ta` to the end of the logical space; no early stop (R152), no wrap (R154 (f)). -/
def State.readMemory (ta : Word16) (s : State) : State :=
  readMemoryLoop (s.cfg.totalSpace - ta.toNat) ta.toNat (s.beginCommand .readMemory s.cfg.cmdReadMemory ta)

/-- READ_STATUS's loop (R156) with `n` indices left, the next of them `a`: after each byte whose index is 7 mod 8, the
checksum, and `CRC <- 0` (R157). -/
def readStatusLoop : Nat → Nat → State → State
  | 0, _, s => s.endTransaction
  | n + 1, a, s =>
    match s.send (s.peek .status a) with
    | (false, t) => t.takeError .transportFailure
    | (true, t) =>
      if (a + 1) % 8 = 0 then
        match (t.setTa (BitVec.ofNat 16 (a + 1))).crcEmit with
        | (false, u) => u.takeError .transportFailure
        | (true, u) => readStatusLoop n (a + 1) (u.setCrc 0)
      else readStatusLoop n (a + 1) (t.setTa (BitVec.ofNat 16 (a + 1)))

/-- READ_STATUS (R156): from `ta` to the end of the status region. -/
def State.readStatus (ta : Word16) (s : State) : State :=
  readStatusLoop (s.cfg.statusSize - ta.toNat) ta.toNat (s.beginCommand .readStatus s.cfg.cmdReadStatus ta)

/-- The meaning of READ_MEMORY after its header (R150); present whatever WRITE_EN is. -/
def execReadMemory (ta : Word16) (s : State) : Result := s.whenConfigured (.next (s.readMemory ta))

/-- The meaning of READ_STATUS after its header (R155); present whatever WRITE_EN is. -/
def execReadStatus (ta : Word16) (s : State) : Result := s.whenConfigured (.next (s.readStatus ta))

end Sys2Proof.Machine
end

