-- ==== Sys2Proof/Machine/WriteCommands.lean ====
section
/-! DEFINITION. WRITE_MEMORY and WRITE_STATUS (R170 to R180), BURN (R175) and the unknown command (R181, R182). -/

namespace Sys2Proof.Machine

/-- BURN (R175): `old AND incoming`, written and MARKed only if it differs from the old byte. -/
def State.burn (r : Region) (i : Word16) (incoming : Byte) (s : State) : State :=
  let old := s.peek r.space i.toNat
  let burned := old &&& incoming
  if burned ≠ old then (s.poke r.space i.toNat burned).mark r i else s

/-- `TA <- (TA + 1) mod 65536` (R177). -/
def State.advanceTa (s : State) : State := s.setTa (s.ta + 1)

/-- The write loop (R172). `n` bounds the receive script's length, so that at 0 no answer is pending and the receive
fails (R119, log 4). -/
def writeLoop (r : Region) : Nat → State → State
  | 0, s => s.recv.2.takeError .endOfWrite
  | n + 1, s =>
    match s.recv with
    | (none, t) => t.takeError .endOfWrite
    | (some incoming, t) =>
      match locate t.cfg r t.ta with
      | .invalid =>
        if t.cfg.strict then t.takeError .invalidWriteAddress
        else writeLoop r n t.advanceTa
      | .valid i => writeLoop r n (t.burn r i incoming).advanceTa

/-- `WRITE(r)` (R172). -/
def State.writePayload (r : Region) (s : State) : State := writeLoop r s.env.rx.length s

/-- UNKNOWN (R181): one report of `CMD`; no byte is sent. -/
def State.unknownCommand (code : Byte) (ta : Word16) (s : State) : State :=
  (s.beginCommand .unknown code ta).takeError .protocolViolation

/-- WRITE_MEMORY (R170); with WRITE_EN = 0 its code is an unknown command (R182, log 21). -/
def State.writeMemory (ta : Word16) (s : State) : State :=
  if s.cfg.writeEn then (s.beginCommand .writeMemory s.cfg.cmdWriteMemory ta).writePayload .data
  else s.unknownCommand s.cfg.cmdWriteMemory ta

/-- WRITE_STATUS (R171); with WRITE_EN = 0 its code is an unknown command (R182, log 21). -/
def State.writeStatus (ta : Word16) (s : State) : State :=
  if s.cfg.writeEn then (s.beginCommand .writeStatus s.cfg.cmdWriteStatus ta).writePayload .status
  else s.unknownCommand s.cfg.cmdWriteStatus ta

/-- The meaning of WRITE_MEMORY after its header (R170). -/
def execWriteMemory (ta : Word16) (s : State) : Result := s.whenConfigured (.next (s.writeMemory ta))

/-- The meaning of WRITE_STATUS after its header (R171). -/
def execWriteStatus (ta : Word16) (s : State) : Result := s.whenConfigured (.next (s.writeStatus ta))

/-- The meaning of UNKNOWN after its header (R181). -/
def execUnknown (code : Byte) (ta : Word16) (s : State) : Result := s.whenConfigured (.next (s.unknownCommand code ta))

/-- The meaning of BURN run alone (R175). -/
def execBurn (r : Region) (i : Word16) (incoming : Byte) (s : State) : Result :=
  s.whenConfigured <| s.whenInSpace r.space i.toNat <| .next (s.burn r i incoming)

end Sys2Proof.Machine
end

