-- ==== Sys2Proof/Machine/Transact.lean ====
section
/-! DEFINITION. TRANSACT: the header receive and the dispatch (R101, R104). -/

namespace Sys2Proof.Machine

/-- The header receive (R101): `CRC <- 0`, then three receives; none where one of them failed. -/
def State.receiveHeader (s : State) : Option (Byte × Byte × Byte) × State :=
  match ((s.setCrc 0).setPhase .header).recv with
  | (none, t0) => (none, t0)
  | (some b0, t0) =>
    match t0.recv with
    | (none, t1) => (none, t1)
    | (some b1, t1) =>
      match t1.recv with
      | (none, t2) => (none, t2)
      | (some b2, t2) => (some (b0, b1, b2), t2)

/-- The command a complete header starts (R104). -/
def State.runCommand (b0 : Byte) (ta : Word16) (s : State) : State :=
  match commandOf s.cfg b0 with
  | .readMemory => s.readMemory ta
  | .readStatus => s.readStatus ta
  | .writeMemory => s.writeMemory ta
  | .writeStatus => s.writeStatus ta
  | .unknown => s.unknownCommand b0 ta

/-- TRANSACT (R101): a failed receive in the header ends the transaction silently. -/
def State.transact (s : State) : State :=
  match s.receiveHeader with
  | (none, t) => t.takeError .transportFailure
  | (some (b0, b1, b2), t) => t.runCommand b0 (addressOf b1 b2)

/-- The meaning of TRANSACT (R101). -/
def execTransact (s : State) : Result := s.whenReady (.next s.transact)

end Sys2Proof.Machine
end

