-- ==== Sys2Proof/Machine/Dispatch.lean ====
section
/-! DEFINITION. The dispatch: one arm per constructor of `Instr`. -/

namespace Sys2Proof.Machine

/-- The meaning of every operation of the opcode table. -/
def exec (i : Instr) (s : State) : Host.Outcome State Fault Refusal :=
  match i with
  | .readMemory ta => Sys2Proof.Machine.execReadMemory ta s
  | .readStatus ta => Sys2Proof.Machine.execReadStatus ta s
  | .writeMemory ta => Sys2Proof.Machine.execWriteMemory ta s
  | .writeStatus ta => Sys2Proof.Machine.execWriteStatus ta s
  | .unknown code ta => Sys2Proof.Machine.execUnknown code ta s
  | .transact => Sys2Proof.Machine.execTransact s
  | .service now => Sys2Proof.Machine.execService now s
  | .construct now => Sys2Proof.Machine.execConstruct now s
  | .factoryReset => Sys2Proof.Machine.execFactoryReset s
  | .translate addr => Sys2Proof.Machine.execTranslate addr s
  | .crcEmit => Sys2Proof.Machine.execCrcEmit s
  | .locate r ta => Sys2Proof.Machine.execLocate r ta s
  | .burn r idx incoming => Sys2Proof.Machine.execBurn r idx incoming s
  | .mark r idx => Sys2Proof.Machine.execMark r idx s
  | .clear r => Sys2Proof.Machine.execClear r s
  | .blankCheck => Sys2Proof.Machine.execBlankCheck s
  | .factoryResetBody => Sys2Proof.Machine.execFactoryResetBody s
  | .loadStore => Sys2Proof.Machine.execLoadStore s
  | .recv => Sys2Proof.Machine.execRecv s
  | .send b => Sys2Proof.Machine.execSend b s
  | .sendRaw b => Sys2Proof.Machine.execSendRaw b s
  | .reportProtocolError code => Sys2Proof.Machine.execReportProtocolError code s
  | .storeReadByte address => Sys2Proof.Machine.execStoreReadByte address s
  | .storeWriteByte address byte => Sys2Proof.Machine.execStoreWriteByte address byte s

end Sys2Proof.Machine
end

