-- ==== Sys2Proof/Machine/Step.lean ====
section
/-! DEFINITION. The step: one entry-point event of the environment, run to completion (R10). -/

namespace Sys2Proof.Machine

/-- One step: the next pending event's operation. With no event pending the core is inactive (R267, R298). -/
def step (s : State) : Host.Outcome State Fault Refusal :=
  match s.env.events with
  | [] => .next s
  | e :: rest => exec e.toInstr (s.setEnv { s.env with events := rest })

/-- The state in which the next step runs the transaction whose header is the opcode-table word `w`: a TRANSACT event
comes first, and the bus host delivers the three header bytes first (log 5). -/
def State.withFetchWord (s : State) (nbits w : Nat) : State :=
  s.setEnv { s.env with
    events := .transact :: s.env.events
    rx := (wordBytes nbits w).map some ++ s.env.rx }

end Sys2Proof.Machine
end

