-- ==== Sys2Proof/Safety.lean ====
section
/-! DEFINITION. The terms claims use: the invariant of the states between entry points, what it means that bits were
only cleared, that parts of the state are unchanged, that the tracker covers what the store does not hold yet, and the
byte sequences a read or a write shows. -/

namespace Sys2Proof.Machine

/-! ## The invariant between entry points -/

/-- The tracker invariant (R206): a set flag with `low ≤ high < size(r)`, or the cleared range. -/
def DirtyRange.Valid (cfg : Config) (r : Region) (d : DirtyRange) : Prop :=
  (d.flag = true ∧ d.low.toNat ≤ d.high.toNat ∧ d.high.toNat < cfg.size r.space) ∨ d = .empty

/-- The commit-state invariant (R32): idle, or `cursor ≤ end < size(r)` with the region's flag set. -/
def State.CommitValid (s : State) : Prop :=
  match s.commit with
  | .idle => True
  | .committing r cursor last =>
    cursor.toNat ≤ last.toNat ∧ last.toNat < s.cfg.size r.space ∧ (s.dirty r).flag = true

/-- What holds between entry points. -/
structure State.Inv (s : State) : Prop where
  /-- the configuration is well-formed (R8) -/
  configured : s.cfg.wf = true
  /-- no transaction is running (R10, R26) -/
  quiet : s.phase = .done
  /-- the stored spaces are in canonical form, inside their address ranges (R60) -/
  data_wf : Memory.wf s.cfg .data s.data = true
  status_wf : Memory.wf s.cfg .status s.status = true
  store_wf : Memory.wf s.cfg .store s.store = true
  /-- R206, for both regions -/
  dirty_valid : ∀ r, (s.dirty r).Valid s.cfg r
  /-- R32 -/
  commit_valid : s.CommitValid
  /-- `LAST_BUS` is TIME_BITS wide (R33) -/
  last_bus : s.lastBus < s.cfg.timeModulus

/-! ## Comparing two states -/

/-- Every byte of the image is a bitwise subset of what it was (R22). -/
def OnlyCleared (s t : State) : Prop := ∀ r a, t.peek (Region.space r) a &&& s.peek r.space a = t.peek r.space a

/-- No byte of the image changed. -/
def SameImage (s t : State) : Prop := ∀ r a, t.peek (Region.space r) a = s.peek r.space a

/-- No byte of the store changed. -/
def SameStore (s t : State) : Prop := ∀ a, t.peek .store a = s.peek .store a

/-- Neither dirty range changed. -/
def SameTracker (s t : State) : Prop := ∀ r, t.dirty r = s.dirty r

/-- Neither configuration nor lifecycle changed. -/
def SameConfig (s t : State) : Prop := t.cfg = s.cfg ∧ t.constructed = s.constructed

/-- None of the dispatcher's registers, nor its phase, changed (R23, R26). -/
def SameRegisters (s t : State) : Prop := t.cmd = s.cmd ∧ t.ta = s.ta ∧ t.crc = s.crc ∧ t.phase = s.phase

/-- Only bus matters may differ: the dispatcher's registers, `LAST_BUS`, the answers used up and the things shown. -/
structure BusOnly (s t : State) : Prop where
  config : SameConfig s t
  image : SameImage s t
  store : SameStore s t
  tracker : SameTracker s t
  commit : t.commit = s.commit
  result : t.result = s.result
  events : t.env.events = s.env.events
  reads : t.env.reads = s.env.reads

/-- Nothing outside image and tracker changed: registers, store, commit state, `LAST_BUS`, environment and what was
shown are as before. -/
structure ImageOnly (s t : State) : Prop where
  config : SameConfig s t
  registers : SameRegisters s t
  store : SameStore s t
  commit : t.commit = s.commit
  last_bus : t.lastBus = s.lastBus
  env : t.env = s.env
  trace : t.trace = s.trace
  result : t.result = s.result
  free_count : t.freeCount = s.freeCount

/-- Nothing outside the store, the commit state, the tracker, the store-read script and what was shown changed: what
SERVICE may write (R223). -/
structure ServiceOnly (s t : State) : Prop where
  config : SameConfig s t
  registers : SameRegisters s t
  image : SameImage s t
  last_bus : t.lastBus = s.lastBus
  result : t.result = s.result
  free_count : t.freeCount = s.freeCount
  events : t.env.events = s.env.events
  rx : t.env.rx = s.env.rx
  tx : t.env.tx = s.env.tx
  ticks : t.env.ticks = s.env.ticks

/-! ## Entry points -/

/-- An entry point other than CONSTRUCT may be invoked (R117). -/
abbrev State.Ready (s : State) : Prop := s.cfg.wf = true ∧ s.constructed = true ∧ s.phase = .done

/-- SERVICE's gate is open at time `now`: there is a store (R217) and the bus is idle (R216). -/
abbrev State.GateOpen (now : Nat) (s : State) : Prop :=
  s.cfg.persistEn = true ∧ s.cfg.idleThreshold ≤ (now + s.cfg.timeModulus - s.lastBus) % s.cfg.timeModulus

/-- The range a SERVICE call with an open gate works on is `[cursor, last]` of region `r`: the commit in progress, or
the dirty range of data, or that of status where data is not dirty (R218, R219). -/
abbrev State.Selects (s : State) (r : Region) (cursor : Cursor) (last : Word16) : Prop :=
  s.commit = .committing r cursor last ∨
  (s.commit = .idle ∧ (s.dirty r).flag = true ∧ (r = .status → s.dirtyData.flag = false) ∧
    cursor.toNat = (s.dirty r).low.toNat ∧ last = (s.dirty r).high)

/-- The write command of a region (R170, R171). -/
def writeInstr (r : Region) (ta : Word16) : Instr :=
  match r with
  | .data => .writeMemory ta
  | .status => .writeStatus ta

/-- The command code of a region's write command. -/
def writeCode (cfg : Config) (r : Region) : Byte :=
  match r with
  | .data => cfg.cmdWriteMemory
  | .status => cfg.cmdWriteStatus

/-! ## Covering -/

/-- Byte `i` of region `r` differs between image and store. -/
def State.Unsaved (s : State) (r : Region) (i : Nat) : Prop := s.peek .store (s.cfg.base r + i) ≠ s.peek r.space i

/-- Every byte the store does not hold lies in the range that will be committed: the dirty range, or, while a commit
of the region is in progress, what that commit has still to visit (R28 with the limits of R311). -/
def State.Covered (s : State) : Prop :=
  ∀ r i, i < s.cfg.size (Region.space r) → s.Unsaved r i →
    (s.dirty r).flag = true ∧ (s.dirty r).low.toNat ≤ i ∧ i ≤ (s.dirty r).high.toNat ∧
    (∀ cursor last, s.commit = .committing r cursor last → cursor.toNat ≤ i ∧ i ≤ last.toNat)

/-! ## Checksums and what is shown -/

/-- The accumulation `acc` of a byte string onto a checksum (R151, R178). -/
def crcFold (cfg : Config) (c : Word16) (bytes : List Byte) : Word16 := bytes.foldl (crcStep cfg) c

/-- What a successful CRC_EMIT shows: the complement of `c`, low byte first, by the side channel (R134). -/
def checksumShown (c : Word16) : List Shown := [.sendRaw (lowByte (~~~ c)) true, .sendRaw (highByte (~~~ c)) true]

/-- What sending a byte string successfully shows. -/
def bytesShown (bytes : List Byte) : List Shown := bytes.map fun b => .send b true

/-- The bytes of the logical data space at `n` addresses from `a` on (R151). -/
def State.logicalBytes (s : State) (a n : Nat) : List Byte := (List.range' a n).map s.logicalByte

/-- The bytes of the status region at `n` indices from `a` on (R156). -/
def State.statusBytes (s : State) (a n : Nat) : List Byte := (List.range' a n).map (s.peek .status)

/-- What READ_MEMORY shows from logical address `a` on: every byte to the end of the space, then the checksum over what
was accumulated before and these bytes (R151). -/
def State.memoryShown (s : State) (a : Nat) : List Shown :=
  bytesShown (s.logicalBytes a (s.cfg.totalSpace - a)) ++
  checksumShown (crcFold s.cfg s.crc (s.logicalBytes a (s.cfg.totalSpace - a)))

/-- What READ_STATUS shows for one group of `n` indices from `a` on, the accumulator being `c` before it (R157). -/
def State.groupShown (s : State) (c : Word16) (a n : Nat) : List Shown :=
  bytesShown (s.statusBytes a n) ++ checksumShown (crcFold s.cfg c (s.statusBytes a n))

/-- What READ_STATUS shows from index `a` on: the first group up to the next multiple of 8, accumulated onto `CRC`,
then every whole group accumulated from 0 (R156, R157); nothing from the end of the region on (R158 (d)). -/
def State.statusShown (s : State) (a : Nat) : List Shown :=
  if a < s.cfg.statusSize then
    s.groupShown s.crc a (8 - a % 8) ++
    (List.range' (a / 8 + 1) (s.cfg.statusSize / 8 - (a / 8 + 1))).flatMap fun g => s.groupShown 0 (8 * g) 8
  else []

/-- The payload bytes that fall on index `i` of region `r` when a write starts at `ta`: byte `k` goes to address
`ta + k` modulo 65536 (R174, R177). -/
def landing (cfg : Config) (r : Region) (ta : Word16) (payload : List Byte) (i : Nat) : List Byte :=
  (payload.zipIdx.filter fun bk =>
    match locate cfg r (ta + BitVec.ofNat 16 bk.2) with
    | .valid j => decide (j.toNat = i)
    | .invalid => false).map Prod.fst

/-- The same call with a failing answer of the bus host. -/
def Shown.failed : Shown → Shown
  | .send b _ => .send b false
  | .sendRaw b _ => .sendRaw b false
  | .report code => .report code
  | .storeRead a => .storeRead a
  | .storeWrite a b => .storeWrite a b

/-- What `n` commit steps from index `c` of region `r` show on a store that does not diverge: one read each, and a
write exactly where the bytes differ (R220, R221). -/
def State.commitShown (s : State) (r : Region) (c n : Nat) : List Shown :=
  (List.range' c n).flatMap fun i =>
    if s.peek .store (s.cfg.base r + i) = s.peek r.space i then [.storeRead (s.cfg.base r + i)]
    else [.storeRead (s.cfg.base r + i), .storeWrite (s.cfg.base r + i) (s.peek r.space i)]

/-- What the `k`-th store read to come answers where the store holds `stored`: `stored`, or the value this read diverges
to (U9). -/
def State.answers (s : State) (k : Nat) (stored : Byte) : Byte := ((s.env.reads[k]?).getD none).getD stored

/-- The address BLANK_CHECK's read number `j` asks for: data and status take turns (R291). -/
def sampleAddress (cfg : Config) (j : Nat) : Nat :=
  if j % 2 = 0 then cfg.base .data + j / 2 else cfg.base .status + j / 2

/-- How many of LOAD_STORE's reads come before the first one of a region: data first, then status (R294). -/
def loadsBefore (cfg : Config) : Region → Nat
  | .data => 0
  | .status => cfg.dataSize

/-- What writing a region's whole template into the store shows: every byte, in ascending order (R292). -/
def templateWrites (cfg : Config) (r : Region) : List Shown :=
  (cfg.template r).zipIdx.map fun bi => .storeWrite (cfg.base r + bi.2) bi.1

/-- What reading a region's whole store range shows, in ascending order (R294). -/
def regionReads (cfg : Config) (r : Region) : List Shown :=
  (List.range (cfg.size r.space)).map fun i => .storeRead (cfg.base r + i)

/-- What LOAD_STORE shows: data, then status (R294). -/
def loadShown (cfg : Config) : List Shown := regionReads cfg .data ++ regionReads cfg .status

/-- What FACTORY_RESET_BODY shows on the store: STORE_SIZE writes, data then status, then LOAD_STORE (R292). -/
def factoryShown (cfg : Config) : List Shown :=
  templateWrites cfg .data ++ templateWrites cfg .status ++ loadShown cfg

/-- How many `store.readByte` calls a trace shows. -/
def storeReads (l : List Shown) : Nat :=
  l.countP fun
    | .storeRead _ => true
    | _ => false

/-- How many `store.writeByte` calls a trace shows. -/
def storeWrites (l : List Shown) : Nat :=
  l.countP fun
    | .storeWrite _ _ => true
    | _ => false

end Sys2Proof.Machine
end

