-- ==== Sys2Proof/Certificates/Slice0/Obligations.lean ====
section
/-! DEFINITION. The statements for the provers. -/

open Sys2Proof Sys2Proof.Machine

/-! ## Encoding -/

/-- R100, R104: decoding the encoding of a well-formed command gives the command back, with whatever follows the header
left over, for every operand value. -/
def Obligations.DecodeOfEncode : Prop :=
  ∀ (cfg : Config) (i : Instr) (bytes rest : List Byte),
    cfg.wf = true → i.wf cfg = true → encode cfg i = some bytes → decode cfg (bytes ++ rest) = .instr i rest

/-- R104, R106, R107, R68: every three bytes are the header of exactly one command, which the first byte selects by
comparing it whole with the codes of the present commands and whose address is the other two, low byte first; it is
well-formed and encodes to those bytes. -/
def Obligations.EveryHeaderIsOneCommand : Prop :=
  ∀ (cfg : Config) (b0 b1 b2 : Byte) (rest : List Byte), cfg.wf = true →
    ∃ (i : Instr) (ta : Word16), decode cfg (b0 :: b1 :: b2 :: rest) = .instr i rest ∧
      ta.toNat = b1.toNat + 256 * b2.toNat ∧
      (b0 = cfg.cmdReadMemory → i = .readMemory ta) ∧ (b0 = cfg.cmdReadStatus → i = .readStatus ta) ∧
      (cfg.writeEn = true → b0 = cfg.cmdWriteMemory → i = .writeMemory ta) ∧
      (cfg.writeEn = true → b0 = cfg.cmdWriteStatus → i = .writeStatus ta) ∧
      (b0 ≠ cfg.cmdReadMemory → b0 ≠ cfg.cmdReadStatus →
        (cfg.writeEn = true → b0 ≠ cfg.cmdWriteMemory ∧ b0 ≠ cfg.cmdWriteStatus) → i = .unknown b0 ta) ∧
      i.wf cfg = true ∧ encode cfg i = some [b0, b1, b2] ∧
      ∀ j, j.wf cfg = true → encode cfg j = some [b0, b1, b2] → j = i

/-- R106: 252 of the 256 command bytes are unknown where the write commands are present, 254 where they are not. -/
def Obligations.UnknownCodeCount : Prop :=
  ∀ cfg : Config, cfg.wf = true →
    (List.range 256).countP (fun n => decide (commandOf cfg (BitVec.ofNat 8 n) = .unknown)) =
      if cfg.writeEn then 252 else 254

/-- R100, R68: header bytes written out by hand decode to the command they stand for, under the default codes (log 2). -/
def Obligations.HeaderBytesDecode : Prop :=
  decode .configT [0xF0, 0x2E, 0x00] = .instr (.readMemory 0x002E) [] ∧
  decode .configT [0xAA, 0x03, 0x00] = .instr (.readStatus 0x0003) [] ∧
  decode .configT [0x0F, 0x34, 0x12, 0x77] = .instr (.writeMemory 0x1234) [0x77] ∧
  decode .configT [0x55, 0xFF, 0xFE] = .instr (.writeStatus 0xFEFF) [] ∧
  decode .configT [0x33, 0x00, 0x80] = .instr (.unknown 0x33 0x8000) [] ∧
  decode .configT [0xF0, 0x10] = .incompleteHeader 2

/-! ## The step and TRANSACT -/

/-- R10, R118, R298: a step runs the operation of the next pending event, be it TRANSACT, SERVICE, CONSTRUCT or
FACTORY_RESET, on the state without that event; with no event pending it leaves the state as it is (log 6). -/
def Obligations.StepRunsPendingEvent : Prop :=
  ∀ (s : State) (rest : List Event) (now : Nat),
    (s.env.events = .transact :: rest → step s = exec .transact (s.setEnv { s.env with events := rest })) ∧
    (s.env.events = .service now :: rest → step s = exec (.service now) (s.setEnv { s.env with events := rest })) ∧
    (s.env.events = .construct now :: rest → step s = exec (.construct now) (s.setEnv { s.env with events := rest })) ∧
    (s.env.events = .factoryReset :: rest → step s = exec .factoryReset (s.setEnv { s.env with events := rest })) ∧
    (s.env.events = [] → step s = .next s)

/-- R101, R104: a step at a TRANSACT event whose three header bytes arrive is the decoded command's operation, run in
the state the header receive leaves: `CRC` is the accumulation of the three bytes from 0, the bytes and the event are
used up, nothing is shown, and nothing but bus matters differs; that `CMD` and `TA` are written by the command's own
meaning is the model's choice (log 23). -/
def Obligations.TransactRunsDecodedCommand : Prop :=
  ∀ (s : State) (b0 b1 b2 : Byte) (rest : List (Option Byte)) (events : List Event) (i : Instr) (more : List Byte),
    s.Ready → s.env.events = .transact :: events → s.env.rx = some b0 :: some b1 :: some b2 :: rest →
    decode s.cfg (b0 :: b1 :: b2 :: more) = .instr i more →
    ∃ h : State, step s = exec i h ∧
      h.crc = crcFold s.cfg 0 [b0, b1, b2] ∧ h.env.rx = rest ∧ h.env.tx = s.env.tx ∧ h.trace = s.trace ∧
      h.cmd = s.cmd ∧ h.ta = s.ta ∧ h.freeCount = s.freeCount ∧
      BusOnly (s.setEnv { s.env with events := events }) h

/-- R101, R251: a header cut short by a failed receive after fewer than three bytes ends the transaction: nothing is
sent, nothing is reported, and nothing changes but `CRC` (which no rule reads afterwards), `LAST_BUS` and the answers
used up; that `CMD` and `TA` stay is the model's choice (log 14), and so is the failure of an exhausted script (log 4). -/
def Obligations.IncompleteHeaderIsSilent : Prop :=
  ∀ (s : State) (bytes : List Byte) (tail : List (Option Byte)),
    s.Ready → bytes.length < 3 → s.env.rx = bytes.map some ++ tail → (∀ b, tail.head? ≠ some (some b)) →
    ∃ t, exec .transact s = .next t ∧ t.trace = s.trace ∧ t.cmd = s.cmd ∧ t.ta = s.ta ∧ t.phase = .done ∧
      t.env.rx = tail.tail ∧ t.env.tx = s.env.tx ∧ BusOnly s t

/-- R38, R262, R139: TRANSACT always completes on the finite scripts the model takes the environment's answers from (log 4:
a bus host that never ends a write payload, R317, is outside the model); it never touches the commit state, the store, the
configuration or the store-read script, it only clears image bits, and it leaves no transaction running. While the clock
stands at `now` (log 4), `LAST_BUS` is `now` afterwards, whatever the command and however it ended. -/
def Obligations.TransactCompletes : Prop :=
  ∀ s : State, s.Ready →
    ∃ t, exec .transact s = .next t ∧ t.phase = .done ∧ OnlyCleared s t ∧ SameStore s t ∧ t.commit = s.commit ∧
      SameConfig s t ∧ t.result = s.result ∧ t.env.events = s.env.events ∧ t.env.reads = s.env.reads ∧
      (∀ r, (s.dirty r).flag = true → (t.dirty r).flag = true) ∧
      (∀ now, s.env.ticks = [now] → t.lastBus = now % 2 ^ s.cfg.timeBits ∧ t.env.ticks = [now])

/-! ## Read commands -/

/-- R151, R152, R153: where the bus host takes every byte, READ_MEMORY sends the byte of every logical address from `ta`
to the end of the space (0xFF where unmapped; none when `ta` is at or beyond the end), then the complement of the checksum
accumulated over what came before, which covers the header if `CRC` does at the start; where a send fails, be it a data
byte or a checksum byte, it ends at once with nothing reported; it changes nothing but bus matters. What `CMD` and `CRC`
hold after the end, and that an exhausted send script succeeds, are the model's choices (log 11, log 4). -/
def Obligations.ReadMemoryStreamsToTheEnd : Prop :=
  ∀ (s : State) (ta : Word16), s.cfg.wf = true →
    ∃ t, exec (.readMemory ta) s = .next t ∧ t.cmd = s.cfg.cmdReadMemory ∧ t.phase = .done ∧ t.env.rx = s.env.rx ∧
      BusOnly s t ∧
      ((∀ ok ∈ s.env.tx.take (s.memoryShown ta.toNat).length, ok = true) →
        t.trace = (s.memoryShown ta.toNat).reverse ++ s.trace ∧
        t.crc = crcFold s.cfg s.crc (s.logicalBytes ta.toNat (s.cfg.totalSpace - ta.toNat)) ∧
        (s.crc = crcFold s.cfg 0 (headerBytes s.cfg.cmdReadMemory ta) →
          t.crc = crcFold s.cfg 0
            (headerBytes s.cfg.cmdReadMemory ta ++ s.logicalBytes ta.toNat (s.cfg.totalSpace - ta.toNat)))) ∧
      (∀ (k : Nat) (rest : List Bool) (last : Shown), s.env.tx = List.replicate k true ++ false :: rest →
        (s.memoryShown ta.toNat)[k]? = some last →
        t.trace = ((s.memoryShown ta.toNat).take k ++ [last.failed]).reverse ++ s.trace ∧ t.env.tx = rest)

/-- R156, R159, R158: where the bus host takes every byte, READ_STATUS shows the first, possibly partial, group up to the
next multiple of 8 with its checksum, then every whole group with a checksum of its own from 0; from the end of the region
on it shows nothing; where a send fails, be it a status byte or a checksum byte, it ends at once with nothing reported; it
changes nothing but bus matters. What `CMD` and `CRC` hold after the end, and that an exhausted send script succeeds, are
the model's choices (log 11, log 4). -/
def Obligations.ReadStatusShowsGroups : Prop :=
  ∀ (s : State) (ta : Word16), s.cfg.wf = true →
    ∃ t, exec (.readStatus ta) s = .next t ∧ t.cmd = s.cfg.cmdReadStatus ∧ t.phase = .done ∧ t.env.rx = s.env.rx ∧
      BusOnly s t ∧
      ((∀ ok ∈ s.env.tx.take (s.statusShown ta.toNat).length, ok = true) →
        t.trace = (s.statusShown ta.toNat).reverse ++ s.trace ∧
        t.crc = (if ta.toNat < s.cfg.statusSize then 0 else s.crc)) ∧
      (∀ (k : Nat) (rest : List Bool) (last : Shown), s.env.tx = List.replicate k true ++ false :: rest →
        (s.statusShown ta.toNat)[k]? = some last →
        t.trace = ((s.statusShown ta.toNat).take k ++ [last.failed]).reverse ++ s.trace ∧ t.env.tx = rest)

/-! ## Write commands and the unknown command -/

/-- R172 to R178: a write whose payload is received to its end leaves every byte of its region ANDed with each payload
byte that landed on it, in tolerant mode or where every address is valid; `TA` has advanced once per payload byte,
modulo 65536; the checksum sent covers every payload byte, valid or not, and the header if `CRC` does at the start; an
empty payload sends the checksum alone; where a send of the checksum fails, the write ends there with nothing reported and
what was burned stays. That `CMD`, `TA` and `CRC` keep their last values after the end, and what an exhausted script
answers, are the model's choices (log 11, log 4). -/
def Obligations.WriteBurnsEveryLandingByte : Prop :=
  ∀ (s : State) (r : Region) (ta : Word16) (payload : List Byte) (tail : List (Option Byte)),
    s.cfg.wf = true → s.cfg.writeEn = true →
    s.env.rx = payload.map some ++ tail → (∀ b, tail.head? ≠ some (some b)) →
    (s.cfg.strict = false ∨ ∀ k < payload.length, locate s.cfg r (ta + BitVec.ofNat 16 k) ≠ .invalid) →
    ∃ t, exec (writeInstr r ta) s = .next t ∧
      (∀ i, t.peek r.space i = (landing s.cfg r ta payload i).foldl (· &&& ·) (s.peek r.space i)) ∧
      t.ta = ta + BitVec.ofNat 16 payload.length ∧ t.crc = crcFold s.cfg s.crc payload ∧
      (s.crc = crcFold s.cfg 0 (headerBytes (writeCode s.cfg r) ta) →
        t.crc = crcFold s.cfg 0 (headerBytes (writeCode s.cfg r) ta ++ payload)) ∧
      t.cmd = writeCode s.cfg r ∧ t.env.rx = tail.tail ∧ t.phase = .done ∧
      ((∀ ok ∈ s.env.tx.take 2, ok = true) →
        t.trace = (checksumShown (crcFold s.cfg s.crc payload)).reverse ++ s.trace) ∧
      (∀ (k : Nat) (rest : List Bool) (last : Shown), s.env.tx = List.replicate k true ++ false :: rest →
        (checksumShown (crcFold s.cfg s.crc payload))[k]? = some last →
        t.trace = ((checksumShown (crcFold s.cfg s.crc payload)).take k ++ [last.failed]).reverse ++ s.trace ∧
        t.env.tx = rest)

/-- R176, R253: in strict mode the first payload byte on an invalid location ends the write: one report of the write
command's code, no checksum, nothing sent, the bytes before it burned, the payload after it not received. -/
def Obligations.StrictInvalidWriteAborts : Prop :=
  ∀ (s : State) (r : Region) (ta : Word16) (payload : List Byte) (b : Byte) (rest : List (Option Byte)),
    s.cfg.wf = true → s.cfg.writeEn = true → s.cfg.strict = true →
    s.env.rx = payload.map some ++ some b :: rest →
    (∀ k < payload.length, locate s.cfg r (ta + BitVec.ofNat 16 k) ≠ .invalid) →
    locate s.cfg r (ta + BitVec.ofNat 16 payload.length) = .invalid →
    ∃ t, exec (writeInstr r ta) s = .next t ∧ t.trace = .report (writeCode s.cfg r) :: s.trace ∧
      (∀ i, t.peek r.space i = (landing s.cfg r ta payload i).foldl (· &&& ·) (s.peek r.space i)) ∧
      t.env.rx = rest ∧ t.env.tx = s.env.tx ∧ t.phase = .done

/-- R170, R171, R180: whatever the scripts of the environment answer, a write command completes; it never touches the other
region, its tracker, the commit state or the store, and only clears bits of its own. That the scripts are finite, so that
every payload ends (R173 (3), R317), is the model's choice (log 4), and so is that the operation run alone with
WRITE_EN = 0 acts as the unknown command (log 21). -/
def Obligations.WriteTouchesOnlyItsRegion : Prop :=
  ∀ (s : State) (r : Region) (ta : Word16), s.cfg.wf = true →
    ∃ t, exec (writeInstr r ta) s = .next t ∧ OnlyCleared s t ∧
      (∀ q, q ≠ r → t.dirty q = s.dirty q ∧ ∀ a, t.peek (Region.space q) a = s.peek q.space a) ∧
      SameStore s t ∧ t.commit = s.commit ∧ SameConfig s t ∧ t.result = s.result ∧
      t.env.events = s.env.events ∧ t.env.reads = s.env.reads ∧ t.phase = .done

/-- R180, R175: after a write command every byte of its region whose value changed lies in the region's dirty range;
where no byte changed the tracker is untouched; a range already dirty never shrinks. -/
def Obligations.WriteMarksWhatChanged : Prop :=
  ∀ (s t : State) (r : Region) (ta : Word16), exec (writeInstr r ta) s = .next t →
    (∀ i, t.peek r.space i ≠ s.peek r.space i →
      (t.dirty r).flag = true ∧ (t.dirty r).low.toNat ≤ i ∧ i ≤ (t.dirty r).high.toNat) ∧
    (SameImage s t → SameTracker s t) ∧
    ((s.dirty r).flag = true → (t.dirty r).flag = true) ∧
    (t.dirty r).low.toNat ≤ (s.dirty r).low.toNat ∧ (s.dirty r).high.toNat ≤ (t.dirty r).high.toNat

/-- R182: with WRITE_EN = 0 both write codes are unknown commands (header received, the code reported, no payload
byte received), and no transaction and no service call changes the image or sets a dirty flag. -/
def Obligations.WriteDisabledMeansUnknown : Prop :=
  ∀ s : State, s.Ready → s.cfg.writeEn = false →
    (∀ (r : Region) (b1 b2 : Byte) (rest : List (Option Byte)),
      s.env.rx = some (writeCode s.cfg r) :: some b1 :: some b2 :: rest →
      ∃ t, exec .transact s = .next t ∧ t.trace = .report (writeCode s.cfg r) :: s.trace ∧ t.env.rx = rest) ∧
    (∀ t, (exec .transact s = .next t ∨ ∃ now, exec (.service now) s = .next t) →
      SameImage s t ∧ ∀ r, (s.dirty r).flag = false → (t.dirty r).flag = false)

/-- R181, R252: an unknown command reports its code once and sends nothing; nothing but bus matters changes.
That `CMD` and `TA` keep the header's values, and that the code of a present command is treated like any other, are the
model's choices (log 11, log 29). -/
def Obligations.UnknownCommandReportsItsCode : Prop :=
  ∀ (s : State) (code : Byte) (ta : Word16), s.cfg.wf = true →
    ∃ t, exec (.unknown code ta) s = .next t ∧ t.trace = .report code :: s.trace ∧ t.cmd = code ∧ t.ta = ta ∧
      t.crc = s.crc ∧ t.lastBus = s.lastBus ∧ t.env = s.env ∧ t.phase = .done ∧ BusOnly s t

/-! ## BURN, MARK, CLEAR -/

/-- R175: BURN leaves `old AND incoming` at its index and every other byte as it was; it marks the index exactly when
the value changed, and touches nothing else. -/
def Obligations.BurnClearsAndMarks : Prop :=
  ∀ (s : State) (r : Region) (i : Word16) (incoming : Byte), s.cfg.wf = true → i.toNat < s.cfg.size r.space →
    ∃ t, exec (.burn r i incoming) s = .next t ∧
      t.peek r.space i.toNat = s.peek r.space i.toNat &&& incoming ∧
      (∀ q a, ¬(q = r ∧ a = i.toNat) → t.peek (Region.space q) a = s.peek q.space a) ∧
      (s.peek r.space i.toNat &&& incoming = s.peek r.space i.toNat → t.dirty r = s.dirty r) ∧
      (s.peek r.space i.toNat &&& incoming ≠ s.peek r.space i.toNat →
        (t.dirty r).flag = true ∧ (t.dirty r).low.toNat = min (s.dirty r).low.toNat i.toNat ∧
        (t.dirty r).high.toNat = max (s.dirty r).high.toNat i.toNat) ∧
      (∀ q, q ≠ r → t.dirty q = s.dirty q) ∧ ImageOnly s t

/-- R77, R179 (d): burning the same byte again changes nothing at all. -/
def Obligations.BurnIsIdempotent : Prop :=
  ∀ (s t : State) (r : Region) (i : Word16) (incoming : Byte),
    exec (.burn r i incoming) s = .next t → exec (.burn r i incoming) t = .next t

/-- R200, R30: MARK sets the flag and widens the bounds by min and max; the other region and everything else are as
before. -/
def Obligations.MarkWidensTheRange : Prop :=
  ∀ (s : State) (r : Region) (i : Word16), s.cfg.wf = true → i.toNat < s.cfg.size r.space →
    ∃ d : DirtyRange, exec (.mark r i) s = .next (s.setDirty r d) ∧ d.flag = true ∧
      d.low.toNat = min (s.dirty r).low.toNat i.toNat ∧ d.high.toNat = max (s.dirty r).high.toNat i.toNat

/-- R203, R201: CLEAR leaves (false, 0xFFFF, 0x0000) and nothing else changed, and the first MARK after it yields the
range of that one index. -/
def Obligations.ClearThenMarkIsOneIndex : Prop :=
  ∀ (s : State) (r : Region), s.cfg.wf = true →
    exec (.clear r) s = .next (s.setDirty r ⟨false, 0xFFFF, 0x0000⟩) ∧
    ∀ i : Word16, i.toNat < s.cfg.size r.space →
      exec (.mark r i) (s.setDirty r ⟨false, 0xFFFF, 0x0000⟩) = .next (s.setDirty r ⟨true, i, i⟩)

/-! ## TRANSLATE, LOCATE, CRC_EMIT -/

/-- R130, R131: TRANSLATE answers `ps × PAGE_SIZE + off` where an entry (lp, ps) names the address's page, and
`unmapped` where none does or the address is at or beyond TOTAL_SPACE; it writes nothing but its answer. -/
def Obligations.TranslateFollowsThePageMap : Prop :=
  ∀ (s : State) (addr : Word16), s.cfg.wf = true →
    ∃ x : Translation, exec (.translate addr) s = .next (s.setResult (.translated x)) ∧
      (s.cfg.totalSpace ≤ addr.toNat → x = .unmapped) ∧
      (∀ ps, addr.toNat < s.cfg.totalSpace → (addr.toNat / 2 ^ s.cfg.pageBits, ps) ∈ s.cfg.pageMap →
        ∃ p, x = .mapped p ∧ p.toNat = ps * 2 ^ s.cfg.pageBits + addr.toNat % 2 ^ s.cfg.pageBits ∧
          p.toNat < s.cfg.dataSize) ∧
      ((∀ ps, (addr.toNat / 2 ^ s.cfg.pageBits, ps) ∉ s.cfg.pageMap) → x = .unmapped)

/-- R66, R133: under a well-formed configuration every physical byte index is the translation of exactly one logical
address, and every translation is a physical byte index whose slot and offset lead back to the address. -/
def Obligations.TranslationIsOneToOneAndOnto : Prop :=
  ∀ cfg : Config, cfg.wf = true →
    (∀ p : Word16, p.toNat < cfg.dataSize → ∃! addr : Word16, translate cfg addr.toNat = .mapped p) ∧
    (∀ addr p : Word16, translate cfg addr.toNat = .mapped p →
      p.toNat < cfg.dataSize ∧ p.toNat % cfg.pageSize = addr.toNat % cfg.pageSize ∧
      (addr.toNat / cfg.pageSize, p.toNat / cfg.pageSize) ∈ cfg.pageMap)

/-- R174: a data location is valid where its address translates, with the physical index; a status location where it is
below STATUS_SIZE, with itself; every valid index lies inside its region; nothing is written but the answer. -/
def Obligations.LocateAnswersValidity : Prop :=
  ∀ (s : State) (r : Region) (ta : Word16), s.cfg.wf = true →
    ∃ l : Location, exec (.locate r ta) s = .next (s.setResult (.located l)) ∧
      (r = .data → ∀ i, l = .valid i ↔ translate s.cfg ta.toNat = .mapped i) ∧
      (r = .status → ∀ i, l = .valid i ↔ (i = ta ∧ ta.toNat < s.cfg.statusSize)) ∧
      (∀ i, l = .valid i → i.toNat < s.cfg.size r.space)

/-- R134, R138: CRC_EMIT sends the complement of `CRC`, low byte first, through the side channel, stops at the first
failure, answers whether both succeeded, and writes no state of the core but `LAST_BUS`. That an exhausted send script
succeeds and that the last clock reading stands for both sends are the model's choices (log 4). -/
def Obligations.CrcEmitSendsTheComplement : Prop :=
  ∀ s : State, s.cfg.wf = true →
    ∃ t, exec .crcEmit s = .next t ∧ SameRegisters s t ∧ SameConfig s t ∧ SameImage s t ∧ SameStore s t ∧
      SameTracker s t ∧ t.commit = s.commit ∧ t.freeCount = s.freeCount ∧ t.env.rx = s.env.rx ∧
      (∀ now, s.env.ticks = [now] → t.lastBus = now % 2 ^ s.cfg.timeBits) ∧
      ((s.env.tx = [] ∨ s.env.tx = [true] ∨ ∃ rest, s.env.tx = true :: true :: rest) →
        t.result = .answered true ∧ t.env.tx = s.env.tx.drop 2 ∧
        t.trace = .sendRaw (highByte (~~~ s.crc)) true :: .sendRaw (lowByte (~~~ s.crc)) true :: s.trace) ∧
      (∀ rest, s.env.tx = false :: rest →
        t.result = .answered false ∧ t.trace = .sendRaw (lowByte (~~~ s.crc)) false :: s.trace ∧ t.env.tx = rest) ∧
      (∀ rest, s.env.tx = true :: false :: rest →
        t.result = .answered false ∧ t.env.tx = rest ∧
        t.trace = .sendRaw (highByte (~~~ s.crc)) false :: .sendRaw (lowByte (~~~ s.crc)) true :: s.trace)

/-- R142: with the default accumulation step, any byte string followed by the two bytes CRC_EMIT sends for it
accumulates to 0xB001. -/
def Obligations.ChecksummedMessageHasConstantResidue : Prop :=
  ∀ (cfg : Config) (bytes : List Byte), cfg.crcAlgorithm = .crc16 →
    crcFold cfg 0 (bytes ++ [lowByte (~~~ crcFold cfg 0 bytes), highByte (~~~ crcFold cfg 0 bytes)]) = 0xB001

/-! ## Primitives -/

/-- R110, R136: a successful receive delivers the byte and folds it into `CRC`; a failed one delivers none and leaves
`CRC` unchanged; nothing but bus matters and the answer changes. That an exhausted receive script fails is the model's choice
(log 4). -/
def Obligations.RecvFoldsOnlyDeliveredBytes : Prop :=
  ∀ s : State, s.cfg.wf = true →
    ∃ t, exec .recv s = .next t ∧ t.trace = s.trace ∧ t.cmd = s.cmd ∧ t.ta = s.ta ∧ t.phase = s.phase ∧
      t.env.rx = s.env.rx.tail ∧ t.env.tx = s.env.tx ∧ BusOnly (s.setResult t.result) t ∧
      (∀ b rest, s.env.rx = some b :: rest → t.result = .received (some b) ∧ t.crc = crcStep s.cfg s.crc b) ∧
      ((∀ b, s.env.rx.head? ≠ some (some b)) → t.result = .received none ∧ t.crc = s.crc)

/-- R111, R137: a successful send folds its byte into `CRC`; after a failed one nothing is said of `CRC` (log 12); either
way the call is shown and nothing but bus matters and the answer changes. An exhausted script succeeds (log 4). -/
def Obligations.SendFoldsSentBytes : Prop :=
  ∀ (s : State) (b : Byte), s.cfg.wf = true →
    ∃ t ok, exec (.send b) s = .next t ∧ t.result = .answered ok ∧ t.trace = .send b ok :: s.trace ∧
      t.cmd = s.cmd ∧ t.ta = s.ta ∧ t.phase = s.phase ∧ t.env.rx = s.env.rx ∧ t.env.tx = s.env.tx.tail ∧
      BusOnly (s.setResult t.result) t ∧ (ok = false ↔ s.env.tx.head? = some false) ∧
      (ok = true → t.crc = crcStep s.cfg s.crc b)

/-- R112, R138: `send_raw` shows its byte on the side channel and leaves `CRC` unchanged, whether it succeeds or not.
That an exhausted send script succeeds is the model's choice (log 4). -/
def Obligations.SendRawLeavesTheChecksum : Prop :=
  ∀ (s : State) (b : Byte), s.cfg.wf = true →
    ∃ t ok, exec (.sendRaw b) s = .next t ∧ t.result = .answered ok ∧ t.trace = .sendRaw b ok :: s.trace ∧
      SameRegisters s t ∧ t.env.rx = s.env.rx ∧ t.env.tx = s.env.tx.tail ∧ t.freeCount = s.freeCount ∧
      BusOnly (s.setResult t.result) t ∧ (ok = false ↔ s.env.tx.head? = some false)

/-- R139: at the return of every `recv`, `send` and `send_raw`, successful or not, `LAST_BUS` is the clock's reading at that
return, modulo 2^TIME_BITS, and the next reading is left for the next primitive; a report touches neither. -/
def Obligations.BusPrimitivesStampLastBus : Prop :=
  ∀ (s t : State) (now : Nat) (rest : List Nat), s.env.ticks = now :: rest →
    (∀ i, (i = .recv ∨ (∃ b, i = .send b) ∨ ∃ b, i = .sendRaw b) → exec i s = .next t →
      t.lastBus = now % 2 ^ s.cfg.timeBits ∧ (rest ≠ [] → t.env.ticks = rest)) ∧
    (∀ code, exec (.reportProtocolError code) s = .next t → t.lastBus = s.lastBus ∧ t.env.ticks = s.env.ticks)

/-- R119, log 4: the model's choice of what a clock script that runs out answers: its last reading stands for every later
primitive, and where it never had one `LAST_BUS` stays as it is. -/
def Obligations.LastClockReadingStands : Prop :=
  ∀ (s t : State) (i : Instr), (i = .recv ∨ (∃ b, i = .send b) ∨ ∃ b, i = .sendRaw b) → exec i s = .next t →
    (∀ now, s.env.ticks = [now] → t.env.ticks = [now]) ∧
    (s.env.ticks = [] → t.env.ticks = [] ∧ t.lastBus = s.lastBus)

/-- R113, R139: `reportProtocolError` shows the code and changes nothing else; `LAST_BUS` is not touched. -/
def Obligations.ReportShowsTheCode : Prop :=
  ∀ (s : State) (code : Byte), s.cfg.wf = true →
    exec (.reportProtocolError code) s = .next { s with trace := .report code :: s.trace }

/-- R114, U9: `store.readByte` answers the store's byte, or the value the environment lets this read diverge to; it
changes no byte anywhere. That an exhausted script of reads does not diverge is the model's choice (log 16). -/
def Obligations.StoreReadAnswersTheByte : Prop :=
  ∀ (s : State) (a : Nat), s.cfg.wf = true → s.cfg.persistEn = true → a < s.cfg.dataSize + s.cfg.statusSize →
    ∃ t, exec (.storeReadByte a) s = .next t ∧
      t.result = .stored ((s.env.reads.headD none).getD (s.peek .store a)) ∧
      t.trace = .storeRead a :: s.trace ∧ SameImage s t ∧ SameStore s t ∧ SameTracker s t ∧ SameRegisters s t ∧
      SameConfig s t ∧ t.commit = s.commit ∧ t.lastBus = s.lastBus ∧
      t.env = { s.env with reads := s.env.reads.tail } ∧ t.freeCount = s.freeCount

/-- R115: after `store.writeByte` the store holds the byte at that address and every other byte of store and image as
before; on a store that does not diverge a `store.readByte` of the address answers it. -/
def Obligations.StoreWriteThenRead : Prop :=
  ∀ (s : State) (a : Nat) (v : Byte), s.cfg.wf = true → s.cfg.persistEn = true →
    a < s.cfg.dataSize + s.cfg.statusSize →
    ∃ t, exec (.storeWriteByte a v) s = .next t ∧ t.peek .store a = v ∧
      (∀ x, x ≠ a → t.peek .store x = s.peek .store x) ∧ SameImage s t ∧ SameTracker s t ∧ SameRegisters s t ∧
      SameConfig s t ∧ t.commit = s.commit ∧ t.lastBus = s.lastBus ∧ t.env = s.env ∧ t.result = s.result ∧
      t.trace = .storeWrite a v :: s.trace ∧ t.freeCount = s.freeCount ∧
      (s.env.reads = [] → ∃ u, exec (.storeReadByte a) t = .next u ∧ u.result = .stored v)

/-- U10, R36: an address outside its space is refused, and so is every store operation where there is no store: the
model's reading of both (log 17, log 22). -/
def Obligations.AbsentStorageIsRefused : Prop :=
  ∀ s : State, s.cfg.wf = true →
    (∀ r i b, s.cfg.size (Region.space r) ≤ BitVec.toNat i →
      exec (.burn r i b) s = .refused (.addressOutsideSpace r.space i.toNat) ∧
      exec (.mark r i) s = .refused (.addressOutsideSpace r.space i.toNat)) ∧
    (∀ a b, s.cfg.persistEn = true → s.cfg.dataSize + s.cfg.statusSize ≤ a →
      exec (.storeReadByte a) s = .refused (.addressOutsideSpace .store a) ∧
      exec (.storeWriteByte a b) s = .refused (.addressOutsideSpace .store a)) ∧
    (s.cfg.persistEn = false →
      (∀ a b, exec (.storeReadByte a) s = .refused .noStore ∧ exec (.storeWriteByte a b) s = .refused .noStore) ∧
      exec .blankCheck s = .refused .noStore ∧ exec .loadStore s = .refused .noStore)

/-! ## SERVICE -/

/-- R216, R217, R218: SERVICE leaves every piece of state unchanged when the bus is not idle, when persistence is
disabled, and when no commit is in progress and nothing is dirty. -/
def Obligations.ServiceWithoutWorkChangesNothing : Prop :=
  ∀ (s : State) (now : Nat), s.Ready → now < s.cfg.timeModulus → s.lastBus < s.cfg.timeModulus →
    ((now + s.cfg.timeModulus - s.lastBus) % s.cfg.timeModulus < s.cfg.idleThreshold ∨ s.cfg.persistEn = false ∨
      (s.commit = .idle ∧ s.dirtyData.flag = false ∧ s.dirtyStatus.flag = false)) →
    exec (.service now) s = .next s

/-- R218 to R224: a service call whose selected range fits the budget makes the store equal to the image over the range,
visiting it in ascending order and writing exactly where the bytes differ, clears the region's tracker and leaves
COMMIT idle; the other region's tracker and every store byte outside the range are as before. -/
def Obligations.ServiceFinishesARangeWithinBudget : Prop :=
  ∀ (s : State) (now : Nat) (r : Region) (cursor : Cursor) (last : Word16), s.Ready →
    now < s.cfg.timeModulus → s.lastBus < s.cfg.timeModulus → s.GateOpen now → s.Selects r cursor last →
    cursor.toNat ≤ last.toNat → last.toNat < s.cfg.size r.space → s.env.reads = [] →
    last.toNat - cursor.toNat + 1 ≤ s.cfg.commitBudget →
    ∃ t, exec (.service now) s = .next t ∧ t.commit = .idle ∧ t.dirty r = ⟨false, 0xFFFF, 0x0000⟩ ∧
      (∀ q, q ≠ r → t.dirty q = s.dirty q) ∧
      (∀ i, cursor.toNat ≤ i → i ≤ last.toNat → t.peek .store (s.cfg.base r + i) = s.peek r.space i) ∧
      (∀ a, a < s.cfg.base r + cursor.toNat ∨ s.cfg.base r + last.toNat < a → t.peek .store a = s.peek .store a) ∧
      t.trace = (s.commitShown r cursor.toNat (last.toNat - cursor.toNat + 1)).reverse ++ s.trace ∧ ServiceOnly s t

/-- R218 to R224: a service call whose selected range exceeds the budget commits the first COMMIT_BUDGET bytes of it and
leaves COMMIT at the first byte not yet visited, the flag still set and both trackers as they were. -/
def Obligations.ServiceStopsAtTheBudget : Prop :=
  ∀ (s : State) (now : Nat) (r : Region) (cursor : Cursor) (last : Word16), s.Ready →
    now < s.cfg.timeModulus → s.lastBus < s.cfg.timeModulus → s.GateOpen now → s.Selects r cursor last →
    last.toNat < s.cfg.size r.space → s.env.reads = [] →
    cursor.toNat + s.cfg.commitBudget ≤ last.toNat →
    ∃ t c, exec (.service now) s = .next t ∧ t.commit = .committing r c last ∧
      c.toNat = cursor.toNat + s.cfg.commitBudget ∧ SameTracker s t ∧
      (∀ i, cursor.toNat ≤ i → i < cursor.toNat + s.cfg.commitBudget →
        t.peek .store (s.cfg.base r + i) = s.peek r.space i) ∧
      (∀ a, a < s.cfg.base r + cursor.toNat ∨ s.cfg.base r + cursor.toNat + s.cfg.commitBudget ≤ a →
        t.peek .store a = s.peek .store a) ∧
      t.trace = (s.commitShown r cursor.toNat s.cfg.commitBudget).reverse ++ s.trace ∧ ServiceOnly s t

/-- R215, R226 (2), R38: whatever the store answers, one service call issues at most COMMIT_BUDGET reads and at most
COMMIT_BUDGET writes and shows nothing else; it never changes the image, the registers or `LAST_BUS`. -/
def Obligations.ServiceDoesBoundedWork : Prop :=
  ∀ (s t : State) (now : Nat), exec (.service now) s = .next t →
    ServiceOnly s t ∧
    ∃ new, t.trace = new ++ s.trace ∧ storeReads new ≤ s.cfg.commitBudget ∧ storeWrites new ≤ s.cfg.commitBudget ∧
      new.length = storeReads new + storeWrites new

/-- R311: a byte outside the rest of the range being committed, different in image and store, still differs when that
commit completes, and no dirty flag of its region is set any more: the mark is lost. -/
def Obligations.MarkOutsideTheLatchedRangeIsLost : Prop :=
  ∀ (s : State) (now : Nat) (r : Region) (cursor : Cursor) (last : Word16) (i : Nat), s.Inv → s.constructed = true →
    now < s.cfg.timeModulus → s.GateOpen now → s.commit = .committing r cursor last →
    last.toNat - cursor.toNat + 1 ≤ s.cfg.commitBudget → i < s.cfg.size r.space →
    (i < cursor.toNat ∨ last.toNat < i) → s.Unsaved r i →
    ∃ t, exec (.service now) s = .next t ∧ (t.dirty r).flag = false ∧ t.commit = .idle ∧ t.Unsaved r i

/-- R226 (3), (4), R225 (h): with no other event between them, as many service calls as the range needs at COMMIT_BUDGET
bytes each, at any times at which the bus is idle, leave the store equal to the image over the whole selected range, every
other store byte as it was, the flag clear, COMMIT idle and the events after them pending. -/
def Obligations.ServiceCallsCompleteTheRange : Prop :=
  ∀ (s : State) (times : List Nat) (rest : List Event) (r : Region) (cursor : Cursor) (last : Word16), s.Ready →
    (∀ now ∈ times, now < s.cfg.timeModulus ∧ s.GateOpen now) → s.lastBus < s.cfg.timeModulus →
    s.Selects r cursor last → cursor.toNat ≤ last.toNat → last.toNat < s.cfg.size r.space → s.env.reads = [] →
    times.length = (last.toNat - cursor.toNat + 1 + s.cfg.commitBudget - 1) / s.cfg.commitBudget →
    s.env.events = times.map .service ++ rest →
    ∃ t, Host.Core.run Sys2Proof.core times.length s = .next t ∧ t.commit = .idle ∧ (t.dirty r).flag = false ∧
      (∀ i, cursor.toNat ≤ i → i ≤ last.toNat → t.peek .store (s.cfg.base r + i) = s.peek r.space i) ∧
      (∀ a, a < s.cfg.base r + cursor.toNat ∨ s.cfg.base r + last.toNat < a → t.peek .store a = s.peek .store a) ∧
      SameImage s t ∧ t.env.events = rest

/-! ## CONSTRUCT, FACTORY_RESET and their parts -/

/-- R290: without persistence CONSTRUCT copies the templates into the image, touches no store, clears both trackers,
leaves COMMIT idle and `LAST_BUS` at `now`. -/
def Obligations.ConstructWithoutPersistence : Prop :=
  ∀ (s : State) (now : Nat), s.cfg.wf = true → s.constructed = false → s.cfg.persistEn = false →
    now < s.cfg.timeModulus →
    ∃ t, exec (.construct now) s = .next t ∧ t.constructed = true ∧ t.cfg = s.cfg ∧
      (∀ r i, i < s.cfg.size (Region.space r) → (s.cfg.template r)[i]? = some (t.peek r.space i)) ∧
      SameStore s t ∧ t.trace = s.trace ∧ (∀ r, t.dirty r = ⟨false, 0xFFFF, 0x0000⟩) ∧ t.commit = .idle ∧
      t.lastBus = now ∧ SameRegisters s t ∧ t.env = s.env

/-- R290, R291, R292, R295 (a): where every sampled byte is answered 0xFF, CONSTRUCT writes both templates into the store,
every byte, data then status, in ascending order, whatever the store held, and loads the image from the store: on a store
that does not diverge the templates, and on one that does what each of those reads answers. Which read of a diverging
store gets which answer is the model's choice (log 16). -/
def Obligations.ConstructOnABlankStore : Prop :=
  ∀ (s : State) (now : Nat), s.cfg.wf = true → s.constructed = false → s.cfg.persistEn = true →
    now < s.cfg.timeModulus →
    (∀ j < 2 * s.cfg.blankSample, s.answers j (s.peek .store (sampleAddress s.cfg j)) = 0xFF) →
    ∃ t, exec (.construct now) s = .next t ∧ t.constructed = true ∧ t.cfg = s.cfg ∧
      (∀ r i, i < s.cfg.size (Region.space r) → (s.cfg.template r)[i]? = some (t.peek .store (s.cfg.base r + i)) ∧
        t.peek r.space i =
          s.answers (2 * s.cfg.blankSample + loadsBefore s.cfg r + i) (t.peek .store (s.cfg.base r + i))) ∧
      (s.env.reads = [] →
        ∀ r i, i < s.cfg.size (Region.space r) → (s.cfg.template r)[i]? = some (t.peek r.space i)) ∧
      (∃ sampled, storeWrites sampled = 0 ∧ t.trace = (factoryShown s.cfg).reverse ++ sampled ++ s.trace) ∧
      (∀ r, t.dirty r = ⟨false, 0xFFFF, 0x0000⟩) ∧ t.commit = .idle ∧ t.lastBus = now ∧ SameRegisters s t ∧
      t.env = { s.env with reads := s.env.reads.drop (2 * s.cfg.blankSample + (s.cfg.dataSize + s.cfg.statusSize)) }

/-- R290, R291, R294, R295 (b), (d): where the sampled bytes are answered 0xFF up to one that is not, CONSTRUCT loads the
image from the store, byte by byte what each read answers, which is the store's byte on a store that does not diverge, and
writes nothing to the store. Which read of a diverging store gets which answer is the model's choice (log 16). -/
def Obligations.ConstructLoadsASeededStore : Prop :=
  ∀ (s : State) (now k : Nat), s.cfg.wf = true → s.constructed = false → s.cfg.persistEn = true →
    now < s.cfg.timeModulus → k < 2 * s.cfg.blankSample →
    (∀ j < k, s.answers j (s.peek .store (sampleAddress s.cfg j)) = 0xFF) →
    s.answers k (s.peek .store (sampleAddress s.cfg k)) ≠ 0xFF →
    ∃ t, exec (.construct now) s = .next t ∧ t.constructed = true ∧ t.cfg = s.cfg ∧
      (∀ r i, i < s.cfg.size (Region.space r) → t.peek r.space i =
        s.answers (k + 1 + loadsBefore s.cfg r + i) (s.peek .store (s.cfg.base r + i))) ∧
      (s.env.reads = [] →
        ∀ r i, i < s.cfg.size (Region.space r) → t.peek r.space i = s.peek .store (s.cfg.base r + i)) ∧
      SameStore s t ∧ (∃ sampled, storeWrites sampled = 0 ∧ t.trace = (loadShown s.cfg).reverse ++ sampled ++ s.trace) ∧
      (∀ r, t.dirty r = ⟨false, 0xFFFF, 0x0000⟩) ∧ t.commit = .idle ∧ t.lastBus = now ∧ SameRegisters s t ∧
      t.env = { s.env with reads := s.env.reads.drop (k + 1 + (s.cfg.dataSize + s.cfg.statusSize)) }

/-- R292, R293, R40: with persistence FACTORY_RESET_BODY writes both templates into the store, every byte, data then
status, in ascending order, whatever the store held, and then loads the image from the store: on a store that does not
diverge (log 16) the templates, and on one that does what each read answers. Without persistence it puts the templates into
the image and touches no store. FACTORY_RESET also clears both trackers and abandons any commit; neither changes `LAST_BUS`
or the registers. -/
def Obligations.FactoryResetRestoresTheTemplates : Prop :=
  ∀ (s : State) (i : Instr), s.Ready → (i = .factoryReset ∨ i = .factoryResetBody) →
    ∃ t, exec i s = .next t ∧
      (s.cfg.persistEn = true →
        (∀ r a, a < s.cfg.size (Region.space r) → (s.cfg.template r)[a]? = some (t.peek .store (s.cfg.base r + a)) ∧
          t.peek r.space a = s.answers (loadsBefore s.cfg r + a) (t.peek .store (s.cfg.base r + a))) ∧
        t.trace = (factoryShown s.cfg).reverse ++ s.trace ∧
        t.env = { s.env with reads := s.env.reads.drop (s.cfg.dataSize + s.cfg.statusSize) }) ∧
      (s.cfg.persistEn = false → SameStore s t ∧ t.trace = s.trace ∧ t.env = s.env) ∧
      (s.cfg.persistEn = false ∨ s.env.reads = [] →
        ∀ r a, a < s.cfg.size (Region.space r) → (s.cfg.template r)[a]? = some (t.peek r.space a)) ∧
      (i = .factoryReset → (∀ r, t.dirty r = ⟨false, 0xFFFF, 0x0000⟩) ∧ t.commit = .idle) ∧
      (i = .factoryResetBody → SameTracker s t ∧ t.commit = s.commit) ∧
      t.lastBus = s.lastBus ∧ SameRegisters s t ∧ SameConfig s t ∧ t.result = s.result

/-- R294, U9: LOAD_STORE reads every byte of both store regions, data then status, in ascending order, and puts what each
read answers into the image, which is the store's byte on a store that does not diverge (log 16); it changes nothing
else. -/
def Obligations.LoadStoreCopiesBothRegions : Prop :=
  ∀ s : State, s.cfg.wf = true → s.cfg.persistEn = true →
    ∃ t, exec .loadStore s = .next t ∧
      (∀ r i, i < s.cfg.size (Region.space r) →
        t.peek r.space i = s.answers (loadsBefore s.cfg r + i) (s.peek .store (s.cfg.base r + i))) ∧
      (s.env.reads = [] →
        ∀ r i, i < s.cfg.size (Region.space r) → t.peek r.space i = s.peek .store (s.cfg.base r + i)) ∧
      t.trace = (loadShown s.cfg).reverse ++ s.trace ∧
      SameStore s t ∧ SameTracker s t ∧ t.commit = s.commit ∧ SameRegisters s t ∧ SameConfig s t ∧
      t.lastBus = s.lastBus ∧ t.env = { s.env with reads := s.env.reads.drop (s.cfg.dataSize + s.cfg.statusSize) } ∧
      t.result = s.result

/-- R291, U9: BLANK_CHECK answers true exactly when its 2 × BLANK_SAMPLE reads are all answered 0xFF, which on a store that
does not diverge (log 16) says that the first BLANK_SAMPLE bytes of both store regions are; it reads no more than these and
writes no byte. -/
def Obligations.BlankCheckSamplesBothRegions : Prop :=
  ∀ s : State, s.cfg.wf = true → s.cfg.persistEn = true →
    ∃ t b, exec .blankCheck s = .next t ∧ t.result = .blank b ∧
      (b = true ↔ ∀ j < 2 * s.cfg.blankSample, s.answers j (s.peek .store (sampleAddress s.cfg j)) = 0xFF) ∧
      (s.env.reads = [] → (b = true ↔ ∀ r i, i < s.cfg.blankSample → s.peek .store (s.cfg.base r + i) = 0xFF)) ∧
      (∃ sampled, t.trace = sampled ++ s.trace ∧ storeWrites sampled = 0 ∧ sampled.length = storeReads sampled ∧
        storeReads sampled ≤ 2 * s.cfg.blankSample ∧
        t.env = { s.env with reads := s.env.reads.drop (storeReads sampled) }) ∧
      SameImage s t ∧ SameStore s t ∧ SameTracker s t ∧ t.commit = s.commit ∧ SameRegisters s t ∧ SameConfig s t ∧
      t.lastBus = s.lastBus

/-! ## What has no meaning, reset, and the whole machine -/

/-- R8, U1: every operation is refused under an ill-formed configuration. -/
def Obligations.IllFormedConfigurationIsRefused : Prop :=
  ∀ (i : Instr) (s : State), s.cfg.wf = false → exec i s = .refused .illFormedConfiguration

/-- R117, R39, U2: no entry point but CONSTRUCT before CONSTRUCT, no second CONSTRUCT, and no entry point inside a
transaction. -/
def Obligations.EntryPointDutiesAreChecked : Prop :=
  ∀ (s : State) (i : Instr) (now : Nat), s.cfg.wf = true → (i = .transact ∨ i = .service now ∨ i = .factoryReset) →
    (s.constructed = false → exec i s = .refused .notConstructed) ∧
    (s.constructed = true → s.phase ≠ .done → exec i s = .refused .overlappingEntryPoint) ∧
    (s.constructed = true → exec (.construct now) s = .refused .alreadyConstructed)

/-- R39, R295 (a): State.reset is, but for what the run has shown, the state CONSTRUCT(0) leaves on a store of 0xFF
bytes under configuration T; the configuration and the time 0 are the model's choice (log 1, log 20), the zero
registers too (log 10). -/
def Obligations.ResetIsTheStateAfterConstruct : Prop :=
  ∃ t, exec (.construct 0) (State.powerUp .configT
      ((List.range 40).foldl (fun m a => Memory.write (factoryByte .configT .store a) m a 0xFF) [])) = .next t ∧
    { t with trace := [] } = State.reset

/-- R206, R32, R33, R60: State.reset meets the invariant. -/
def Obligations.ResetMeetsTheInvariant : Prop := State.reset.Inv

/-- R206, R32, R33, R60, R26: every step from a state that meets the invariant leads to one that meets it: canonical
memories, valid trackers, a valid commit state, a `LAST_BUS` of TIME_BITS bits, no transaction left running. -/
def Obligations.StepKeepsTheInvariant : Prop :=
  ∀ s t : State, s.Inv → step s = .next t → t.Inv

/-- R34: no operation writes a configuration field, and only CONSTRUCT ends the time before construction. -/
def Obligations.ConfigurationIsNeverWritten : Prop :=
  ∀ (i : Instr) (s t : State), exec i s = .next t →
    t.cfg = s.cfg ∧ ((∀ now, i ≠ .construct now) → t.constructed = s.constructed)

/-- R6: no operation but CONSTRUCT, FACTORY_RESET and the loads they are made of sets a bit of the image. -/
def Obligations.OnlyResetSetsBits : Prop :=
  ∀ (i : Instr) (s t : State), (∀ now, i ≠ .construct now) → i ≠ .factoryReset → i ≠ .factoryResetBody →
    i ≠ .loadStore → exec i s = .next t → OnlyCleared s t

/-- R22: over any sequence of TRANSACT and SERVICE events every byte of the image ends as a bitwise subset of what it
was. -/
def Obligations.BitsStayClearedOverRuns : Prop :=
  ∀ (n : Nat) (s t : State), (∀ e ∈ s.env.events, e = .transact ∨ ∃ now, e = .service now) →
    Host.Core.run Sys2Proof.core n s = .next t → OnlyCleared s t

/-- R28 with R311's limit, R226: on a store that does not diverge, the bytes the store lacks stay covered by the tracker
and the commit in progress over every SERVICE step, and over every TRANSACT step taken while no commit is in
progress. -/
def Obligations.UnsavedBytesStayCovered : Prop :=
  ∀ (s t : State) (e : Event) (rest : List Event), s.Inv → s.Covered → s.env.reads = [] →
    s.env.events = e :: rest → (e = .transact ∧ s.commit = .idle ∨ ∃ now, e = .service now) → step s = .next t →
    t.Covered
end

