-- ==== Sys2Proof/Laws/Config.lean ====
section
/-! SUPPORT. What a well-formed configuration gives, as propositions, and the bounds that follow from it. -/

namespace Sys2Proof

/-- R8's constraints as propositions. -/
structure Config.Facts (cfg : Config) : Prop where
  pageBits_le : cfg.pageBits ≤ 16
  total_mod : cfg.totalSpace % cfg.pageSize = 0
  page_le_total : cfg.pageSize ≤ cfg.totalSpace
  total_le : cfg.totalSpace ≤ 65536
  pages_lt : ∀ e ∈ cfg.pageMap, e.1 < cfg.logicalPages
  pages_nodup : (cfg.pageMap.map Prod.fst).Nodup
  slots_lt : ∀ e ∈ cfg.pageMap, e.2 < cfg.slots
  slots_nodup : (cfg.pageMap.map Prod.snd).Nodup
  slots_pos : 1 ≤ cfg.slots
  status_mod : cfg.statusSize % 8 = 0
  status_ge : 8 ≤ cfg.statusSize
  status_le : cfg.statusSize ≤ 65536
  template_data : cfg.templateData.length = cfg.dataSize
  template_status : cfg.templateStatus.length = cfg.statusSize
  threshold_lt : cfg.idleThreshold < cfg.timeModulus
  budget_pos : 1 ≤ cfg.commitBudget
  sample_pos : 1 ≤ cfg.blankSample
  sample_data : cfg.blankSample ≤ cfg.dataSize
  sample_status : cfg.blankSample ≤ cfg.statusSize
  data_inside : cfg.storeDataBase + cfg.dataSize ≤ cfg.storeSize
  status_inside : cfg.storeStatusBase + cfg.statusSize ≤ cfg.storeSize
  disjoint : cfg.storeDataBase + cfg.dataSize ≤ cfg.storeStatusBase ∨
    cfg.storeStatusBase + cfg.statusSize ≤ cfg.storeDataBase
  codes_nodup : cfg.codes.Nodup
  codes_ne : ∀ c ∈ cfg.codes, c ≠ 0x33
  timeBits_pos : 1 ≤ cfg.timeBits

theorem Config.facts {cfg : Config} (h : cfg.wf = true) : cfg.Facts := by
  simp only [Config.wf, Bool.and_eq_true, Config.pageBitsOk, Config.totalSpaceOk, Config.pagesInRange,
    Config.pagesDistinct, Config.slotsExact, Config.slotsNonempty, Config.statusSizeOk, Config.templateDataOk,
    Config.templateStatusOk, Config.idleThresholdOk, Config.commitBudgetOk, Config.blankSampleOk,
    Config.storeRegionsInside, Config.storeRegionsDisjoint, Config.codesDistinct, Config.codesNot33,
    Config.timeBitsOk, Bool.or_eq_true, decide_eq_true_eq, List.all_eq_true] at h
  obtain ⟨⟨⟨⟨⟨⟨⟨⟨⟨⟨⟨⟨⟨⟨⟨⟨h1, ⟨h2, h3⟩, h4⟩, h5⟩, h6⟩, h7, h8⟩, h9⟩, ⟨h10, h11⟩, h12⟩, h13⟩, h14⟩, h15⟩, h16⟩, ⟨h17, h18⟩,
    h19⟩, h20, h21⟩, h22⟩, h23⟩, h24⟩, h25⟩ := h
  exact ⟨h1, h2, h3, h4, h5, h6, h7, h8, h9, h10, h11, h12, h13, h14, h15, h16, h17, h18, h19, h20, h21, h22, h23,
    h24, h25⟩

theorem Config.pageSize_pos (cfg : Config) : 0 < cfg.pageSize := Nat.two_pow_pos _

theorem Config.timeModulus_pos (cfg : Config) : 0 < cfg.timeModulus := Nat.two_pow_pos _

/-- The four codes differ from one another. -/
theorem Config.Facts.codes_ne_each {cfg : Config} (h : cfg.Facts) :
    cfg.cmdReadMemory ≠ cfg.cmdReadStatus ∧ cfg.cmdReadMemory ≠ cfg.cmdWriteMemory ∧
    cfg.cmdReadMemory ≠ cfg.cmdWriteStatus ∧ cfg.cmdReadStatus ≠ cfg.cmdWriteMemory ∧
    cfg.cmdReadStatus ≠ cfg.cmdWriteStatus ∧ cfg.cmdWriteMemory ≠ cfg.cmdWriteStatus := by
  simpa [Config.codes, and_assoc] using h.codes_nodup

/-- Distinct numbers below `n` are at most `n` many. -/
theorem length_le_of_nodup_lt {l : List Nat} {n : Nat} (h : l.Nodup) (hlt : ∀ x ∈ l, x < n) : l.length ≤ n := by
  have := (List.subperm_of_subset h fun x hx => List.mem_range.2 (hlt x hx)).length_le
  simpa using this

/-- N_SLOTS ≤ N_LPAGES (R8). -/
theorem Config.Facts.slots_le {cfg : Config} (h : cfg.Facts) : cfg.slots ≤ cfg.logicalPages := by
  have := length_le_of_nodup_lt h.pages_nodup (n := cfg.logicalPages) fun x hx => by
    obtain ⟨e, he, rfl⟩ := List.mem_map.1 hx
    exact h.pages_lt e he
  simpa [Config.slots] using this

/-- DATA_SIZE ≤ TOTAL_SPACE ≤ 65536. -/
theorem Config.Facts.data_le {cfg : Config} (h : cfg.Facts) : cfg.dataSize ≤ cfg.totalSpace :=
  (Nat.mul_le_mul_right _ h.slots_le).trans (Nat.div_mul_le_self _ _)

theorem Config.Facts.data_le_65536 {cfg : Config} (h : cfg.Facts) : cfg.dataSize ≤ 65536 := h.data_le.trans h.total_le

/-- Every region fits 16-bit indices (R9). -/
theorem Config.Facts.region_le {cfg : Config} (h : cfg.Facts) (r : Region) : cfg.size r.space ≤ 65536 := by
  cases r
  · exact h.data_le_65536
  · exact h.status_le

/-- A region lies inside the store (R36, R63). -/
theorem Config.Facts.base_lt {cfg : Config} (h : cfg.Facts) (r : Region) {i : Nat} (hi : i < cfg.size r.space) :
    cfg.base r + i < cfg.size .store := by
  cases r
  · have := h.data_inside; simp only [Config.size, Region.space, Config.base] at *; omega
  · have := h.status_inside; simp only [Config.size, Region.space, Config.base] at *; omega

/-- The two regions of the store share no address (R8). -/
theorem Config.Facts.base_ne {cfg : Config} (h : cfg.Facts) {r q : Region} (hrq : r ≠ q) {i j : Nat}
    (hi : i < cfg.size r.space) (hj : j < cfg.size q.space) : cfg.base r + i ≠ cfg.base q + j := by
  have := h.disjoint
  cases r <;> cases q <;> simp only [Config.size, Region.space, Config.base] at * <;> first | omega | exact absurd rfl hrq

/-- A region's template fills it (R8). -/
theorem Config.Facts.template_length {cfg : Config} (h : cfg.Facts) (r : Region) :
    (cfg.template r).length = cfg.size r.space := by
  cases r
  · exact h.template_data
  · exact h.template_status

end Sys2Proof
end

