-- ==== Sys2Proof/Laws/State.lean ====
section
/-! SUPPORT. One lemma per field of State per update, true by computation; the accessors `mem`, `dirty` and `peek` are
treated as fields. -/

namespace Sys2Proof.Machine

variable (s : State)

/-! ### setConstructed -/

@[simp] theorem State.setConstructed_cfg : (s.setConstructed).cfg = s.cfg := rfl
@[simp] theorem State.setConstructed_constructed : (s.setConstructed).constructed = true := rfl
@[simp] theorem State.setConstructed_phase : (s.setConstructed).phase = s.phase := rfl
@[simp] theorem State.setConstructed_cmd : (s.setConstructed).cmd = s.cmd := rfl
@[simp] theorem State.setConstructed_ta : (s.setConstructed).ta = s.ta := rfl
@[simp] theorem State.setConstructed_crc : (s.setConstructed).crc = s.crc := rfl
@[simp] theorem State.setConstructed_data : (s.setConstructed).data = s.data := rfl
@[simp] theorem State.setConstructed_status : (s.setConstructed).status = s.status := rfl
@[simp] theorem State.setConstructed_store : (s.setConstructed).store = s.store := rfl
@[simp] theorem State.setConstructed_dirtyData : (s.setConstructed).dirtyData = s.dirtyData := rfl
@[simp] theorem State.setConstructed_dirtyStatus : (s.setConstructed).dirtyStatus = s.dirtyStatus := rfl
@[simp] theorem State.setConstructed_commit : (s.setConstructed).commit = s.commit := rfl
@[simp] theorem State.setConstructed_lastBus : (s.setConstructed).lastBus = s.lastBus := rfl
@[simp] theorem State.setConstructed_env : (s.setConstructed).env = s.env := rfl
@[simp] theorem State.setConstructed_trace : (s.setConstructed).trace = s.trace := rfl
@[simp] theorem State.setConstructed_result : (s.setConstructed).result = s.result := rfl
@[simp] theorem State.setConstructed_freeCount : (s.setConstructed).freeCount = s.freeCount := rfl
@[simp] theorem State.setConstructed_mem (sp : Space) : (s.setConstructed).mem sp = s.mem sp := by cases sp <;> rfl
@[simp] theorem State.setConstructed_dirty (r : Region) : (s.setConstructed).dirty r = s.dirty r := by cases r <;> rfl
@[simp] theorem State.setConstructed_peek (sp : Space) (y : Nat) : (s.setConstructed).peek sp y = s.peek sp y := by cases sp <;> rfl

/-! ### setPhase -/

@[simp] theorem State.setPhase_cfg (p : Phase) : (s.setPhase p).cfg = s.cfg := rfl
@[simp] theorem State.setPhase_constructed (p : Phase) : (s.setPhase p).constructed = s.constructed := rfl
@[simp] theorem State.setPhase_phase (p : Phase) : (s.setPhase p).phase = p := rfl
@[simp] theorem State.setPhase_cmd (p : Phase) : (s.setPhase p).cmd = s.cmd := rfl
@[simp] theorem State.setPhase_ta (p : Phase) : (s.setPhase p).ta = s.ta := rfl
@[simp] theorem State.setPhase_crc (p : Phase) : (s.setPhase p).crc = s.crc := rfl
@[simp] theorem State.setPhase_data (p : Phase) : (s.setPhase p).data = s.data := rfl
@[simp] theorem State.setPhase_status (p : Phase) : (s.setPhase p).status = s.status := rfl
@[simp] theorem State.setPhase_store (p : Phase) : (s.setPhase p).store = s.store := rfl
@[simp] theorem State.setPhase_dirtyData (p : Phase) : (s.setPhase p).dirtyData = s.dirtyData := rfl
@[simp] theorem State.setPhase_dirtyStatus (p : Phase) : (s.setPhase p).dirtyStatus = s.dirtyStatus := rfl
@[simp] theorem State.setPhase_commit (p : Phase) : (s.setPhase p).commit = s.commit := rfl
@[simp] theorem State.setPhase_lastBus (p : Phase) : (s.setPhase p).lastBus = s.lastBus := rfl
@[simp] theorem State.setPhase_env (p : Phase) : (s.setPhase p).env = s.env := rfl
@[simp] theorem State.setPhase_trace (p : Phase) : (s.setPhase p).trace = s.trace := rfl
@[simp] theorem State.setPhase_result (p : Phase) : (s.setPhase p).result = s.result := rfl
@[simp] theorem State.setPhase_freeCount (p : Phase) : (s.setPhase p).freeCount = s.freeCount := rfl
@[simp] theorem State.setPhase_mem (p : Phase) (sp : Space) : (s.setPhase p).mem sp = s.mem sp := by cases sp <;> rfl
@[simp] theorem State.setPhase_dirty (p : Phase) (r : Region) : (s.setPhase p).dirty r = s.dirty r := by cases r <;> rfl
@[simp] theorem State.setPhase_peek (p : Phase) (sp : Space) (y : Nat) : (s.setPhase p).peek sp y = s.peek sp y := by cases sp <;> rfl

/-! ### setCmd -/

@[simp] theorem State.setCmd_cfg (c : Byte) : (s.setCmd c).cfg = s.cfg := rfl
@[simp] theorem State.setCmd_constructed (c : Byte) : (s.setCmd c).constructed = s.constructed := rfl
@[simp] theorem State.setCmd_phase (c : Byte) : (s.setCmd c).phase = s.phase := rfl
@[simp] theorem State.setCmd_cmd (c : Byte) : (s.setCmd c).cmd = c := rfl
@[simp] theorem State.setCmd_ta (c : Byte) : (s.setCmd c).ta = s.ta := rfl
@[simp] theorem State.setCmd_crc (c : Byte) : (s.setCmd c).crc = s.crc := rfl
@[simp] theorem State.setCmd_data (c : Byte) : (s.setCmd c).data = s.data := rfl
@[simp] theorem State.setCmd_status (c : Byte) : (s.setCmd c).status = s.status := rfl
@[simp] theorem State.setCmd_store (c : Byte) : (s.setCmd c).store = s.store := rfl
@[simp] theorem State.setCmd_dirtyData (c : Byte) : (s.setCmd c).dirtyData = s.dirtyData := rfl
@[simp] theorem State.setCmd_dirtyStatus (c : Byte) : (s.setCmd c).dirtyStatus = s.dirtyStatus := rfl
@[simp] theorem State.setCmd_commit (c : Byte) : (s.setCmd c).commit = s.commit := rfl
@[simp] theorem State.setCmd_lastBus (c : Byte) : (s.setCmd c).lastBus = s.lastBus := rfl
@[simp] theorem State.setCmd_env (c : Byte) : (s.setCmd c).env = s.env := rfl
@[simp] theorem State.setCmd_trace (c : Byte) : (s.setCmd c).trace = s.trace := rfl
@[simp] theorem State.setCmd_result (c : Byte) : (s.setCmd c).result = s.result := rfl
@[simp] theorem State.setCmd_freeCount (c : Byte) : (s.setCmd c).freeCount = s.freeCount := rfl
@[simp] theorem State.setCmd_mem (c : Byte) (sp : Space) : (s.setCmd c).mem sp = s.mem sp := by cases sp <;> rfl
@[simp] theorem State.setCmd_dirty (c : Byte) (r : Region) : (s.setCmd c).dirty r = s.dirty r := by cases r <;> rfl
@[simp] theorem State.setCmd_peek (c : Byte) (sp : Space) (y : Nat) : (s.setCmd c).peek sp y = s.peek sp y := by cases sp <;> rfl

/-! ### setTa -/

@[simp] theorem State.setTa_cfg (a : Word16) : (s.setTa a).cfg = s.cfg := rfl
@[simp] theorem State.setTa_constructed (a : Word16) : (s.setTa a).constructed = s.constructed := rfl
@[simp] theorem State.setTa_phase (a : Word16) : (s.setTa a).phase = s.phase := rfl
@[simp] theorem State.setTa_cmd (a : Word16) : (s.setTa a).cmd = s.cmd := rfl
@[simp] theorem State.setTa_ta (a : Word16) : (s.setTa a).ta = a := rfl
@[simp] theorem State.setTa_crc (a : Word16) : (s.setTa a).crc = s.crc := rfl
@[simp] theorem State.setTa_data (a : Word16) : (s.setTa a).data = s.data := rfl
@[simp] theorem State.setTa_status (a : Word16) : (s.setTa a).status = s.status := rfl
@[simp] theorem State.setTa_store (a : Word16) : (s.setTa a).store = s.store := rfl
@[simp] theorem State.setTa_dirtyData (a : Word16) : (s.setTa a).dirtyData = s.dirtyData := rfl
@[simp] theorem State.setTa_dirtyStatus (a : Word16) : (s.setTa a).dirtyStatus = s.dirtyStatus := rfl
@[simp] theorem State.setTa_commit (a : Word16) : (s.setTa a).commit = s.commit := rfl
@[simp] theorem State.setTa_lastBus (a : Word16) : (s.setTa a).lastBus = s.lastBus := rfl
@[simp] theorem State.setTa_env (a : Word16) : (s.setTa a).env = s.env := rfl
@[simp] theorem State.setTa_trace (a : Word16) : (s.setTa a).trace = s.trace := rfl
@[simp] theorem State.setTa_result (a : Word16) : (s.setTa a).result = s.result := rfl
@[simp] theorem State.setTa_freeCount (a : Word16) : (s.setTa a).freeCount = s.freeCount := rfl
@[simp] theorem State.setTa_mem (a : Word16) (sp : Space) : (s.setTa a).mem sp = s.mem sp := by cases sp <;> rfl
@[simp] theorem State.setTa_dirty (a : Word16) (r : Region) : (s.setTa a).dirty r = s.dirty r := by cases r <;> rfl
@[simp] theorem State.setTa_peek (a : Word16) (sp : Space) (y : Nat) : (s.setTa a).peek sp y = s.peek sp y := by cases sp <;> rfl

/-! ### setCrc -/

@[simp] theorem State.setCrc_cfg (c : Word16) : (s.setCrc c).cfg = s.cfg := rfl
@[simp] theorem State.setCrc_constructed (c : Word16) : (s.setCrc c).constructed = s.constructed := rfl
@[simp] theorem State.setCrc_phase (c : Word16) : (s.setCrc c).phase = s.phase := rfl
@[simp] theorem State.setCrc_cmd (c : Word16) : (s.setCrc c).cmd = s.cmd := rfl
@[simp] theorem State.setCrc_ta (c : Word16) : (s.setCrc c).ta = s.ta := rfl
@[simp] theorem State.setCrc_crc (c : Word16) : (s.setCrc c).crc = c := rfl
@[simp] theorem State.setCrc_data (c : Word16) : (s.setCrc c).data = s.data := rfl
@[simp] theorem State.setCrc_status (c : Word16) : (s.setCrc c).status = s.status := rfl
@[simp] theorem State.setCrc_store (c : Word16) : (s.setCrc c).store = s.store := rfl
@[simp] theorem State.setCrc_dirtyData (c : Word16) : (s.setCrc c).dirtyData = s.dirtyData := rfl
@[simp] theorem State.setCrc_dirtyStatus (c : Word16) : (s.setCrc c).dirtyStatus = s.dirtyStatus := rfl
@[simp] theorem State.setCrc_commit (c : Word16) : (s.setCrc c).commit = s.commit := rfl
@[simp] theorem State.setCrc_lastBus (c : Word16) : (s.setCrc c).lastBus = s.lastBus := rfl
@[simp] theorem State.setCrc_env (c : Word16) : (s.setCrc c).env = s.env := rfl
@[simp] theorem State.setCrc_trace (c : Word16) : (s.setCrc c).trace = s.trace := rfl
@[simp] theorem State.setCrc_result (c : Word16) : (s.setCrc c).result = s.result := rfl
@[simp] theorem State.setCrc_freeCount (c : Word16) : (s.setCrc c).freeCount = s.freeCount := rfl
@[simp] theorem State.setCrc_mem (c : Word16) (sp : Space) : (s.setCrc c).mem sp = s.mem sp := by cases sp <;> rfl
@[simp] theorem State.setCrc_dirty (c : Word16) (r : Region) : (s.setCrc c).dirty r = s.dirty r := by cases r <;> rfl
@[simp] theorem State.setCrc_peek (c : Word16) (sp : Space) (y : Nat) : (s.setCrc c).peek sp y = s.peek sp y := by cases sp <;> rfl

/-! ### setCommit -/

@[simp] theorem State.setCommit_cfg (c : Commit) : (s.setCommit c).cfg = s.cfg := rfl
@[simp] theorem State.setCommit_constructed (c : Commit) : (s.setCommit c).constructed = s.constructed := rfl
@[simp] theorem State.setCommit_phase (c : Commit) : (s.setCommit c).phase = s.phase := rfl
@[simp] theorem State.setCommit_cmd (c : Commit) : (s.setCommit c).cmd = s.cmd := rfl
@[simp] theorem State.setCommit_ta (c : Commit) : (s.setCommit c).ta = s.ta := rfl
@[simp] theorem State.setCommit_crc (c : Commit) : (s.setCommit c).crc = s.crc := rfl
@[simp] theorem State.setCommit_data (c : Commit) : (s.setCommit c).data = s.data := rfl
@[simp] theorem State.setCommit_status (c : Commit) : (s.setCommit c).status = s.status := rfl
@[simp] theorem State.setCommit_store (c : Commit) : (s.setCommit c).store = s.store := rfl
@[simp] theorem State.setCommit_dirtyData (c : Commit) : (s.setCommit c).dirtyData = s.dirtyData := rfl
@[simp] theorem State.setCommit_dirtyStatus (c : Commit) : (s.setCommit c).dirtyStatus = s.dirtyStatus := rfl
@[simp] theorem State.setCommit_commit (c : Commit) : (s.setCommit c).commit = c := rfl
@[simp] theorem State.setCommit_lastBus (c : Commit) : (s.setCommit c).lastBus = s.lastBus := rfl
@[simp] theorem State.setCommit_env (c : Commit) : (s.setCommit c).env = s.env := rfl
@[simp] theorem State.setCommit_trace (c : Commit) : (s.setCommit c).trace = s.trace := rfl
@[simp] theorem State.setCommit_result (c : Commit) : (s.setCommit c).result = s.result := rfl
@[simp] theorem State.setCommit_freeCount (c : Commit) : (s.setCommit c).freeCount = s.freeCount := rfl
@[simp] theorem State.setCommit_mem (c : Commit) (sp : Space) : (s.setCommit c).mem sp = s.mem sp := by cases sp <;> rfl
@[simp] theorem State.setCommit_dirty (c : Commit) (r : Region) : (s.setCommit c).dirty r = s.dirty r := by cases r <;> rfl
@[simp] theorem State.setCommit_peek (c : Commit) (sp : Space) (y : Nat) : (s.setCommit c).peek sp y = s.peek sp y := by cases sp <;> rfl

/-! ### setLastBus -/

@[simp] theorem State.setLastBus_cfg (n : Nat) : (s.setLastBus n).cfg = s.cfg := rfl
@[simp] theorem State.setLastBus_constructed (n : Nat) : (s.setLastBus n).constructed = s.constructed := rfl
@[simp] theorem State.setLastBus_phase (n : Nat) : (s.setLastBus n).phase = s.phase := rfl
@[simp] theorem State.setLastBus_cmd (n : Nat) : (s.setLastBus n).cmd = s.cmd := rfl
@[simp] theorem State.setLastBus_ta (n : Nat) : (s.setLastBus n).ta = s.ta := rfl
@[simp] theorem State.setLastBus_crc (n : Nat) : (s.setLastBus n).crc = s.crc := rfl
@[simp] theorem State.setLastBus_data (n : Nat) : (s.setLastBus n).data = s.data := rfl
@[simp] theorem State.setLastBus_status (n : Nat) : (s.setLastBus n).status = s.status := rfl
@[simp] theorem State.setLastBus_store (n : Nat) : (s.setLastBus n).store = s.store := rfl
@[simp] theorem State.setLastBus_dirtyData (n : Nat) : (s.setLastBus n).dirtyData = s.dirtyData := rfl
@[simp] theorem State.setLastBus_dirtyStatus (n : Nat) : (s.setLastBus n).dirtyStatus = s.dirtyStatus := rfl
@[simp] theorem State.setLastBus_commit (n : Nat) : (s.setLastBus n).commit = s.commit := rfl
@[simp] theorem State.setLastBus_lastBus (n : Nat) : (s.setLastBus n).lastBus = n := rfl
@[simp] theorem State.setLastBus_env (n : Nat) : (s.setLastBus n).env = s.env := rfl
@[simp] theorem State.setLastBus_trace (n : Nat) : (s.setLastBus n).trace = s.trace := rfl
@[simp] theorem State.setLastBus_result (n : Nat) : (s.setLastBus n).result = s.result := rfl
@[simp] theorem State.setLastBus_freeCount (n : Nat) : (s.setLastBus n).freeCount = s.freeCount := rfl
@[simp] theorem State.setLastBus_mem (n : Nat) (sp : Space) : (s.setLastBus n).mem sp = s.mem sp := by cases sp <;> rfl
@[simp] theorem State.setLastBus_dirty (n : Nat) (r : Region) : (s.setLastBus n).dirty r = s.dirty r := by cases r <;> rfl
@[simp] theorem State.setLastBus_peek (n : Nat) (sp : Space) (y : Nat) : (s.setLastBus n).peek sp y = s.peek sp y := by cases sp <;> rfl

/-! ### setEnv -/

@[simp] theorem State.setEnv_cfg (e : Env) : (s.setEnv e).cfg = s.cfg := rfl
@[simp] theorem State.setEnv_constructed (e : Env) : (s.setEnv e).constructed = s.constructed := rfl
@[simp] theorem State.setEnv_phase (e : Env) : (s.setEnv e).phase = s.phase := rfl
@[simp] theorem State.setEnv_cmd (e : Env) : (s.setEnv e).cmd = s.cmd := rfl
@[simp] theorem State.setEnv_ta (e : Env) : (s.setEnv e).ta = s.ta := rfl
@[simp] theorem State.setEnv_crc (e : Env) : (s.setEnv e).crc = s.crc := rfl
@[simp] theorem State.setEnv_data (e : Env) : (s.setEnv e).data = s.data := rfl
@[simp] theorem State.setEnv_status (e : Env) : (s.setEnv e).status = s.status := rfl
@[simp] theorem State.setEnv_store (e : Env) : (s.setEnv e).store = s.store := rfl
@[simp] theorem State.setEnv_dirtyData (e : Env) : (s.setEnv e).dirtyData = s.dirtyData := rfl
@[simp] theorem State.setEnv_dirtyStatus (e : Env) : (s.setEnv e).dirtyStatus = s.dirtyStatus := rfl
@[simp] theorem State.setEnv_commit (e : Env) : (s.setEnv e).commit = s.commit := rfl
@[simp] theorem State.setEnv_lastBus (e : Env) : (s.setEnv e).lastBus = s.lastBus := rfl
@[simp] theorem State.setEnv_env (e : Env) : (s.setEnv e).env = e := rfl
@[simp] theorem State.setEnv_trace (e : Env) : (s.setEnv e).trace = s.trace := rfl
@[simp] theorem State.setEnv_result (e : Env) : (s.setEnv e).result = s.result := rfl
@[simp] theorem State.setEnv_freeCount (e : Env) : (s.setEnv e).freeCount = s.freeCount := rfl
@[simp] theorem State.setEnv_mem (e : Env) (sp : Space) : (s.setEnv e).mem sp = s.mem sp := by cases sp <;> rfl
@[simp] theorem State.setEnv_dirty (e : Env) (r : Region) : (s.setEnv e).dirty r = s.dirty r := by cases r <;> rfl
@[simp] theorem State.setEnv_peek (e : Env) (sp : Space) (y : Nat) : (s.setEnv e).peek sp y = s.peek sp y := by cases sp <;> rfl

/-! ### setResult -/

@[simp] theorem State.setResult_cfg (x : OpResult) : (s.setResult x).cfg = s.cfg := rfl
@[simp] theorem State.setResult_constructed (x : OpResult) : (s.setResult x).constructed = s.constructed := rfl
@[simp] theorem State.setResult_phase (x : OpResult) : (s.setResult x).phase = s.phase := rfl
@[simp] theorem State.setResult_cmd (x : OpResult) : (s.setResult x).cmd = s.cmd := rfl
@[simp] theorem State.setResult_ta (x : OpResult) : (s.setResult x).ta = s.ta := rfl
@[simp] theorem State.setResult_crc (x : OpResult) : (s.setResult x).crc = s.crc := rfl
@[simp] theorem State.setResult_data (x : OpResult) : (s.setResult x).data = s.data := rfl
@[simp] theorem State.setResult_status (x : OpResult) : (s.setResult x).status = s.status := rfl
@[simp] theorem State.setResult_store (x : OpResult) : (s.setResult x).store = s.store := rfl
@[simp] theorem State.setResult_dirtyData (x : OpResult) : (s.setResult x).dirtyData = s.dirtyData := rfl
@[simp] theorem State.setResult_dirtyStatus (x : OpResult) : (s.setResult x).dirtyStatus = s.dirtyStatus := rfl
@[simp] theorem State.setResult_commit (x : OpResult) : (s.setResult x).commit = s.commit := rfl
@[simp] theorem State.setResult_lastBus (x : OpResult) : (s.setResult x).lastBus = s.lastBus := rfl
@[simp] theorem State.setResult_env (x : OpResult) : (s.setResult x).env = s.env := rfl
@[simp] theorem State.setResult_trace (x : OpResult) : (s.setResult x).trace = s.trace := rfl
@[simp] theorem State.setResult_result (x : OpResult) : (s.setResult x).result = x := rfl
@[simp] theorem State.setResult_freeCount (x : OpResult) : (s.setResult x).freeCount = s.freeCount := rfl
@[simp] theorem State.setResult_mem (x : OpResult) (sp : Space) : (s.setResult x).mem sp = s.mem sp := by cases sp <;> rfl
@[simp] theorem State.setResult_dirty (x : OpResult) (r : Region) : (s.setResult x).dirty r = s.dirty r := by cases r <;> rfl
@[simp] theorem State.setResult_peek (x : OpResult) (sp : Space) (y : Nat) : (s.setResult x).peek sp y = s.peek sp y := by cases sp <;> rfl

/-! ### setFreeCount -/

@[simp] theorem State.setFreeCount_cfg (n : Nat) : (s.setFreeCount n).cfg = s.cfg := rfl
@[simp] theorem State.setFreeCount_constructed (n : Nat) : (s.setFreeCount n).constructed = s.constructed := rfl
@[simp] theorem State.setFreeCount_phase (n : Nat) : (s.setFreeCount n).phase = s.phase := rfl
@[simp] theorem State.setFreeCount_cmd (n : Nat) : (s.setFreeCount n).cmd = s.cmd := rfl
@[simp] theorem State.setFreeCount_ta (n : Nat) : (s.setFreeCount n).ta = s.ta := rfl
@[simp] theorem State.setFreeCount_crc (n : Nat) : (s.setFreeCount n).crc = s.crc := rfl
@[simp] theorem State.setFreeCount_data (n : Nat) : (s.setFreeCount n).data = s.data := rfl
@[simp] theorem State.setFreeCount_status (n : Nat) : (s.setFreeCount n).status = s.status := rfl
@[simp] theorem State.setFreeCount_store (n : Nat) : (s.setFreeCount n).store = s.store := rfl
@[simp] theorem State.setFreeCount_dirtyData (n : Nat) : (s.setFreeCount n).dirtyData = s.dirtyData := rfl
@[simp] theorem State.setFreeCount_dirtyStatus (n : Nat) : (s.setFreeCount n).dirtyStatus = s.dirtyStatus := rfl
@[simp] theorem State.setFreeCount_commit (n : Nat) : (s.setFreeCount n).commit = s.commit := rfl
@[simp] theorem State.setFreeCount_lastBus (n : Nat) : (s.setFreeCount n).lastBus = s.lastBus := rfl
@[simp] theorem State.setFreeCount_env (n : Nat) : (s.setFreeCount n).env = s.env := rfl
@[simp] theorem State.setFreeCount_trace (n : Nat) : (s.setFreeCount n).trace = s.trace := rfl
@[simp] theorem State.setFreeCount_result (n : Nat) : (s.setFreeCount n).result = s.result := rfl
@[simp] theorem State.setFreeCount_freeCount (n : Nat) : (s.setFreeCount n).freeCount = n := rfl
@[simp] theorem State.setFreeCount_mem (n : Nat) (sp : Space) : (s.setFreeCount n).mem sp = s.mem sp := by cases sp <;> rfl
@[simp] theorem State.setFreeCount_dirty (n : Nat) (r : Region) : (s.setFreeCount n).dirty r = s.dirty r := by cases r <;> rfl
@[simp] theorem State.setFreeCount_peek (n : Nat) (sp : Space) (y : Nat) : (s.setFreeCount n).peek sp y = s.peek sp y := by cases sp <;> rfl

/-! ### observe -/

@[simp] theorem State.observe_cfg (o : Shown) : (s.observe o).cfg = s.cfg := rfl
@[simp] theorem State.observe_constructed (o : Shown) : (s.observe o).constructed = s.constructed := rfl
@[simp] theorem State.observe_phase (o : Shown) : (s.observe o).phase = s.phase := rfl
@[simp] theorem State.observe_cmd (o : Shown) : (s.observe o).cmd = s.cmd := rfl
@[simp] theorem State.observe_ta (o : Shown) : (s.observe o).ta = s.ta := rfl
@[simp] theorem State.observe_crc (o : Shown) : (s.observe o).crc = s.crc := rfl
@[simp] theorem State.observe_data (o : Shown) : (s.observe o).data = s.data := rfl
@[simp] theorem State.observe_status (o : Shown) : (s.observe o).status = s.status := rfl
@[simp] theorem State.observe_store (o : Shown) : (s.observe o).store = s.store := rfl
@[simp] theorem State.observe_dirtyData (o : Shown) : (s.observe o).dirtyData = s.dirtyData := rfl
@[simp] theorem State.observe_dirtyStatus (o : Shown) : (s.observe o).dirtyStatus = s.dirtyStatus := rfl
@[simp] theorem State.observe_commit (o : Shown) : (s.observe o).commit = s.commit := rfl
@[simp] theorem State.observe_lastBus (o : Shown) : (s.observe o).lastBus = s.lastBus := rfl
@[simp] theorem State.observe_env (o : Shown) : (s.observe o).env = s.env := rfl
@[simp] theorem State.observe_trace (o : Shown) : (s.observe o).trace = o :: s.trace := rfl
@[simp] theorem State.observe_result (o : Shown) : (s.observe o).result = s.result := rfl
@[simp] theorem State.observe_freeCount (o : Shown) : (s.observe o).freeCount = s.freeCount := rfl
@[simp] theorem State.observe_mem (o : Shown) (sp : Space) : (s.observe o).mem sp = s.mem sp := by cases sp <;> rfl
@[simp] theorem State.observe_dirty (o : Shown) (r : Region) : (s.observe o).dirty r = s.dirty r := by cases r <;> rfl
@[simp] theorem State.observe_peek (o : Shown) (sp : Space) (y : Nat) : (s.observe o).peek sp y = s.peek sp y := by cases sp <;> rfl

/-! ### setMem -/

@[simp] theorem State.setMem_cfg (sp : Space) (m : Memory) : (s.setMem sp m).cfg = s.cfg := by cases sp <;> rfl
@[simp] theorem State.setMem_constructed (sp : Space) (m : Memory) : (s.setMem sp m).constructed = s.constructed := by cases sp <;> rfl
@[simp] theorem State.setMem_phase (sp : Space) (m : Memory) : (s.setMem sp m).phase = s.phase := by cases sp <;> rfl
@[simp] theorem State.setMem_cmd (sp : Space) (m : Memory) : (s.setMem sp m).cmd = s.cmd := by cases sp <;> rfl
@[simp] theorem State.setMem_ta (sp : Space) (m : Memory) : (s.setMem sp m).ta = s.ta := by cases sp <;> rfl
@[simp] theorem State.setMem_crc (sp : Space) (m : Memory) : (s.setMem sp m).crc = s.crc := by cases sp <;> rfl
@[simp] theorem State.setMem_data (sp : Space) (m : Memory) :
    (s.setMem sp m).data = if sp = .data then m else s.data := by cases sp <;> rfl
@[simp] theorem State.setMem_status (sp : Space) (m : Memory) :
    (s.setMem sp m).status = if sp = .status then m else s.status := by cases sp <;> rfl
@[simp] theorem State.setMem_store (sp : Space) (m : Memory) :
    (s.setMem sp m).store = if sp = .store then m else s.store := by cases sp <;> rfl
@[simp] theorem State.setMem_dirtyData (sp : Space) (m : Memory) : (s.setMem sp m).dirtyData = s.dirtyData := by cases sp <;> rfl
@[simp] theorem State.setMem_dirtyStatus (sp : Space) (m : Memory) : (s.setMem sp m).dirtyStatus = s.dirtyStatus := by cases sp <;> rfl
@[simp] theorem State.setMem_commit (sp : Space) (m : Memory) : (s.setMem sp m).commit = s.commit := by cases sp <;> rfl
@[simp] theorem State.setMem_lastBus (sp : Space) (m : Memory) : (s.setMem sp m).lastBus = s.lastBus := by cases sp <;> rfl
@[simp] theorem State.setMem_env (sp : Space) (m : Memory) : (s.setMem sp m).env = s.env := by cases sp <;> rfl
@[simp] theorem State.setMem_trace (sp : Space) (m : Memory) : (s.setMem sp m).trace = s.trace := by cases sp <;> rfl
@[simp] theorem State.setMem_result (sp : Space) (m : Memory) : (s.setMem sp m).result = s.result := by cases sp <;> rfl
@[simp] theorem State.setMem_freeCount (sp : Space) (m : Memory) : (s.setMem sp m).freeCount = s.freeCount := by cases sp <;> rfl
@[simp] theorem State.setMem_mem (sp q : Space) (m : Memory) :
    (s.setMem sp m).mem q = if sp = q then m else s.mem q := by cases sp <;> cases q <;> rfl
@[simp] theorem State.setMem_dirty (sp : Space) (m : Memory) (r : Region) : (s.setMem sp m).dirty r = s.dirty r := by
  cases sp <;> cases r <;> rfl

/-! ### setDirty -/

@[simp] theorem State.setDirty_cfg (r : Region) (d : DirtyRange) : (s.setDirty r d).cfg = s.cfg := by cases r <;> rfl
@[simp] theorem State.setDirty_constructed (r : Region) (d : DirtyRange) : (s.setDirty r d).constructed = s.constructed := by cases r <;> rfl
@[simp] theorem State.setDirty_phase (r : Region) (d : DirtyRange) : (s.setDirty r d).phase = s.phase := by cases r <;> rfl
@[simp] theorem State.setDirty_cmd (r : Region) (d : DirtyRange) : (s.setDirty r d).cmd = s.cmd := by cases r <;> rfl
@[simp] theorem State.setDirty_ta (r : Region) (d : DirtyRange) : (s.setDirty r d).ta = s.ta := by cases r <;> rfl
@[simp] theorem State.setDirty_crc (r : Region) (d : DirtyRange) : (s.setDirty r d).crc = s.crc := by cases r <;> rfl
@[simp] theorem State.setDirty_data (r : Region) (d : DirtyRange) : (s.setDirty r d).data = s.data := by cases r <;> rfl
@[simp] theorem State.setDirty_status (r : Region) (d : DirtyRange) : (s.setDirty r d).status = s.status := by cases r <;> rfl
@[simp] theorem State.setDirty_store (r : Region) (d : DirtyRange) : (s.setDirty r d).store = s.store := by cases r <;> rfl
@[simp] theorem State.setDirty_dirtyData (r : Region) (d : DirtyRange) :
    (s.setDirty r d).dirtyData = if r = .data then d else s.dirtyData := by cases r <;> rfl
@[simp] theorem State.setDirty_dirtyStatus (r : Region) (d : DirtyRange) :
    (s.setDirty r d).dirtyStatus = if r = .status then d else s.dirtyStatus := by cases r <;> rfl
@[simp] theorem State.setDirty_commit (r : Region) (d : DirtyRange) : (s.setDirty r d).commit = s.commit := by cases r <;> rfl
@[simp] theorem State.setDirty_lastBus (r : Region) (d : DirtyRange) : (s.setDirty r d).lastBus = s.lastBus := by cases r <;> rfl
@[simp] theorem State.setDirty_env (r : Region) (d : DirtyRange) : (s.setDirty r d).env = s.env := by cases r <;> rfl
@[simp] theorem State.setDirty_trace (r : Region) (d : DirtyRange) : (s.setDirty r d).trace = s.trace := by cases r <;> rfl
@[simp] theorem State.setDirty_result (r : Region) (d : DirtyRange) : (s.setDirty r d).result = s.result := by cases r <;> rfl
@[simp] theorem State.setDirty_freeCount (r : Region) (d : DirtyRange) : (s.setDirty r d).freeCount = s.freeCount := by cases r <;> rfl
@[simp] theorem State.setDirty_mem (r : Region) (d : DirtyRange) (sp : Space) : (s.setDirty r d).mem sp = s.mem sp := by
  cases r <;> cases sp <;> rfl
@[simp] theorem State.setDirty_dirty (r q : Region) (d : DirtyRange) :
    (s.setDirty r d).dirty q = if r = q then d else s.dirty q := by cases r <;> cases q <;> rfl
@[simp] theorem State.setDirty_peek (r : Region) (d : DirtyRange) (sp : Space) (x : Nat) :
    (s.setDirty r d).peek sp x = s.peek sp x := by cases r <;> cases sp <;> rfl

end Sys2Proof.Machine
end

