-- ==== Sys2Proof/Laws/Memory.lean ====
section
/-! SUPPORT. Memory: what a read sees after a write, the canonical form and that every write keeps it, and that equal
reads mean equal memories. -/

namespace Sys2Proof.Machine

/-! ## Lists of pairs -/

theorem Memory.read_erase_same (d : Byte) (m : Memory) (a : Nat) : Memory.read d (Memory.erase m a) a = d := by
  induction m with
  | nil => rfl
  | cons c m ih =>
    obtain ⟨x, b⟩ := c
    by_cases h : x = a <;> simp [Memory.erase, Memory.read, h, ih]

theorem Memory.read_erase_other (d : Byte) (m : Memory) {a x : Nat} (hx : x ≠ a) :
    Memory.read d (Memory.erase m a) x = Memory.read d m x := by
  induction m with
  | nil => rfl
  | cons c m ih =>
    obtain ⟨y, b⟩ := c
    by_cases h : y = a
    · subst h; simp [Memory.erase, Memory.read, ih, Ne.symm hx]
    · simp [Memory.erase, Memory.read, h, ih]

theorem Memory.read_insert_other (d : Byte) (m : Memory) {a x : Nat} (v : Byte) (hx : x ≠ a) :
    Memory.read d (Memory.insert m a v) x = Memory.read d m x := by
  induction m with
  | nil => simp [Memory.insert, Memory.read, Ne.symm hx]
  | cons c m ih =>
    obtain ⟨y, b⟩ := c
    by_cases h : a < y
    · simp [Memory.insert, Memory.read, h, Ne.symm hx]
    · simp [Memory.insert, Memory.read, h, ih]

theorem Memory.read_insert_erase (d : Byte) (m : Memory) (a : Nat) (v : Byte) :
    Memory.read d (Memory.insert (Memory.erase m a) a v) a = v := by
  induction m with
  | nil => simp [Memory.erase, Memory.insert, Memory.read]
  | cons c m ih =>
    obtain ⟨y, b⟩ := c
    by_cases h : y = a
    · simpa [Memory.erase, h] using ih
    · by_cases h' : a < y
      · simp [Memory.erase, Memory.insert, Memory.read, h, h']
      · simpa [Memory.erase, Memory.insert, Memory.read, h, h'] using ih

/-- A read of the address just written sees the value written. -/
theorem Memory.read_write_same (d : Byte) (m : Memory) (a : Nat) (v : Byte) :
    Memory.read d (Memory.write d m a v) a = v := by
  unfold Memory.write
  split
  · next h => rw [Memory.read_erase_same, h]
  · exact Memory.read_insert_erase d m a v

/-- A write leaves every other address alone. -/
theorem Memory.read_write_other (d e : Byte) (m : Memory) {a x : Nat} (v : Byte) (hx : x ≠ a) :
    Memory.read e (Memory.write d m a v) x = Memory.read e m x := by
  unfold Memory.write
  split
  · exact Memory.read_erase_other e m hx
  · rw [Memory.read_insert_other e _ v hx, Memory.read_erase_other e m hx]

/-! ## The canonical form -/

theorem Memory.mem_erase {m : Memory} {a : Nat} {c : Host.Cell} (h : c ∈ Memory.erase m a) : c ∈ m ∧ c.1 ≠ a := by
  induction m with
  | nil => simp [Memory.erase] at h
  | cons e m ih =>
    obtain ⟨y, b⟩ := e
    by_cases hy : y = a
    · rw [Memory.erase, if_pos hy] at h
      exact ⟨List.mem_cons_of_mem _ (ih h).1, (ih h).2⟩
    · rw [Memory.erase, if_neg hy] at h
      rcases List.mem_cons.1 h with rfl | h
      · exact ⟨List.mem_cons_self, hy⟩
      · exact ⟨List.mem_cons_of_mem _ (ih h).1, (ih h).2⟩

theorem Memory.mem_insert {m : Memory} {a : Nat} {v : Byte} {c : Host.Cell} (h : c ∈ Memory.insert m a v) :
    c ∈ m ∨ c = (a, v) := by
  induction m with
  | nil => exact .inr (by simpa [Memory.insert] using h)
  | cons e m ih =>
    obtain ⟨y, b⟩ := e
    by_cases hy : a < y
    · rw [Memory.insert, if_pos hy] at h
      rcases List.mem_cons.1 h with h | h
      · exact .inr h
      · exact .inl h
    · rw [Memory.insert, if_neg hy] at h
      rcases List.mem_cons.1 h with rfl | h
      · exact .inl List.mem_cons_self
      · exact (ih h).imp (List.mem_cons_of_mem _) id

theorem Memory.rising_cons {x : Nat} {b : Byte} {m : Memory} :
    Memory.rising ((x, b) :: m) = true ↔ (∀ c ∈ m, x < c.1) ∧ Memory.rising m = true := by
  simp [Memory.rising]

theorem Memory.rising_erase {m : Memory} (a : Nat) (h : Memory.rising m = true) :
    Memory.rising (Memory.erase m a) = true := by
  induction m with
  | nil => rfl
  | cons e m ih =>
    obtain ⟨y, b⟩ := e
    obtain ⟨h1, h2⟩ := Memory.rising_cons.1 h
    by_cases hy : y = a
    · rw [Memory.erase, if_pos hy]; exact ih h2
    · rw [Memory.erase, if_neg hy]
      exact Memory.rising_cons.2 ⟨fun c hc => h1 c (Memory.mem_erase hc).1, ih h2⟩

theorem Memory.rising_insert {m : Memory} {a : Nat} (v : Byte) (h : Memory.rising m = true)
    (ha : ∀ c ∈ m, c.1 ≠ a) : Memory.rising (Memory.insert m a v) = true := by
  induction m with
  | nil => rfl
  | cons e m ih =>
    obtain ⟨y, b⟩ := e
    obtain ⟨h1, h2⟩ := Memory.rising_cons.1 h
    by_cases hy : a < y
    · rw [Memory.insert, if_pos hy]
      refine Memory.rising_cons.2 ⟨fun c hc => ?_, h⟩
      rcases List.mem_cons.1 hc with rfl | hc
      · exact hy
      · exact hy.trans (h1 c hc)
    · rw [Memory.insert, if_neg hy]
      have hya : y ≠ a := ha (y, b) List.mem_cons_self
      refine Memory.rising_cons.2 ⟨fun c hc => ?_, ih h2 fun c hc => ha c (List.mem_cons_of_mem _ hc)⟩
      rcases Memory.mem_insert hc with hc | rfl
      · exact h1 c hc
      · show y < a; omega

theorem Memory.wf_iff {cfg : Config} {sp : Space} {m : Memory} :
    Memory.wf cfg sp m = true ↔
      Memory.rising m = true ∧ ∀ c ∈ m, c.1 < cfg.size sp ∧ c.2 ≠ factoryByte cfg sp c.1 := by
  simp [Memory.wf]

/-- A write inside the space keeps the canonical form. -/
theorem Memory.wf_write {cfg : Config} {sp : Space} {m : Memory} {a : Nat} (v : Byte)
    (h : Memory.wf cfg sp m = true) (ha : a < cfg.size sp) :
    Memory.wf cfg sp (Memory.write (factoryByte cfg sp a) m a v) = true := by
  obtain ⟨h1, h2⟩ := Memory.wf_iff.1 h
  refine Memory.wf_iff.2 ?_
  unfold Memory.write
  split
  · exact ⟨Memory.rising_erase a h1, fun c hc => h2 c (Memory.mem_erase hc).1⟩
  · next hv =>
    refine ⟨Memory.rising_insert v (Memory.rising_erase a h1) fun c hc => (Memory.mem_erase hc).2, fun c hc => ?_⟩
    rcases Memory.mem_insert hc with hc | rfl
    · exact h2 c (Memory.mem_erase hc).1
    · exact ⟨ha, hv⟩

theorem Memory.read_of_forall_lt {d : Byte} {m : Memory} {a : Nat} (h : ∀ c ∈ m, a < c.1) : Memory.read d m a = d := by
  induction m with
  | nil => rfl
  | cons e m ih =>
    obtain ⟨y, b⟩ := e
    have : y ≠ a := Nat.ne_of_gt (h (y, b) List.mem_cons_self)
    rw [Memory.read, if_neg this]
    exact ih fun c hc => h c (List.mem_cons_of_mem _ hc)

/-- Two canonical memories that read alike are the same list. -/
theorem Memory.ext_of_read {cfg : Config} {sp : Space} {m n : Memory}
    (hm : Memory.wf cfg sp m = true) (hn : Memory.wf cfg sp n = true)
    (h : ∀ a, Memory.read (factoryByte cfg sp a) m a = Memory.read (factoryByte cfg sp a) n a) : m = n := by
  rw [Memory.wf_iff] at hm hn
  induction m generalizing n with
  | nil =>
    cases n with
    | nil => rfl
    | cons e n =>
      obtain ⟨y, b⟩ := e
      exact absurd (by simpa [Memory.read] using (h y).symm) (hn.2 (y, b) List.mem_cons_self).2
  | cons e m ih =>
    obtain ⟨x, b⟩ := e
    obtain ⟨hm1, hm2⟩ := Memory.rising_cons.1 hm.1
    have hb := (hm.2 (x, b) List.mem_cons_self).2
    cases n with
    | nil => exact absurd (by simpa [Memory.read] using h x) hb
    | cons f n =>
      obtain ⟨y, c⟩ := f
      obtain ⟨hn1, hn2⟩ := Memory.rising_cons.1 hn.1
      have hc := (hn.2 (y, c) List.mem_cons_self).2
      have hxy : x = y := by
        rcases Nat.lt_trichotomy x y with hlt | heq | hgt
        · exfalso
          have hx := h x
          rw [Memory.read_of_forall_lt (m := (y, c) :: n)] at hx
          · exact hb (by simpa [Memory.read] using hx)
          · intro e he
            rcases List.mem_cons.1 he with rfl | he
            · exact hlt
            · exact hlt.trans (hn1 e he)
        · exact heq
        · exfalso
          have hy := h y
          rw [Memory.read_of_forall_lt (m := (x, b) :: m)] at hy
          · exact hc (by simpa [Memory.read] using hy.symm)
          · intro e he
            rcases List.mem_cons.1 he with rfl | he
            · exact hgt
            · exact hgt.trans (hm1 e he)
      subst hxy
      have hbc : b = c := by simpa [Memory.read] using h x
      subst hbc
      congr 1
      refine ih ⟨hm2, fun e he => hm.2 e (List.mem_cons_of_mem _ he)⟩
        ⟨hn2, fun e he => hn.2 e (List.mem_cons_of_mem _ he)⟩ fun a => ?_
      by_cases ha : x = a
      · subst ha
        rw [Memory.read_of_forall_lt hm1, Memory.read_of_forall_lt hn1]
      · simpa [Memory.read, ha] using h a

/-! ## The machine's spaces -/

variable (s : State) (sp : Space) (a : Nat) (v : Byte)

@[simp] theorem State.poke_cfg : (s.poke sp a v).cfg = s.cfg := by simp [State.poke]
@[simp] theorem State.poke_constructed : (s.poke sp a v).constructed = s.constructed := by simp [State.poke]
@[simp] theorem State.poke_phase : (s.poke sp a v).phase = s.phase := by simp [State.poke]
@[simp] theorem State.poke_cmd : (s.poke sp a v).cmd = s.cmd := by simp [State.poke]
@[simp] theorem State.poke_ta : (s.poke sp a v).ta = s.ta := by simp [State.poke]
@[simp] theorem State.poke_crc : (s.poke sp a v).crc = s.crc := by simp [State.poke]
@[simp] theorem State.poke_dirtyData : (s.poke sp a v).dirtyData = s.dirtyData := by simp [State.poke]
@[simp] theorem State.poke_dirtyStatus : (s.poke sp a v).dirtyStatus = s.dirtyStatus := by simp [State.poke]
@[simp] theorem State.poke_dirty (r : Region) : (s.poke sp a v).dirty r = s.dirty r := by simp [State.poke]
@[simp] theorem State.poke_commit : (s.poke sp a v).commit = s.commit := by simp [State.poke]
@[simp] theorem State.poke_lastBus : (s.poke sp a v).lastBus = s.lastBus := by simp [State.poke]
@[simp] theorem State.poke_env : (s.poke sp a v).env = s.env := by simp [State.poke]
@[simp] theorem State.poke_trace : (s.poke sp a v).trace = s.trace := by simp [State.poke]
@[simp] theorem State.poke_result : (s.poke sp a v).result = s.result := by simp [State.poke]
@[simp] theorem State.poke_freeCount : (s.poke sp a v).freeCount = s.freeCount := by simp [State.poke]

@[simp] theorem State.poke_mem_other {q : Space} (h : sp ≠ q) : (s.poke sp a v).mem q = s.mem q := by
  simp [State.poke, h]

@[simp] theorem State.peek_poke_same : (s.poke sp a v).peek sp a = v := by
  simp [State.peek, State.poke, Memory.read_write_same]

theorem State.peek_poke_other {q : Space} {x : Nat} (h : ¬(sp = q ∧ x = a)) :
    (s.poke sp a v).peek q x = s.peek q x := by
  by_cases hq : sp = q
  · subst hq
    have : x ≠ a := fun hx => h ⟨rfl, hx⟩
    simp [State.peek, State.poke, Memory.read_write_other _ _ _ v this]
  · simp [State.peek, State.poke, hq]

/-- What a poke does to every byte of every space. -/
theorem State.peek_poke (q : Space) (x : Nat) :
    (s.poke sp a v).peek q x = if sp = q ∧ x = a then v else s.peek q x := by
  split
  · next h => obtain ⟨rfl, rfl⟩ := h; simp
  · next h => exact s.peek_poke_other sp a v h

/-- The canonical form of every stored space. -/
def State.memoryWf (s : State) : Prop := ∀ q, Memory.wf s.cfg q (s.mem q) = true

/-- Every poke inside its space keeps the canonical form. -/
theorem State.memoryWf_poke {s : State} {sp : Space} {a : Nat} (v : Byte) (h : s.memoryWf) (ha : a < s.cfg.size sp) :
    (s.poke sp a v).memoryWf := by
  intro q
  by_cases hq : sp = q
  · subst hq
    simpa [State.poke] using Memory.wf_write v (h sp) ha
  · simpa [State.poke, hq] using h q

/-- The reset memory has the canonical form. -/
theorem State.memoryWf_reset : State.reset.memoryWf := by
  intro q; cases q <;> rfl

end Sys2Proof.Machine
end

