-- ==== Sys2Proof/Laws/Primitives.lean ====
section
/-! SUPPORT. What each bus and store primitive can do, said once: its result by the answer pending in the script, and
what it leaves alone (`Quiet`). -/

namespace Sys2Proof.Machine

variable (s : State)

/-! ## The relation of states that differ in bus matters only -/

/-- `t` differs from `s` at most in the dispatcher's registers and phase, in `LAST_BUS`, in the `rx`, `tx` and `ticks`
scripts, in the trace and in the count of free values. The equal parts are equal as data. -/
structure Quiet (s t : State) : Prop where
  cfg : t.cfg = s.cfg
  constructed : t.constructed = s.constructed
  data : t.data = s.data
  status : t.status = s.status
  store : t.store = s.store
  dirtyData : t.dirtyData = s.dirtyData
  dirtyStatus : t.dirtyStatus = s.dirtyStatus
  commit : t.commit = s.commit
  result : t.result = s.result
  events : t.env.events = s.env.events
  reads : t.env.reads = s.env.reads
  time : s.lastBus < s.cfg.timeModulus → t.lastBus < s.cfg.timeModulus
  clock : ∀ now, s.env.ticks = [now] →
    t.env.ticks = [now] ∧ (t.lastBus = s.lastBus ∨ t.lastBus = now % s.cfg.timeModulus)

theorem Quiet.refl : Quiet s s :=
  ⟨rfl, rfl, rfl, rfl, rfl, rfl, rfl, rfl, rfl, rfl, rfl, id, fun _ h => ⟨h, .inl rfl⟩⟩

variable {s} in
theorem Quiet.trans {t u : State} (h : Quiet s t) (k : Quiet t u) : Quiet s u where
  cfg := k.cfg.trans h.cfg
  constructed := k.constructed.trans h.constructed
  data := k.data.trans h.data
  status := k.status.trans h.status
  store := k.store.trans h.store
  dirtyData := k.dirtyData.trans h.dirtyData
  dirtyStatus := k.dirtyStatus.trans h.dirtyStatus
  commit := k.commit.trans h.commit
  result := k.result.trans h.result
  events := k.events.trans h.events
  reads := k.reads.trans h.reads
  time hs := by have := k.time; rw [h.cfg] at this; exact this (h.time hs)
  clock now hs := by
    have hk := k.clock now (h.clock now hs).1
    rw [h.cfg] at hk
    refine ⟨hk.1, hk.2.elim (fun e => ?_) .inr⟩
    rw [e]; exact (h.clock now hs).2

variable {s} in
theorem Quiet.mem {t : State} (h : Quiet s t) (sp : Space) : t.mem sp = s.mem sp := by
  cases sp <;> simp [State.mem, h.data, h.status, h.store]

variable {s} in
theorem Quiet.dirty {t : State} (h : Quiet s t) (r : Region) : t.dirty r = s.dirty r := by
  cases r <;> simp [State.dirty, h.dirtyData, h.dirtyStatus]

variable {s} in
theorem Quiet.peek {t : State} (h : Quiet s t) (sp : Space) (a : Nat) : t.peek sp a = s.peek sp a := by
  simp [State.peek, h.mem sp, h.cfg]

variable {s} in
theorem Quiet.busOnly {t : State} (h : Quiet s t) : BusOnly s t :=
  ⟨⟨h.cfg, h.constructed⟩, fun r a => h.peek r.space a, h.peek .store, h.dirty, h.commit, h.result, h.events, h.reads⟩

variable {s} in
theorem Quiet.logicalByte {t : State} (h : Quiet s t) (a : Nat) : t.logicalByte a = s.logicalByte a := by
  simp only [State.logicalByte, h.cfg, h.peek]

theorem Quiet.setPhase (p : Phase) : Quiet s (s.setPhase p) :=
  ⟨rfl, rfl, rfl, rfl, rfl, rfl, rfl, rfl, rfl, rfl, rfl, id, fun _ h => ⟨h, .inl rfl⟩⟩
theorem Quiet.setCmd (c : Byte) : Quiet s (s.setCmd c) :=
  ⟨rfl, rfl, rfl, rfl, rfl, rfl, rfl, rfl, rfl, rfl, rfl, id, fun _ h => ⟨h, .inl rfl⟩⟩
theorem Quiet.setTa (a : Word16) : Quiet s (s.setTa a) :=
  ⟨rfl, rfl, rfl, rfl, rfl, rfl, rfl, rfl, rfl, rfl, rfl, id, fun _ h => ⟨h, .inl rfl⟩⟩
theorem Quiet.setCrc (c : Word16) : Quiet s (s.setCrc c) :=
  ⟨rfl, rfl, rfl, rfl, rfl, rfl, rfl, rfl, rfl, rfl, rfl, id, fun _ h => ⟨h, .inl rfl⟩⟩
theorem Quiet.observe (o : Shown) : Quiet s (s.observe o) :=
  ⟨rfl, rfl, rfl, rfl, rfl, rfl, rfl, rfl, rfl, rfl, rfl, id, fun _ h => ⟨h, .inl rfl⟩⟩
theorem Quiet.freeCrc : Quiet s s.freeCrc :=
  ⟨rfl, rfl, rfl, rfl, rfl, rfl, rfl, rfl, rfl, rfl, rfl, id, fun _ h => ⟨h, .inl rfl⟩⟩

theorem Quiet.setEnv {e : Env} (h1 : e.events = s.env.events) (h2 : e.reads = s.env.reads) (h3 : e.ticks = s.env.ticks) :
    Quiet s (s.setEnv e) :=
  ⟨rfl, rfl, rfl, rfl, rfl, rfl, rfl, rfl, rfl, h1, h2, id, fun _ h => ⟨h3.trans h, .inl rfl⟩⟩

theorem Quiet.setRx (l : List (Option Byte)) : Quiet s (s.setEnv { s.env with rx := l }) := .setEnv s rfl rfl rfl
theorem Quiet.setTx (l : List Bool) : Quiet s (s.setEnv { s.env with tx := l }) := .setEnv s rfl rfl rfl

theorem Quiet.beginCommand (c : Command) (code : Byte) (ta : Word16) : Quiet s (s.beginCommand c code ta) :=
  ⟨rfl, rfl, rfl, rfl, rfl, rfl, rfl, rfl, rfl, rfl, rfl, id, fun _ h => ⟨h, .inl rfl⟩⟩

/-! ## touchBus -/

/-- The clock reading a primitive samples (R139), and the script after it. -/
theorem State.touchBus_eq : s.touchBus =
    match s.env.ticks with
    | [] => s
    | [t] => s.setLastBus (t % s.cfg.timeModulus)
    | t :: u :: rest => (s.setEnv { s.env with ticks := u :: rest }).setLastBus (t % s.cfg.timeModulus) := by
  unfold State.touchBus Env.popTick
  rcases h : s.env.ticks with _ | ⟨t, _ | ⟨u, rest⟩⟩ <;> rfl

@[simp] theorem State.touchBus_cfg : s.touchBus.cfg = s.cfg := by rw [State.touchBus_eq]; split <;> rfl
@[simp] theorem State.touchBus_constructed : s.touchBus.constructed = s.constructed := by
  rw [State.touchBus_eq]; split <;> rfl
@[simp] theorem State.touchBus_phase : s.touchBus.phase = s.phase := by rw [State.touchBus_eq]; split <;> rfl
@[simp] theorem State.touchBus_cmd : s.touchBus.cmd = s.cmd := by rw [State.touchBus_eq]; split <;> rfl
@[simp] theorem State.touchBus_ta : s.touchBus.ta = s.ta := by rw [State.touchBus_eq]; split <;> rfl
@[simp] theorem State.touchBus_crc : s.touchBus.crc = s.crc := by rw [State.touchBus_eq]; split <;> rfl
@[simp] theorem State.touchBus_data : s.touchBus.data = s.data := by rw [State.touchBus_eq]; split <;> rfl
@[simp] theorem State.touchBus_status : s.touchBus.status = s.status := by rw [State.touchBus_eq]; split <;> rfl
@[simp] theorem State.touchBus_store : s.touchBus.store = s.store := by rw [State.touchBus_eq]; split <;> rfl
@[simp] theorem State.touchBus_dirtyData : s.touchBus.dirtyData = s.dirtyData := by
  rw [State.touchBus_eq]; split <;> rfl
@[simp] theorem State.touchBus_dirtyStatus : s.touchBus.dirtyStatus = s.dirtyStatus := by
  rw [State.touchBus_eq]; split <;> rfl
@[simp] theorem State.touchBus_commit : s.touchBus.commit = s.commit := by rw [State.touchBus_eq]; split <;> rfl
@[simp] theorem State.touchBus_trace : s.touchBus.trace = s.trace := by rw [State.touchBus_eq]; split <;> rfl
@[simp] theorem State.touchBus_result : s.touchBus.result = s.result := by rw [State.touchBus_eq]; split <;> rfl
@[simp] theorem State.touchBus_freeCount : s.touchBus.freeCount = s.freeCount := by
  rw [State.touchBus_eq]; split <;> rfl
@[simp] theorem State.touchBus_events : s.touchBus.env.events = s.env.events := by
  rw [State.touchBus_eq]; split <;> rfl
@[simp] theorem State.touchBus_rx : s.touchBus.env.rx = s.env.rx := by rw [State.touchBus_eq]; split <;> rfl
@[simp] theorem State.touchBus_tx : s.touchBus.env.tx = s.env.tx := by rw [State.touchBus_eq]; split <;> rfl
@[simp] theorem State.touchBus_reads : s.touchBus.env.reads = s.env.reads := by rw [State.touchBus_eq]; split <;> rfl

@[simp] theorem State.touchBus_mem (sp : Space) : s.touchBus.mem sp = s.mem sp := by cases sp <;> simp [State.mem]
@[simp] theorem State.touchBus_peek (sp : Space) (a : Nat) : s.touchBus.peek sp a = s.peek sp a := by
  simp [State.peek]

theorem Quiet.touchBus : Quiet s s.touchBus where
  cfg := by simp
  constructed := by simp
  data := by simp
  status := by simp
  store := by simp
  dirtyData := by simp
  dirtyStatus := by simp
  commit := by simp
  result := by simp
  events := by simp
  reads := by simp
  time h := by
    have hm : 0 < s.cfg.timeModulus := Nat.two_pow_pos _
    rw [State.touchBus_eq]
    split
    · exact h
    · simpa using Nat.mod_lt _ hm
    · simpa using Nat.mod_lt _ hm
  clock now h := by rw [State.touchBus_eq, h]; exact ⟨h, .inr rfl⟩

/-- `LAST_BUS` after a primitive when the clock has one standing reading. -/
theorem State.touchBus_lastBus {now : Nat} (h : s.env.ticks = [now]) :
    s.touchBus.lastBus = now % s.cfg.timeModulus ∧ s.touchBus.env.ticks = [now] := by
  rw [State.touchBus_eq, h]; exact ⟨rfl, h⟩

/-! ## recv -/

variable {s} in
theorem State.recv_some {b : Byte} {rest : List (Option Byte)} (h : s.env.rx = some b :: rest) :
    s.recv = (some b, ((s.setEnv { s.env with rx := rest }).setCrc (crcStep s.cfg s.crc b)).touchBus) := by
  simp [State.recv, Env.popRx, h]

variable {s} in
theorem State.recv_none {rest : List (Option Byte)} (h : s.env.rx = none :: rest) :
    s.recv = (none, (s.setEnv { s.env with rx := rest }).touchBus) := by
  simp [State.recv, Env.popRx, h]

variable {s} in
theorem State.recv_nil (h : s.env.rx = []) : s.recv = (none, s.touchBus) := by
  simp [State.recv, Env.popRx, h, State.setEnv]

theorem Quiet.recv : Quiet s s.recv.2 := by
  rcases h : s.env.rx with _ | ⟨_ | b, rest⟩
  · rw [State.recv_nil h]; exact .touchBus s
  · rw [State.recv_none h]; exact (Quiet.setRx s _).trans (.touchBus _)
  · rw [State.recv_some h]; exact (Quiet.setRx s _).trans ((Quiet.setCrc _ _).trans (.touchBus _))

@[simp] theorem State.recv_cfg : s.recv.2.cfg = s.cfg := (Quiet.recv s).cfg

/-- A receive shows nothing, and touches neither `TA`, `CMD`, the phase nor the send script. -/
theorem State.recv_rest : s.recv.2.trace = s.trace ∧ s.recv.2.ta = s.ta ∧ s.recv.2.cmd = s.cmd ∧
    s.recv.2.phase = s.phase ∧ s.recv.2.env.tx = s.env.tx ∧ s.recv.2.freeCount = s.freeCount := by
  rcases h : s.env.rx with _ | ⟨_ | b, rest⟩
  · rw [State.recv_nil h]; simp
  · rw [State.recv_none h]; simp
  · rw [State.recv_some h]; simp

/-- While the clock stands, a receive overwrites `LAST_BUS`, whatever it held (R139). -/
theorem State.recv_setLastBus {now : Nat} (h : s.env.ticks = [now]) (v : Nat) : (s.setLastBus v).recv = s.recv := by
  rcases hr : s.env.rx with _ | ⟨_ | b, rest⟩
  · rw [State.recv_nil (s := s.setLastBus v) hr, State.recv_nil hr, State.touchBus_eq, State.touchBus_eq]; simp [h]; rfl
  · rw [State.recv_none (s := s.setLastBus v) hr, State.recv_none hr, State.touchBus_eq, State.touchBus_eq]; simp [h]; rfl
  · rw [State.recv_some (s := s.setLastBus v) hr, State.recv_some hr, State.touchBus_eq, State.touchBus_eq]; simp [h]; rfl

/-! ## send, send_raw -/

/-- No answer of the send script is a failure: every send to come succeeds. -/
def State.sendsSucceed (s : State) : Prop := ∀ ok ∈ s.env.tx, ok = true

theorem State.send_of_tx (b : Byte) : s.send b =
    match s.env.tx with
    | [] => (true, ((s.observe (.send b true)).setCrc (crcStep s.cfg s.crc b)).touchBus)
    | true :: rest => (true, (((s.setEnv { s.env with tx := rest }).observe (.send b true)).setCrc
        (crcStep s.cfg s.crc b)).touchBus)
    | false :: rest => (false, ((s.setEnv { s.env with tx := rest }).observe (.send b false)).freeCrc.touchBus) := by
  rcases h : s.env.tx with _ | ⟨_ | _, rest⟩ <;> simp [State.send, Env.popTx, h, State.setEnv]

theorem State.sendRaw_of_tx (b : Byte) : s.sendRaw b =
    match s.env.tx with
    | [] => (true, (s.observe (.sendRaw b true)).touchBus)
    | ok :: rest => (ok, ((s.setEnv { s.env with tx := rest }).observe (.sendRaw b ok)).touchBus) := by
  rcases h : s.env.tx with _ | ⟨ok, rest⟩ <;> simp [State.sendRaw, Env.popTx, h, State.setEnv]

theorem Quiet.send (b : Byte) : Quiet s (s.send b).2 := by
  rw [State.send_of_tx]
  split
  · exact (Quiet.observe s _).trans ((Quiet.setCrc _ _).trans (.touchBus _))
  · exact (Quiet.setTx s _).trans ((Quiet.observe _ _).trans ((Quiet.setCrc _ _).trans (.touchBus _)))
  · exact (Quiet.setTx s _).trans ((Quiet.observe _ _).trans ((Quiet.freeCrc _).trans (.touchBus _)))

theorem Quiet.sendRaw (b : Byte) : Quiet s (s.sendRaw b).2 := by
  rw [State.sendRaw_of_tx]
  split
  · exact (Quiet.observe s _).trans (.touchBus _)
  · exact (Quiet.setTx s _).trans ((Quiet.observe _ _).trans (.touchBus _))

/-- Everything a `send` does to what is shown and to the registers. -/
theorem State.send_rest (b : Byte) : (s.send b).2.trace = .send b (s.send b).1 :: s.trace ∧ (s.send b).2.ta = s.ta ∧
    (s.send b).2.cmd = s.cmd ∧ (s.send b).2.phase = s.phase ∧ (s.send b).2.env.rx = s.env.rx ∧
    ((s.send b).1 = true → (s.send b).2.crc = crcStep s.cfg s.crc b ∧ (s.send b).2.freeCount = s.freeCount) := by
  rw [State.send_of_tx]
  split <;> simp [State.freeCrc]

/-- Everything a `send_raw` does to what is shown and to the registers: `CRC` is unchanged (R138). -/
theorem State.sendRaw_rest (b : Byte) : (s.sendRaw b).2.trace = .sendRaw b (s.sendRaw b).1 :: s.trace ∧
    (s.sendRaw b).2.ta = s.ta ∧ (s.sendRaw b).2.cmd = s.cmd ∧ (s.sendRaw b).2.phase = s.phase ∧
    (s.sendRaw b).2.env.rx = s.env.rx ∧ (s.sendRaw b).2.crc = s.crc ∧ (s.sendRaw b).2.freeCount = s.freeCount := by
  rw [State.sendRaw_of_tx]
  split <;> simp

variable {s} in
theorem State.send_succeeds (h : s.sendsSucceed) (b : Byte) : (s.send b).1 = true ∧ (s.send b).2.sendsSucceed := by
  rw [State.send_of_tx]
  unfold State.sendsSucceed at h
  rcases ht : s.env.tx with _ | ⟨_ | _, rest⟩
  · simp [State.sendsSucceed, ht]
  · simp [ht] at h
  · rw [ht] at h
    refine ⟨rfl, fun ok hok => h ok ?_⟩
    simpa using Or.inr hok

variable {s} in
theorem State.sendRaw_succeeds (h : s.sendsSucceed) (b : Byte) :
    (s.sendRaw b).1 = true ∧ (s.sendRaw b).2.sendsSucceed := by
  rw [State.sendRaw_of_tx]
  unfold State.sendsSucceed at h
  rcases ht : s.env.tx with _ | ⟨ok, rest⟩
  · simp [State.sendsSucceed, ht]
  · rw [ht] at h
    refine ⟨h ok List.mem_cons_self, fun ok hok => h ok ?_⟩
    simpa using Or.inr hok

variable {s} in
/-- A scripted answer of the bus host to a `send`. -/
theorem State.send_tx (b : Byte) {ok : Bool} {rest : List Bool} (h : s.env.tx = ok :: rest) :
    (s.send b).1 = ok ∧ (s.send b).2.env.tx = rest := by
  rw [State.send_of_tx, h]
  cases ok <;> simp [State.freeCrc]

variable {s} in
/-- A scripted answer of the bus host to a `send_raw`. -/
theorem State.sendRaw_tx (b : Byte) {ok : Bool} {rest : List Bool} (h : s.env.tx = ok :: rest) :
    (s.sendRaw b).1 = ok ∧ (s.sendRaw b).2.env.tx = rest := by
  rw [State.sendRaw_of_tx, h]
  simp

variable {s} in
/-- A receive that delivers no byte: `CRC` unchanged (R136). -/
theorem State.recv_fails (h : ∀ b, s.env.rx.head? ≠ some (some b)) :
    s.recv.1 = none ∧ s.recv.2.env.rx = s.env.rx.tail ∧ s.recv.2.crc = s.crc := by
  rcases hr : s.env.rx with _ | ⟨_ | b, rest⟩
  · rw [State.recv_nil hr]; simp [hr]
  · rw [State.recv_none hr]; simp
  · exact absurd (by rw [hr]; rfl) (h b)

/-! ## CRC_EMIT -/

theorem State.crcEmit_eq : s.crcEmit =
    if (s.sendRaw (lowByte (~~~ s.crc))).1 = true then (s.sendRaw (lowByte (~~~ s.crc))).2.sendRaw (highByte (~~~ s.crc))
    else (false, (s.sendRaw (lowByte (~~~ s.crc))).2) := by
  unfold State.crcEmit
  rcases s.sendRaw (lowByte (~~~ s.crc)) with ⟨_ | _, t⟩ <;> rfl

theorem Quiet.crcEmit : Quiet s s.crcEmit.2 := by
  rw [State.crcEmit_eq]
  split
  · exact (Quiet.sendRaw s _).trans (.sendRaw _ _)
  · exact .sendRaw s _

/-- CRC_EMIT never writes `CRC`, `TA`, `CMD` or the phase, and receives nothing. -/
theorem State.crcEmit_rest : s.crcEmit.2.crc = s.crc ∧ s.crcEmit.2.ta = s.ta ∧ s.crcEmit.2.cmd = s.cmd ∧
    s.crcEmit.2.phase = s.phase ∧ s.crcEmit.2.env.rx = s.env.rx ∧ s.crcEmit.2.freeCount = s.freeCount := by
  have h1 := s.sendRaw_rest (lowByte (~~~ s.crc))
  have h2 := (s.sendRaw (lowByte (~~~ s.crc))).2.sendRaw_rest (highByte (~~~ s.crc))
  rw [State.crcEmit_eq]
  split
  · refine ⟨h2.2.2.2.2.2.1.trans h1.2.2.2.2.2.1, h2.2.1.trans h1.2.1, h2.2.2.1.trans h1.2.2.1,
      h2.2.2.2.1.trans h1.2.2.2.1, h2.2.2.2.2.1.trans h1.2.2.2.2.1, h2.2.2.2.2.2.2.trans h1.2.2.2.2.2.2⟩
  · exact ⟨h1.2.2.2.2.2.1, h1.2.1, h1.2.2.1, h1.2.2.2.1, h1.2.2.2.2.1, h1.2.2.2.2.2.2⟩

variable {s} in
/-- CRC_EMIT over a bus that does not fail shows the complement, low byte first (R134). -/
theorem State.crcEmit_succeeds (h : s.sendsSucceed) :
    s.crcEmit.1 = true ∧ s.crcEmit.2.trace = (checksumShown s.crc).reverse ++ s.trace ∧
    s.crcEmit.2.sendsSucceed := by
  obtain ⟨h1, h2⟩ := State.sendRaw_succeeds h (lowByte (~~~ s.crc))
  obtain ⟨k1, k2⟩ := State.sendRaw_succeeds h2 (highByte (~~~ s.crc))
  have t1 := (s.sendRaw_rest (lowByte (~~~ s.crc))).1
  have t2 := ((s.sendRaw (lowByte (~~~ s.crc))).2.sendRaw_rest (highByte (~~~ s.crc))).1
  rw [State.crcEmit_eq, if_pos h1]
  refine ⟨k1, ?_, k2⟩
  rw [t2, t1, k1, h1]; rfl

/-! ## Errors -/

theorem Quiet.endTransaction : Quiet s s.endTransaction := .setPhase s _

theorem Quiet.takeError (e : ErrorClass) : Quiet s (s.takeError e) := by
  cases e
  · exact .endTransaction s
  · exact (Quiet.crcEmit s).trans (.endTransaction _)
  · exact (Quiet.observe s _).trans (.endTransaction _)
  · exact (Quiet.observe s _).trans (.endTransaction _)

@[simp] theorem State.endTransaction_phase : s.endTransaction.phase = .done := rfl

/-- Every error ends the transaction. -/
@[simp] theorem State.takeError_phase (e : ErrorClass) : (s.takeError e).phase = .done := by cases e <;> rfl

/-! ## Store primitives -/

/-- A store read: the content unless the environment diverges, recorded, nothing else written (R75). -/
theorem State.storeReadByte_eq (a : Nat) : s.storeReadByte a =
    match s.env.reads with
    | [] => (s.peek .store a, s.observe (.storeRead a))
    | v :: rest => (v.getD (s.peek .store a), (s.setEnv { s.env with reads := rest }).observe (.storeRead a)) := by
  rcases h : s.env.reads with _ | ⟨v, rest⟩ <;> simp [State.storeReadByte, Env.popRead, h, State.setEnv]

variable {s} in
theorem State.storeReadByte_faithful (h : s.env.reads = []) (a : Nat) :
    s.storeReadByte a = (s.peek .store a, s.observe (.storeRead a)) := by
  rw [State.storeReadByte_eq, h]

/-- What a store read leaves alone. -/
structure StoreQuiet (s t : State) : Prop where
  cfg : t.cfg = s.cfg
  constructed : t.constructed = s.constructed
  phase : t.phase = s.phase
  cmd : t.cmd = s.cmd
  ta : t.ta = s.ta
  crc : t.crc = s.crc
  dirtyData : t.dirtyData = s.dirtyData
  dirtyStatus : t.dirtyStatus = s.dirtyStatus
  commit : t.commit = s.commit
  lastBus : t.lastBus = s.lastBus
  result : t.result = s.result
  freeCount : t.freeCount = s.freeCount
  events : t.env.events = s.env.events
  rx : t.env.rx = s.env.rx
  tx : t.env.tx = s.env.tx
  ticks : t.env.ticks = s.env.ticks
  reads : s.env.reads = [] → t.env.reads = []

theorem StoreQuiet.refl : StoreQuiet s s :=
  ⟨rfl, rfl, rfl, rfl, rfl, rfl, rfl, rfl, rfl, rfl, rfl, rfl, rfl, rfl, rfl, rfl, id⟩

variable {s} in
theorem StoreQuiet.trans {t u : State} (h : StoreQuiet s t) (k : StoreQuiet t u) : StoreQuiet s u where
  cfg := k.cfg.trans h.cfg
  constructed := k.constructed.trans h.constructed
  phase := k.phase.trans h.phase
  cmd := k.cmd.trans h.cmd
  ta := k.ta.trans h.ta
  crc := k.crc.trans h.crc
  dirtyData := k.dirtyData.trans h.dirtyData
  dirtyStatus := k.dirtyStatus.trans h.dirtyStatus
  commit := k.commit.trans h.commit
  lastBus := k.lastBus.trans h.lastBus
  result := k.result.trans h.result
  freeCount := k.freeCount.trans h.freeCount
  events := k.events.trans h.events
  rx := k.rx.trans h.rx
  tx := k.tx.trans h.tx
  ticks := k.ticks.trans h.ticks
  reads x := k.reads (h.reads x)

variable {s} in
theorem StoreQuiet.dirty {t : State} (h : StoreQuiet s t) (r : Region) : t.dirty r = s.dirty r := by
  cases r <;> simp [State.dirty, h.dirtyData, h.dirtyStatus]

theorem StoreQuiet.poke (sp : Space) (a : Nat) (v : Byte) : StoreQuiet s (s.poke sp a v) := by
  constructor <;> simp

theorem StoreQuiet.storeReadByte (a : Nat) : StoreQuiet s (s.storeReadByte a).2 := by
  rw [State.storeReadByte_eq]
  rcases h : s.env.reads with _ | ⟨v, rest⟩ <;> constructor <;> simp [h]

theorem StoreQuiet.storeWriteByte (a : Nat) (v : Byte) : StoreQuiet s (s.storeWriteByte a v) := by
  constructor <;> simp [State.storeWriteByte]

@[simp] theorem State.storeReadByte_mem (a : Nat) (sp : Space) : (s.storeReadByte a).2.mem sp = s.mem sp := by
  rw [State.storeReadByte_eq]; split <;> simp

@[simp] theorem State.storeReadByte_peek (a : Nat) (sp : Space) (x : Nat) :
    (s.storeReadByte a).2.peek sp x = s.peek sp x := by
  simp [State.peek, (StoreQuiet.storeReadByte s a).cfg]

@[simp] theorem State.storeReadByte_trace (a : Nat) : (s.storeReadByte a).2.trace = .storeRead a :: s.trace := by
  rw [State.storeReadByte_eq]; split <;> simp

@[simp] theorem State.storeWriteByte_trace (a : Nat) (v : Byte) :
    (s.storeWriteByte a v).trace = .storeWrite a v :: s.trace := by simp [State.storeWriteByte]

/-- A store write: the one byte, and nothing else (R115). -/
@[simp] theorem State.storeWriteByte_peek (a : Nat) (v : Byte) (sp : Space) (x : Nat) :
    (s.storeWriteByte a v).peek sp x = if .store = sp ∧ x = a then v else s.peek sp x := by
  simp [State.storeWriteByte, State.peek_poke]

end Sys2Proof.Machine
end

