-- ==== Sys2Proof/Laws/Bootstrap.lean ====
section
/-! SUPPORT. Construction and factory reset: what each copying loop leaves in image and store, said once. -/

namespace Sys2Proof.Machine

/-! ## The loops: what they leave alone -/

theorem StoreQuiet.copyTemplate (r : Region) (n i : Nat) (s : State) : StoreQuiet s (copyTemplate r n i s) := by
  induction n generalizing i s with
  | zero => exact .refl s
  | succ n ih => exact (StoreQuiet.poke s _ _ _).trans (ih _ _)

theorem StoreQuiet.storeTemplate (r : Region) (n i : Nat) (s : State) : StoreQuiet s (storeTemplate r n i s) := by
  induction n generalizing i s with
  | zero => exact .refl s
  | succ n ih => exact (StoreQuiet.storeWriteByte s _ _).trans (ih _ _)

theorem StoreQuiet.loadRegion (r : Region) (n i : Nat) (s : State) : StoreQuiet s (loadRegion r n i s) := by
  induction n generalizing i s with
  | zero => exact .refl s
  | succ n ih => exact (StoreQuiet.storeReadByte s _).trans ((StoreQuiet.poke _ _ _ _).trans (ih _ _))

theorem blankLoop_succ (n i : Nat) (s : State) : blankLoop (n + 1) i s =
    if (s.storeReadByte (s.cfg.base .data + i)).1 ≠ 0xFF then (false, (s.storeReadByte (s.cfg.base .data + i)).2)
    else if ((s.storeReadByte (s.cfg.base .data + i)).2.storeReadByte
        ((s.storeReadByte (s.cfg.base .data + i)).2.cfg.base .status + i)).1 ≠ 0xFF
    then (false, ((s.storeReadByte (s.cfg.base .data + i)).2.storeReadByte
        ((s.storeReadByte (s.cfg.base .data + i)).2.cfg.base .status + i)).2)
    else blankLoop n (i + 1) ((s.storeReadByte (s.cfg.base .data + i)).2.storeReadByte
        ((s.storeReadByte (s.cfg.base .data + i)).2.cfg.base .status + i)).2 := by
  rw [blankLoop, (StoreQuiet.storeReadByte s _).cfg]

/-- BLANK_CHECK changes the read script and what is shown only. -/
theorem StoreQuiet.blankLoop (n i : Nat) (s : State) : StoreQuiet s (blankLoop n i s).2 := by
  induction n generalizing i s with
  | zero => exact .refl s
  | succ n ih =>
    rw [blankLoop_succ]
    split
    · exact .storeReadByte s _
    · split
      · exact (StoreQuiet.storeReadByte s _).trans (.storeReadByte _ _)
      · exact (StoreQuiet.storeReadByte s _).trans ((StoreQuiet.storeReadByte _ _).trans (ih _ _))

/-- BLANK_CHECK writes no byte of image or store. -/
theorem blankLoop_mem (n i : Nat) (s : State) (q : Space) : (blankLoop n i s).2.mem q = s.mem q := by
  induction n generalizing i s with
  | zero => rfl
  | succ n ih =>
    rw [blankLoop_succ]
    split
    · simp
    · split
      · simp
      · rw [ih]; simp

/-! ## The loops: the bytes they leave -/

/-- The image after copying a template (R290). -/
theorem copyTemplate_peek (r : Region) (n i : Nat) (s : State) (q : Space) (a : Nat) :
    (copyTemplate r n i s).peek q a =
      if r.space = q ∧ i ≤ a ∧ a < i + n then templateByte s.cfg r a else s.peek q a := by
  induction n generalizing i s with
  | zero => rw [if_neg (by omega)]; rfl
  | succ n ih =>
    rw [copyTemplate, ih, State.poke_cfg, State.peek_poke]
    by_cases hq : r.space = q
    · by_cases ha : a = i
      · subst ha; simp [hq]
      · by_cases hr : i + 1 ≤ a ∧ a < i + 1 + n
        · rw [if_pos ⟨hq, hr⟩, if_pos ⟨hq, by omega⟩]
        · rw [if_neg (fun h => hr h.2), if_neg (fun h => ha h.2), if_neg (fun h => hr (by omega))]
    · simp [hq]

/-- The store after writing a template (R292). -/
theorem storeTemplate_peek (r : Region) (n i : Nat) (s : State) (q : Space) (a : Nat) :
    (storeTemplate r n i s).peek q a =
      if .store = q ∧ s.cfg.base r + i ≤ a ∧ a < s.cfg.base r + i + n then templateByte s.cfg r (a - s.cfg.base r)
      else s.peek q a := by
  induction n generalizing i s with
  | zero => rw [if_neg (by omega)]; rfl
  | succ n ih =>
    rw [storeTemplate, ih, (StoreQuiet.storeWriteByte s _ _).cfg, State.storeWriteByte_peek]
    by_cases hq : Space.store = q
    · by_cases ha : a = s.cfg.base r + i
      · subst ha
        rw [if_neg (by omega), if_pos ⟨hq, rfl⟩, if_pos ⟨hq, by omega⟩]
        congr 1; omega
      · by_cases hr : s.cfg.base r + (i + 1) ≤ a ∧ a < s.cfg.base r + (i + 1) + n
        · rw [if_pos ⟨hq, hr⟩, if_pos ⟨hq, by omega⟩]
        · rw [if_neg (fun h => hr h.2), if_neg (fun h => ha h.2), if_neg (fun h => hr (by omega))]
    · simp [hq]

/-- The store is never written by a load. -/
theorem loadRegion_store (r : Region) (n i : Nat) (s : State) (a : Nat) :
    (loadRegion r n i s).peek .store a = s.peek .store a := by
  induction n generalizing i s with
  | zero => rfl
  | succ n ih =>
    rw [loadRegion]
    dsimp only
    rw [ih, State.peek_poke, if_neg (by cases r <;> simp [Region.space]), State.storeReadByte_peek]

/-- The answer of BLANK_CHECK's loop on a store that does not diverge (R291). -/
theorem blankLoop_answer (n i : Nat) {s : State} (h : s.env.reads = []) : (blankLoop n i s).1 = true ↔
    ∀ r k, i ≤ k → k < i + n → s.peek .store (s.cfg.base r + k) = 0xFF := by
  induction n generalizing i s with
  | zero => simp only [blankLoop, true_iff]; intro r k h1 h2; omega
  | succ n ih =>
    have h' : (s.observe (.storeRead (s.cfg.base .data + i))).env.reads = [] := h
    rw [blankLoop_succ, State.storeReadByte_faithful h, State.storeReadByte_faithful h']
    simp only [State.observe_cfg, State.observe_peek]
    by_cases hd : s.peek .store (s.cfg.base .data + i) = 0xFF
    · by_cases hs : s.peek .store (s.cfg.base .status + i) = 0xFF
      · rw [if_neg (by simpa using hd), if_neg (by simpa using hs), ih (i + 1) (by simpa using h)]
        simp only [State.observe_cfg, State.observe_peek]
        constructor
        · intro hk r k h1 h2
          by_cases he : k = i
          · subst he; cases r <;> assumption
          · exact hk r k (by omega) (by omega)
        · intro hk r k h1 h2
          exact hk r k (by omega) (by omega)
      · rw [if_neg (by simpa using hd), if_pos hs]
        refine ⟨fun x => by simp at x, fun x => absurd (x .status i (le_refl _) (by omega)) hs⟩
    · rw [if_pos hd]
      refine ⟨fun x => by simp at x, fun x => absurd (x .data i (le_refl _) (by omega)) hd⟩

/-! ## The canonical form -/

theorem copyTemplate_memoryWf (r : Region) (n i : Nat) {s : State} (hi : i + n ≤ s.cfg.size r.space)
    (h : s.memoryWf) : (copyTemplate r n i s).memoryWf := by
  induction n generalizing i s with
  | zero => exact h
  | succ n ih => exact ih (i + 1) (by rw [State.poke_cfg]; omega) (State.memoryWf_poke _ h (by omega))

theorem State.memoryWf_observe {s : State} (o : Shown) (h : s.memoryWf) : (s.observe o).memoryWf := fun q => by
  rw [State.observe_cfg, State.observe_mem]; exact h q

theorem storeTemplate_memoryWf (r : Region) (n i : Nat) {s : State} (hc : s.cfg.Facts) (hi : i + n ≤ s.cfg.size r.space)
    (h : s.memoryWf) : (storeTemplate r n i s).memoryWf := by
  induction n generalizing i s with
  | zero => exact h
  | succ n ih =>
    have hq := (StoreQuiet.storeWriteByte s (s.cfg.base r + i) (templateByte s.cfg r i)).cfg
    exact ih (i + 1) (hq ▸ hc) (by rw [hq]; omega)
      (State.memoryWf_observe _ (State.memoryWf_poke _ h (hc.base_lt r (by omega))))

theorem State.memoryWf_storeReadByte {s : State} (a : Nat) (h : s.memoryWf) : (s.storeReadByte a).2.memoryWf := fun q => by
  rw [(StoreQuiet.storeReadByte s a).cfg, State.storeReadByte_mem]; exact h q

theorem loadRegion_memoryWf (r : Region) (n i : Nat) {s : State} (hi : i + n ≤ s.cfg.size r.space) (h : s.memoryWf) :
    (loadRegion r n i s).memoryWf := by
  induction n generalizing i s with
  | zero => exact h
  | succ n ih =>
    have hq := (StoreQuiet.storeReadByte s (s.cfg.base r + i)).cfg
    have hm := State.memoryWf_storeReadByte (s.cfg.base r + i) h
    rw [loadRegion]
    generalize s.storeReadByte (s.cfg.base r + i) = x at hq hm
    exact ih (i + 1) (by rw [State.poke_cfg, hq]; omega) (State.memoryWf_poke _ hm (by rw [hq]; omega))

/-! ## The parts of CONSTRUCT and FACTORY_RESET -/

theorem StoreQuiet.copyTemplates (s : State) : StoreQuiet s s.copyTemplates :=
  (StoreQuiet.copyTemplate _ _ _ _).trans (.copyTemplate _ _ _ _)

theorem StoreQuiet.loadStore (s : State) : StoreQuiet s s.loadStore :=
  (StoreQuiet.loadRegion _ _ _ _).trans (.loadRegion _ _ _ _)

theorem StoreQuiet.factoryResetBody (s : State) : StoreQuiet s s.factoryResetBody := by
  unfold State.factoryResetBody
  split
  · exact (StoreQuiet.storeTemplate _ _ _ _).trans ((StoreQuiet.storeTemplate _ _ _ _).trans (.loadStore _))
  · exact .copyTemplates s

theorem StoreQuiet.constructImage (s : State) : StoreQuiet s s.constructImage := by
  have hb := StoreQuiet.blankLoop s.cfg.blankSample 0 s
  unfold State.constructImage State.blankCheck
  split
  · exact .copyTemplates s
  · rcases h : Machine.blankLoop s.cfg.blankSample 0 s with ⟨_ | _, t⟩ <;> rw [h] at hb
    · exact hb.trans (.loadStore t)
    · exact hb.trans (.factoryResetBody t)

/-- Copying a template shows nothing and uses up no answer. -/
theorem copyTemplate_quiet (r : Region) (n i : Nat) (s : State) :
    (copyTemplate r n i s).trace = s.trace ∧ (copyTemplate r n i s).env = s.env := by
  induction n generalizing i s with
  | zero => exact ⟨rfl, rfl⟩
  | succ n ih => rw [copyTemplate, (ih _ _).1, (ih _ _).2]; simp

/-- Both templates straight into the image, the store untouched (R290). -/
theorem State.copyTemplates_peek (s : State) :
    (∀ r a, a < s.cfg.size (Region.space r) → s.copyTemplates.peek r.space a = templateByte s.cfg r a) ∧
    ∀ a, s.copyTemplates.peek .store a = s.peek .store a := by
  unfold State.copyTemplates regionSize
  refine ⟨fun r a ha => ?_, fun a => ?_⟩
  · cases r
    · rw [copyTemplate_peek, if_neg (by simp [Region.space]), copyTemplate_peek, if_pos ⟨rfl, by omega, by omega⟩]
    · rw [copyTemplate_peek, if_pos ⟨rfl, by omega, by omega⟩, (StoreQuiet.copyTemplate _ _ _ _).cfg]
  · rw [copyTemplate_peek, if_neg (by simp [Region.space]), copyTemplate_peek, if_neg (by simp [Region.space])]

/-- What writing both templates leaves in the store (R292). -/
theorem storeTemplates_peek {s : State} (hc : s.cfg.Facts) (r : Region) {a : Nat} (ha : a < s.cfg.size r.space) :
    (storeTemplate .status (regionSize s.cfg .status) 0 (storeTemplate .data (regionSize s.cfg .data) 0 s)).peek .store
      (s.cfg.base r + a) = templateByte s.cfg r a := by
  have hq := StoreQuiet.storeTemplate .data (regionSize s.cfg .data) 0 s
  unfold regionSize at *
  rw [storeTemplate_peek, hq.cfg, storeTemplate_peek]
  have hd := hc.disjoint
  cases r
  · simp only [Config.base, Config.size, Region.space] at *
    rw [if_neg (fun h => by omega), if_pos ⟨trivial, by omega, by omega⟩]
    congr 1; omega
  · rw [if_pos ⟨rfl, by omega, by omega⟩]
    congr 1; omega

theorem State.copyTemplates_memoryWf {s : State} (h : s.memoryWf) : s.copyTemplates.memoryWf := by
  refine copyTemplate_memoryWf _ _ _ ?_ (copyTemplate_memoryWf _ _ _ ?_ h)
  · rw [(StoreQuiet.copyTemplate _ _ _ _).cfg, regionSize]; omega
  · rw [regionSize]; omega

theorem State.loadStore_memoryWf {s : State} (h : s.memoryWf) : s.loadStore.memoryWf := by
  refine loadRegion_memoryWf _ _ _ ?_ (loadRegion_memoryWf _ _ _ ?_ h)
  · rw [(StoreQuiet.loadRegion _ _ _ _).cfg, regionSize]; omega
  · rw [regionSize]; omega

theorem State.factoryResetBody_memoryWf {s : State} (hc : s.cfg.Facts) (h : s.memoryWf) :
    s.factoryResetBody.memoryWf := by
  unfold State.factoryResetBody
  split
  · have hq := (StoreQuiet.storeTemplate .data (regionSize s.cfg .data) 0 s).cfg
    have hd := storeTemplate_memoryWf .data (regionSize s.cfg .data) 0 hc (by rw [regionSize]; omega) h
    refine State.loadStore_memoryWf (storeTemplate_memoryWf .status _ 0 (by rw [hq]; exact hc) ?_ hd)
    rw [hq, regionSize]; omega
  · exact State.copyTemplates_memoryWf h

theorem State.constructImage_memoryWf {s : State} (hc : s.cfg.Facts) (h : s.memoryWf) : s.constructImage.memoryWf := by
  have hb := StoreQuiet.blankLoop s.cfg.blankSample 0 s
  have hm := blankLoop_mem s.cfg.blankSample 0 s
  unfold State.constructImage State.blankCheck
  split
  · exact State.copyTemplates_memoryWf h
  · rcases hx : Machine.blankLoop s.cfg.blankSample 0 s with ⟨_ | _, t⟩ <;> rw [hx] at hb hm
    all_goals have ht : t.memoryWf := fun q => by rw [hb.cfg, hm]; exact h q
    · exact State.loadStore_memoryWf ht
    · exact State.factoryResetBody_memoryWf (hb.cfg ▸ hc) ht

/-- Clearing everything: trackers and commit only (R40). -/
theorem State.clearAll_rest (s : State) : (∀ r, s.clearAll.dirty r = .empty) ∧ s.clearAll.commit = .idle ∧
    s.clearAll.cfg = s.cfg ∧ (∀ q, s.clearAll.mem q = s.mem q) ∧ (∀ q a, s.clearAll.peek q a = s.peek q a) ∧
    s.clearAll.constructed = s.constructed ∧ s.clearAll.phase = s.phase ∧ s.clearAll.cmd = s.cmd ∧
    s.clearAll.ta = s.ta ∧ s.clearAll.crc = s.crc ∧ s.clearAll.lastBus = s.lastBus ∧ s.clearAll.env = s.env ∧
    s.clearAll.trace = s.trace ∧ s.clearAll.result = s.result ∧ s.clearAll.freeCount = s.freeCount := by
  refine ⟨fun r => by cases r <;> rfl, rfl, rfl, fun q => by cases q <;> rfl, fun q a => by cases q <;> rfl, rfl, rfl, rfl,
    rfl, rfl, rfl, rfl, rfl, rfl, rfl⟩

/-- A template byte inside the region is the template's entry. -/
theorem templateByte_getElem? {cfg : Config} (hc : cfg.Facts) (r : Region) {i : Nat} (hi : i < cfg.size r.space) :
    (cfg.template r)[i]? = some (templateByte cfg r i) := by
  have h : i < (cfg.template r).length := by rw [hc.template_length r]; exact hi
  simp [templateByte, List.getD, h]

/-! ## The answers of store reads that may diverge (U9) -/

/-- A store read answers the first pending answer, uses it up, and changes nothing else of the environment. -/
theorem State.storeReadByte_answers (s : State) (a : Nat) :
    (s.storeReadByte a).1 = s.answers 0 (s.peek .store a) ∧
    (s.storeReadByte a).2.env = { s.env with reads := s.env.reads.drop 1 } := by
  rw [State.storeReadByte_eq]
  rcases h : s.env.reads with _ | ⟨v, rest⟩
  · refine ⟨by simp [State.answers, h], ?_⟩
    show s.env = { s.env with reads := [] }
    rw [← h]
  · simp [State.answers, h]

/-- Later answers, seen from a state that has used up `n` of them. -/
theorem State.answers_of_reads {s t : State} {n : Nat} (h : t.env.reads = s.env.reads.drop n) (k : Nat) (b : Byte) :
    t.answers k b = s.answers (n + k) b := by
  simp [State.answers, h]

theorem State.answers_of_nil {s : State} (h : s.env.reads = []) (k : Nat) (b : Byte) : s.answers k b = b := by
  simp [State.answers, h]

/-- The image after loading a region: what each read answers (R294). -/
theorem loadRegion_answers (r : Region) (n i : Nat) (s : State) (q : Space) (a : Nat) :
    (loadRegion r n i s).peek q a =
      if r.space = q ∧ i ≤ a ∧ a < i + n then s.answers (a - i) (s.peek .store (s.cfg.base r + a)) else s.peek q a := by
  induction n generalizing i s with
  | zero => rw [if_neg (by omega)]; rfl
  | succ n ih =>
    have hq := (StoreQuiet.storeReadByte s (s.cfg.base r + i)).cfg
    have hr := congrArg Env.reads (s.storeReadByte_answers (s.cfg.base r + i)).2
    have hst : ∀ x, ((s.storeReadByte (s.cfg.base r + i)).2.poke r.space i
        (s.storeReadByte (s.cfg.base r + i)).1).peek .store x = s.peek .store x := fun x => by
      rw [State.peek_poke, if_neg (by cases r <;> simp [Region.space]), State.storeReadByte_peek]
    rw [loadRegion]
    dsimp only
    rw [ih, hst, State.answers_of_reads (s := s) (n := 1) (by rw [State.poke_env]; exact hr), State.poke_cfg, hq,
      State.peek_poke, State.storeReadByte_peek, (s.storeReadByte_answers _).1]
    by_cases hs : r.space = q
    · by_cases ha : a = i
      · subst ha; simp [hs]
      · by_cases hin : i + 1 ≤ a ∧ a < i + 1 + n
        · rw [if_pos ⟨hs, hin⟩, if_pos ⟨hs, by omega⟩]
          congr 1; omega
        · rw [if_neg (fun h => hin h.2), if_neg (fun h => ha h.2), if_neg (fun h => hin (by omega))]
    · simp [hs]

/-- What loading a region shows and the answers it uses up: one read per byte. -/
theorem loadRegion_env (r : Region) (n i : Nat) (s : State) :
    (loadRegion r n i s).env = { s.env with reads := s.env.reads.drop n } ∧
    (loadRegion r n i s).trace = ((List.range' i n).map fun j => Shown.storeRead (s.cfg.base r + j)).reverse ++ s.trace := by
  induction n generalizing i s with
  | zero => exact ⟨rfl, rfl⟩
  | succ n ih =>
    have hq := (StoreQuiet.storeReadByte s (s.cfg.base r + i)).cfg
    have hr := (s.storeReadByte_answers (s.cfg.base r + i)).2
    rw [loadRegion]
    dsimp only
    rw [(ih _ _).1, (ih _ _).2, State.poke_cfg, hq, State.poke_env, hr, State.poke_trace, State.storeReadByte_trace]
    simp [List.range'_succ, Nat.add_comm]

/-- What writing a template shows: every byte, unconditionally (R292). -/
theorem storeTemplate_trace (r : Region) (n i : Nat) (s : State) : (storeTemplate r n i s).trace =
    ((List.range' i n).map fun j => Shown.storeWrite (s.cfg.base r + j) (templateByte s.cfg r j)).reverse ++ s.trace := by
  induction n generalizing i s with
  | zero => rfl
  | succ n ih =>
    rw [storeTemplate, ih, (StoreQuiet.storeWriteByte s _ _).cfg, State.storeWriteByte_trace]
    simp [List.range'_succ]

theorem storeTemplate_env (r : Region) (n i : Nat) (s : State) : (storeTemplate r n i s).env = s.env := by
  induction n generalizing i s with
  | zero => rfl
  | succ n ih => rw [storeTemplate, ih]; simp [State.storeWriteByte]

/-- A region's whole template, as writing it byte by byte shows it. -/
theorem templateWrites_eq {cfg : Config} (hc : cfg.Facts) (r : Region) : templateWrites cfg r =
    (List.range' 0 (cfg.size r.space)).map fun j => Shown.storeWrite (cfg.base r + j) (templateByte cfg r j) := by
  rw [← hc.template_length r]
  apply List.ext_getElem
  · simp [templateWrites]
  · intro i h1 h2
    have hi : i < (cfg.template r).length := by simpa [templateWrites] using h1
    simp [templateWrites, templateByte, List.getD, hi]

/-- LOAD_STORE, whatever the store's reads answer (R294). -/
theorem State.loadStore_answers (s : State) :
    (∀ r a, a < s.cfg.size (Region.space r) →
      s.loadStore.peek r.space a = s.answers (loadsBefore s.cfg r + a) (s.peek .store (s.cfg.base r + a))) ∧
    (∀ a, s.loadStore.peek .store a = s.peek .store a) ∧
    s.loadStore.env = { s.env with reads := s.env.reads.drop (s.cfg.dataSize + s.cfg.statusSize) } ∧
    s.loadStore.trace = (loadShown s.cfg).reverse ++ s.trace := by
  unfold State.loadStore regionSize
  have hq := (StoreQuiet.loadRegion .data (s.cfg.size Region.data.space) 0 s).cfg
  have hd := loadRegion_env .data (s.cfg.size Region.data.space) 0 s
  have hs := loadRegion_env .status (s.cfg.size Region.status.space) 0
    (loadRegion .data (s.cfg.size Region.data.space) 0 s)
  refine ⟨fun r a ha => ?_, fun a => ?_, ?_, ?_⟩
  · cases r
    · rw [loadRegion_answers, if_neg (by simp [Region.space]), loadRegion_answers, if_pos ⟨rfl, by omega, by omega⟩]
      simp [loadsBefore]
    · rw [loadRegion_answers, if_pos ⟨rfl, by omega, by omega⟩, loadRegion_store,
        State.answers_of_reads (s := s) (congrArg Env.reads hd.1), hq]
      simp [loadsBefore, Config.size, Region.space]
  · rw [loadRegion_store, loadRegion_store]
  · rw [hs.1, hd.1]
    simp [Config.size, Region.space, Nat.add_comm]
  · rw [hs.2, hd.2, hq]
    simp [loadShown, regionReads, List.range_eq_range']

/-- FACTORY_RESET_BODY with persistence, whatever the store's reads answer (R292). -/
theorem State.factoryResetBody_answers {s : State} (hc : s.cfg.Facts) (hp : s.cfg.persistEn = true) :
    (∀ r a, a < s.cfg.size (Region.space r) →
      s.factoryResetBody.peek .store (s.cfg.base r + a) = templateByte s.cfg r a ∧
      s.factoryResetBody.peek r.space a = s.answers (loadsBefore s.cfg r + a) (templateByte s.cfg r a)) ∧
    s.factoryResetBody.env = { s.env with reads := s.env.reads.drop (s.cfg.dataSize + s.cfg.statusSize) } ∧
    s.factoryResetBody.trace = (factoryShown s.cfg).reverse ++ s.trace := by
  unfold State.factoryResetBody
  rw [if_pos hp]
  have hq1 := StoreQuiet.storeTemplate .data (regionSize s.cfg .data) 0 s
  have hq := hq1.trans (StoreQuiet.storeTemplate .status (regionSize s.cfg .status) 0 _)
  have he := (storeTemplate_env .status (regionSize s.cfg .status) 0 _).trans
    (storeTemplate_env .data (regionSize s.cfg .data) 0 s)
  obtain ⟨h1, h2, h3, h4⟩ := State.loadStore_answers
    (storeTemplate .status (regionSize s.cfg .status) 0 (storeTemplate .data (regionSize s.cfg .data) 0 s))
  rw [hq.cfg] at h1 h3 h4
  refine ⟨fun r a ha => ⟨?_, ?_⟩, by rw [h3, he], ?_⟩
  · rw [h2]; exact storeTemplates_peek hc r ha
  · rw [h1 r a ha, storeTemplates_peek hc r ha, State.answers_of_reads (s := s) (n := 0) (by rw [he]; rfl), Nat.zero_add]
  · rw [h4, storeTemplate_trace, storeTemplate_trace, hq1.cfg]
    simp [factoryShown, templateWrites_eq hc, regionSize]

/-- BLANK_CHECK's loop from index `i`, whatever its reads answer: the read that stops it, or none (R291). -/
theorem blankLoop_answers (n i : Nat) (s : State) :
    ((blankLoop n i s).1 = true ∧ (∀ j < 2 * n, s.answers j (s.peek .store (sampleAddress s.cfg (2 * i + j))) = 0xFF) ∧
      (blankLoop n i s).2.env = { s.env with reads := s.env.reads.drop (2 * n) } ∧
      ∃ new, (blankLoop n i s).2.trace = new ++ s.trace ∧ new.length = 2 * n ∧ storeReads new = 2 * n ∧
        storeWrites new = 0) ∨
    ∃ k < 2 * n, (blankLoop n i s).1 = false ∧
      (∀ j < k, s.answers j (s.peek .store (sampleAddress s.cfg (2 * i + j))) = 0xFF) ∧
      s.answers k (s.peek .store (sampleAddress s.cfg (2 * i + k))) ≠ 0xFF ∧
      (blankLoop n i s).2.env = { s.env with reads := s.env.reads.drop (k + 1) } ∧
      ∃ new, (blankLoop n i s).2.trace = new ++ s.trace ∧ new.length = k + 1 ∧ storeReads new = k + 1 ∧
        storeWrites new = 0 := by
  induction n generalizing i s with
  | zero => exact .inl ⟨rfl, fun j hj => by omega, rfl, [], rfl, rfl, rfl, rfl⟩
  | succ n ih =>
    have hq := (StoreQuiet.storeReadByte s (s.cfg.base .data + i)).cfg
    have hd := s.storeReadByte_answers (s.cfg.base .data + i)
    have hs := (s.storeReadByte (s.cfg.base .data + i)).2.storeReadByte_answers (s.cfg.base .status + i)
    have hq2 := (StoreQuiet.storeReadByte (s.storeReadByte (s.cfg.base .data + i)).2 (s.cfg.base .status + i)).cfg
    have ad : sampleAddress s.cfg (2 * i) = s.cfg.base .data + i := by
      rw [sampleAddress, if_pos (by omega)]; congr 1; omega
    have as : sampleAddress s.cfg (2 * i + 1) = s.cfg.base .status + i := by
      rw [sampleAddress, if_neg (by omega)]; congr 1; omega
    have e0 := hd.1
    have e1 : ((s.storeReadByte (s.cfg.base .data + i)).2.storeReadByte (s.cfg.base .status + i)).1 =
        s.answers 1 (s.peek .store (s.cfg.base .status + i)) := by
      rw [hs.1, State.answers_of_reads (s := s) (n := 1) (by rw [hd.2]), State.storeReadByte_peek]
    have en : ((s.storeReadByte (s.cfg.base .data + i)).2.storeReadByte (s.cfg.base .status + i)).2.env =
        { s.env with reads := s.env.reads.drop 2 } := by rw [hs.2, hd.2]; simp
    have tr : ((s.storeReadByte (s.cfg.base .data + i)).2.storeReadByte (s.cfg.base .status + i)).2.trace =
        [.storeRead (s.cfg.base .status + i), .storeRead (s.cfg.base .data + i)] ++ s.trace := by simp
    rw [blankLoop_succ, hq]
    by_cases c0 : s.answers 0 (s.peek .store (s.cfg.base .data + i)) = 0xFF
    · rw [if_neg (by rw [e0]; exact not_not.2 c0)]
      by_cases c1 : s.answers 1 (s.peek .store (s.cfg.base .status + i)) = 0xFF
      · rw [if_neg (by rw [e1]; exact not_not.2 c1)]
        have pk : ∀ j, ((s.storeReadByte (s.cfg.base .data + i)).2.storeReadByte (s.cfg.base .status + i)).2.answers j
            (((s.storeReadByte (s.cfg.base .data + i)).2.storeReadByte (s.cfg.base .status + i)).2.peek .store
              (sampleAddress ((s.storeReadByte (s.cfg.base .data + i)).2.storeReadByte (s.cfg.base .status + i)).2.cfg
                (2 * (i + 1) + j))) =
            s.answers (j + 2) (s.peek .store (sampleAddress s.cfg (2 * i + (j + 2)))) := fun j => by
          rw [State.answers_of_reads (s := s) (n := 2) (by rw [en]), hq2, hq, State.storeReadByte_peek,
            State.storeReadByte_peek, Nat.add_comm 2 j, show 2 * (i + 1) + j = 2 * i + (j + 2) by omega]
        have all : ∀ m, (∀ j < m, s.answers (j + 2) (s.peek .store (sampleAddress s.cfg (2 * i + (j + 2)))) = 0xFF) →
            ∀ j < m + 2, s.answers j (s.peek .store (sampleAddress s.cfg (2 * i + j))) = 0xFF := by
          intro m h j hj
          rcases j with _ | _ | j
          · rw [Nat.add_zero, ad]; exact c0
          · rw [as]; exact c1
          · exact h j (by omega)
        rcases ih (i + 1) ((s.storeReadByte (s.cfg.base .data + i)).2.storeReadByte (s.cfg.base .status + i)).2 with
          ⟨h1, h2, h3, l, h4, h5, h6, h7⟩ | ⟨k, hk, h1, h2, h2', h3, l, h4, h5, h6, h7⟩
        · simp only [pk] at h2
          refine .inl ⟨h1, all (2 * n) h2, by
            rw [h3, en]; simp only [List.drop_drop]; rw [show 2 + 2 * n = 2 * (n + 1) by omega],
            l ++ [.storeRead (s.cfg.base .status + i), .storeRead (s.cfg.base .data + i)], by
            rw [h4, tr, ← List.append_assoc], by simp [h5, Nat.mul_add], ?_, ?_⟩
          · rw [storeReads, List.countP_append]; exact congrArg (· + 2) h6
          · rw [storeWrites, List.countP_append]; exact h7
        · simp only [pk] at h2 h2'
          refine .inr ⟨k + 2, by omega, h1, all k h2, h2', by
            rw [h3, en]; simp only [List.drop_drop]; rw [show 2 + (k + 1) = k + 2 + 1 by omega],
            l ++ [.storeRead (s.cfg.base .status + i), .storeRead (s.cfg.base .data + i)], by
            rw [h4, tr, ← List.append_assoc], by simp [h5], ?_, ?_⟩
          · rw [storeReads, List.countP_append]; exact congrArg (· + 2) h6
          · rw [storeWrites, List.countP_append]; exact h7
      · rw [if_pos (by rw [e1]; exact c1)]
        refine .inr ⟨1, by omega, rfl, fun j hj => ?_, by rw [as]; exact c1, en, _, tr, rfl, rfl, rfl⟩
        obtain rfl : j = 0 := by omega
        rw [Nat.add_zero, ad]; exact c0
    · rw [if_pos (by rw [e0]; exact c0)]
      exact .inr ⟨0, by omega, rfl, fun j hj => by omega, by rw [Nat.add_zero, ad]; exact c0, hd.2,
        [.storeRead (s.cfg.base .data + i)], by simp, rfl, rfl, rfl⟩

end Sys2Proof.Machine
end

