-- ==== Sys2Proof/Laws/Operands.lean ====
section
/-! SUPPORT. TRANSLATE and LOCATE, said once: when an address is mapped and where, and that every valid index lies
inside its region. -/

namespace Sys2Proof.Machine

/-- A lookup in a table with distinct keys finds exactly the table's pairs. -/
theorem lookup_eq_some_iff {l : List (Nat × Nat)} (h : (l.map Prod.fst).Nodup) (k v : Nat) :
    l.lookup k = some v ↔ (k, v) ∈ l := by
  induction l with
  | nil => simp
  | cons e l ih =>
    obtain ⟨x, y⟩ := e
    simp only [List.map_cons, List.nodup_cons] at h
    by_cases hx : k = x
    · subst hx
      have : (k, v) ∉ l := fun hm => h.1 (List.mem_map.2 ⟨_, hm, rfl⟩)
      simp [this, eq_comm]
    · have hb : (k == x) = false := by simpa using hx
      simp [List.lookup, hb, ih h.2, hx]

/-- A page's slot and offset give an index below DATA_SIZE (R132 (c)). -/
theorem slot_offset_lt {cfg : Config} (h : cfg.Facts) {lp ps off : Nat} (he : (lp, ps) ∈ cfg.pageMap)
    (ho : off < cfg.pageSize) : ps * cfg.pageSize + off < cfg.dataSize := by
  have h1 : ps < cfg.slots := h.slots_lt _ he
  calc ps * cfg.pageSize + off < ps * cfg.pageSize + cfg.pageSize := by omega
    _ = (ps + 1) * cfg.pageSize := by rw [Nat.succ_mul]
    _ ≤ cfg.dataSize := Nat.mul_le_mul_right _ h1

/-- TRANSLATE, complete (R130, R131). -/
theorem translate_mapped_iff {cfg : Config} (h : cfg.Facts) (a : Nat) (p : Word16) :
    translate cfg a = .mapped p ↔
      a < cfg.totalSpace ∧ ∃ ps, (a / cfg.pageSize, ps) ∈ cfg.pageMap ∧ p.toNat = ps * cfg.pageSize + a % cfg.pageSize := by
  have hoff : a % cfg.pageSize < cfg.pageSize := Nat.mod_lt _ cfg.pageSize_pos
  unfold translate
  by_cases ha : cfg.totalSpace ≤ a
  · simp [ha, Nat.not_lt.2 ha]
  · rw [if_neg ha]
    simp only [Nat.not_le.1 ha, true_and]
    cases hl : cfg.pageMap.lookup (a / cfg.pageSize) with
    | none =>
      simp only [reduceCtorEq, false_iff, not_exists, not_and]
      intro ps hps
      rw [← lookup_eq_some_iff h.pages_nodup, hl] at hps
      cases hps
    | some ps =>
      have hmem := (lookup_eq_some_iff h.pages_nodup _ _).1 hl
      have hlt := (slot_offset_lt h hmem hoff).trans_le h.data_le_65536
      simp only [Translation.mapped.injEq]
      constructor
      · rintro rfl
        exact ⟨ps, hmem, by simp only [BitVec.toNat_ofNat]; exact Nat.mod_eq_of_lt hlt⟩
      · rintro ⟨qs, hq, hp⟩
        rw [← lookup_eq_some_iff h.pages_nodup, hl] at hq
        cases hq
        apply BitVec.eq_of_toNat_eq
        rw [hp, BitVec.toNat_ofNat]; exact Nat.mod_eq_of_lt hlt

/-- A mapped address lies below DATA_SIZE (R130). -/
theorem translate_lt {cfg : Config} (h : cfg.Facts) {a : Nat} {p : Word16} (hp : translate cfg a = .mapped p) :
    p.toNat < cfg.dataSize := by
  obtain ⟨-, ps, hm, he⟩ := (translate_mapped_iff h a p).1 hp
  rw [he]; exact slot_offset_lt h hm (Nat.mod_lt _ cfg.pageSize_pos)

/-- A valid location lies inside its region (R205 (e)). -/
theorem locate_lt {cfg : Config} (h : cfg.Facts) {r : Region} {ta i : Word16} (hl : locate cfg r ta = .valid i) :
    i.toNat < cfg.size r.space := by
  cases r with
  | data =>
    simp only [locate] at hl
    cases hp : translate cfg ta.toNat with
    | mapped p => rw [hp] at hl; cases hl; exact translate_lt h hp
    | unmapped => rw [hp] at hl; cases hl
  | status =>
    simp only [locate] at hl
    by_cases hlt : ta.toNat < cfg.statusSize
    · rw [if_pos hlt] at hl; cases hl; exact hlt
    · rw [if_neg hlt] at hl; cases hl

end Sys2Proof.Machine
end

