-- ==== Sys2Proof/Laws/Commands.lean ====
section
/-! SUPPORT. The dispatcher: what BURN and the command loops can do, said once. -/

namespace Sys2Proof.Machine

variable {s : State}

/-! ## BURN -/

/-- BURN, by whether the value changes (R175). -/
theorem State.burn_eq (r : Region) (i : Word16) (b : Byte) (s : State) : s.burn r i b =
    if s.peek r.space i.toNat &&& b = s.peek r.space i.toNat then s
    else (s.poke r.space i.toNat (s.peek r.space i.toNat &&& b)).mark r i := by
  unfold State.burn
  by_cases h : s.peek r.space i.toNat &&& b = s.peek r.space i.toNat <;> simp [h]

/-- The byte a burn leaves (R175). -/
theorem State.burn_peek (r : Region) (i : Word16) (b : Byte) (s : State) (sp : Space) (a : Nat) :
    (s.burn r i b).peek sp a = if r.space = sp ∧ a = i.toNat then s.peek sp a &&& b else s.peek sp a := by
  rw [State.burn_eq]
  split
  · next h =>
    split
    · next k => obtain ⟨rfl, rfl⟩ := k; exact h.symm
    · rfl
  · rw [State.mark, State.setDirty_peek, State.peek_poke]
    split
    · next k => obtain ⟨rfl, rfl⟩ := k; rfl
    · rfl

@[simp] theorem State.mark_cfg (r : Region) (i : Word16) (s : State) : (s.mark r i).cfg = s.cfg := by simp [State.mark]
@[simp] theorem State.mark_phase (r : Region) (i : Word16) (s : State) : (s.mark r i).phase = s.phase := by
  simp [State.mark]

/-- What a burn never writes: everything but one byte of its region and its region's tracker. -/
theorem State.burn_rest (r : Region) (i : Word16) (b : Byte) (s : State) :
    (s.burn r i b).cfg = s.cfg ∧ (s.burn r i b).constructed = s.constructed ∧ (s.burn r i b).phase = s.phase ∧
    (s.burn r i b).cmd = s.cmd ∧ (s.burn r i b).ta = s.ta ∧ (s.burn r i b).crc = s.crc ∧
    (s.burn r i b).store = s.store ∧ (s.burn r i b).commit = s.commit ∧ (s.burn r i b).lastBus = s.lastBus ∧
    (s.burn r i b).env = s.env ∧ (s.burn r i b).trace = s.trace ∧ (s.burn r i b).result = s.result ∧
    (s.burn r i b).freeCount = s.freeCount := by
  rw [State.burn_eq]
  split
  · simp
  · cases r <;> simp [State.mark, State.poke, Region.space]

@[simp] theorem State.burn_cfg (r : Region) (i : Word16) (b : Byte) (s : State) : (s.burn r i b).cfg = s.cfg :=
  (s.burn_rest r i b).1
@[simp] theorem State.burn_env (r : Region) (i : Word16) (b : Byte) (s : State) : (s.burn r i b).env = s.env :=
  (s.burn_rest r i b).2.2.2.2.2.2.2.2.2.1

/-- The tracker after a burn. -/
theorem State.burn_dirty (r : Region) (i : Word16) (b : Byte) (s : State) (q : Region) :
    (s.burn r i b).dirty q =
      if r = q ∧ s.peek r.space i.toNat &&& b ≠ s.peek r.space i.toNat then (s.dirty q).mark i else s.dirty q := by
  rw [State.burn_eq]
  by_cases h : s.peek r.space i.toNat &&& b = s.peek r.space i.toNat
  · simp [h]
  · by_cases hq : r = q
    · subst hq; simp [State.mark, h]
    · simp [State.mark, h, hq]

/-- A second burn of the same byte changes nothing (R77, R179 (d)). -/
theorem State.burn_burn (r : Region) (i : Word16) (b : Byte) (s : State) : (s.burn r i b).burn r i b = s.burn r i b := by
  have : (s.burn r i b).peek r.space i.toNat &&& b = (s.burn r i b).peek r.space i.toNat := by
    rw [State.burn_peek]; simp [BitVec.and_assoc]
  rw [State.burn_eq, if_pos this]

/-! ## MARK -/

theorem DirtyRange.mark_low (d : DirtyRange) (i : Word16) : (d.mark i).low.toNat = min d.low.toNat i.toNat := by
  unfold DirtyRange.mark; dsimp only; split <;> omega

theorem DirtyRange.mark_high (d : DirtyRange) (i : Word16) : (d.mark i).high.toNat = max d.high.toNat i.toNat := by
  unfold DirtyRange.mark; dsimp only; split <;> omega

@[simp] theorem DirtyRange.mark_flag (d : DirtyRange) (i : Word16) : (d.mark i).flag = true := rfl

/-- MARK from a cleared tracker gives the one index (R201). -/
theorem DirtyRange.mark_empty (i : Word16) : DirtyRange.empty.mark i = ⟨true, i, i⟩ := by
  have hl : DirtyRange.empty.low.toNat = 65535 := rfl
  have hh : DirtyRange.empty.high.toNat = 0 := rfl
  have hi := i.isLt
  have e1 : (DirtyRange.empty.mark i).low = i :=
    BitVec.eq_of_toNat_eq (by rw [DirtyRange.mark_low, hl]; omega)
  have e2 : (DirtyRange.empty.mark i).high = i :=
    BitVec.eq_of_toNat_eq (by rw [DirtyRange.mark_high, hh]; omega)
  calc DirtyRange.empty.mark i = ⟨true, (DirtyRange.empty.mark i).low, (DirtyRange.empty.mark i).high⟩ := rfl
    _ = ⟨true, i, i⟩ := by rw [e1, e2]

/-! ## Read commands -/

theorem readMemoryLoop_succ (n a : Nat) (s : State) : readMemoryLoop (n + 1) a s =
    if (s.send (s.logicalByte a)).1 = true then
      readMemoryLoop n (a + 1) ((s.send (s.logicalByte a)).2.setTa (BitVec.ofNat 16 (a + 1)))
    else (s.send (s.logicalByte a)).2.takeError .transportFailure := by
  rw [readMemoryLoop]
  rcases s.send (s.logicalByte a) with ⟨_ | _, t⟩ <;> rfl

theorem readStatusLoop_succ (n a : Nat) (s : State) : readStatusLoop (n + 1) a s =
    if (s.send (s.peek .status a)).1 = true then
      if (a + 1) % 8 = 0 then
        if (((s.send (s.peek .status a)).2.setTa (BitVec.ofNat 16 (a + 1))).crcEmit).1 = true then
          readStatusLoop n (a + 1)
            ((((s.send (s.peek .status a)).2.setTa (BitVec.ofNat 16 (a + 1))).crcEmit).2.setCrc 0)
        else (((s.send (s.peek .status a)).2.setTa (BitVec.ofNat 16 (a + 1))).crcEmit).2.takeError .transportFailure
      else readStatusLoop n (a + 1) ((s.send (s.peek .status a)).2.setTa (BitVec.ofNat 16 (a + 1)))
    else (s.send (s.peek .status a)).2.takeError .transportFailure := by
  rw [readStatusLoop]
  rcases s.send (s.peek .status a) with ⟨_ | _, t⟩
  · rfl
  · dsimp only
    split
    · rcases (t.setTa (BitVec.ofNat 16 (a + 1))).crcEmit with ⟨_ | _, u⟩ <;> rfl
    · rfl

theorem Quiet.readMemoryLoop (n a : Nat) (s : State) : Quiet s (readMemoryLoop n a s) := by
  induction n generalizing a s with
  | zero => exact (Quiet.crcEmit s).trans (.endTransaction _)
  | succ n ih =>
    rw [readMemoryLoop_succ]
    split
    · exact (Quiet.send s _).trans ((Quiet.setTa _ _).trans (ih _ _))
    · exact (Quiet.send s _).trans (.takeError _ _)

theorem Quiet.readStatusLoop (n a : Nat) (s : State) : Quiet s (readStatusLoop n a s) := by
  induction n generalizing a s with
  | zero => exact .endTransaction s
  | succ n ih =>
    rw [readStatusLoop_succ]
    split
    · split
      · split
        · exact (Quiet.send s _).trans ((Quiet.setTa _ _).trans ((Quiet.crcEmit _).trans ((Quiet.setCrc _ _).trans (ih _ _))))
        · exact (Quiet.send s _).trans ((Quiet.setTa _ _).trans ((Quiet.crcEmit _).trans (.takeError _ _)))
      · exact (Quiet.send s _).trans ((Quiet.setTa _ _).trans (ih _ _))
    · exact (Quiet.send s _).trans (.takeError _ _)

theorem readMemoryLoop_phase (n a : Nat) (s : State) : (readMemoryLoop n a s).phase = .done := by
  induction n generalizing a s with
  | zero => rfl
  | succ n ih => rw [readMemoryLoop_succ]; split <;> simp [ih]

theorem readStatusLoop_phase (n a : Nat) (s : State) : (readStatusLoop n a s).phase = .done := by
  induction n generalizing a s with
  | zero => rfl
  | succ n ih =>
    rw [readStatusLoop_succ]
    split
    · split
      · split <;> simp [ih]
      · exact ih _ _
    · simp

/-- READ_MEMORY changes bus matters only (R75, R150). -/
theorem Quiet.readMemory (ta : Word16) (s : State) : Quiet s (s.readMemory ta) :=
  (Quiet.beginCommand s _ _ _).trans (.readMemoryLoop _ _ _)

/-- READ_STATUS changes bus matters only (R75, R155). -/
theorem Quiet.readStatus (ta : Word16) (s : State) : Quiet s (s.readStatus ta) :=
  (Quiet.beginCommand s _ _ _).trans (.readStatusLoop _ _ _)

theorem State.readMemory_phase (ta : Word16) (s : State) : (s.readMemory ta).phase = .done := readMemoryLoop_phase _ _ _
theorem State.readStatus_phase (ta : Word16) (s : State) : (s.readStatus ta).phase = .done := readStatusLoop_phase _ _ _

/-! ## The write loop -/

theorem Quiet.unknownCommand (code : Byte) (ta : Word16) (s : State) : Quiet s (s.unknownCommand code ta) :=
  (Quiet.beginCommand s _ _ _).trans (.takeError _ _)

/-- One turn of the write loop, by the answer of the receive and the validity of the location (R172). -/
theorem writeLoop_succ (r : Region) (n : Nat) (s : State) : writeLoop r (n + 1) s =
    match s.recv.1 with
    | none => s.recv.2.takeError .endOfWrite
    | some b =>
      match locate s.cfg r s.ta with
      | .invalid => if s.cfg.strict then s.recv.2.takeError .invalidWriteAddress else writeLoop r n s.recv.2.advanceTa
      | .valid i => writeLoop r n (s.recv.2.burn r i b).advanceTa := by
  have h1 : s.recv.2.cfg = s.cfg := s.recv_cfg
  have h2 : s.recv.2.ta = s.ta := s.recv_rest.2.1
  rw [writeLoop, ← h1, ← h2]
  rcases s.recv with ⟨_ | b, t⟩ <;> rfl

/-- What holds of a write and is kept by every turn of its loop: `P` is kept by a quiet change and by a burn at a valid
index. -/
theorem writeLoop_induction {P : State → Prop} (r : Region)
    (quiet : ∀ s t, Quiet s t → P s → P t)
    (burn : ∀ s i b, locate s.cfg r s.ta = .valid i → P s → P (s.burn r i b))
    (n : Nat) (s : State) (h : P s) : P (writeLoop r n s) := by
  induction n generalizing s with
  | zero => exact quiet _ _ ((Quiet.recv s).trans (.takeError _ _)) h
  | succ n ih =>
    rw [writeLoop_succ]
    split
    · exact quiet _ _ ((Quiet.recv s).trans (.takeError _ _)) h
    · split
      · split
        · exact quiet _ _ ((Quiet.recv s).trans (.takeError _ _)) h
        · exact ih _ (quiet _ _ ((Quiet.recv s).trans (.setTa _ _)) h)
      · next i hl =>
        refine ih _ (quiet _ _ (.setTa _ _) (burn _ i _ ?_ (quiet _ _ (Quiet.recv s) h)))
        rw [s.recv_cfg, s.recv_rest.2.1]; exact hl

/-- The bytes that land on an index, one payload byte at a time. -/
theorem landing_cons (cfg : Config) (r : Region) (ta : Word16) (b : Byte) (payload : List Byte) (i : Nat) :
    landing cfg r ta (b :: payload) i =
      (match locate cfg r ta with
        | .valid j => if j.toNat = i then [b] else []
        | .invalid => []) ++ landing cfg r (ta + 1) payload i := by
  have shift : ∀ (p : List Byte) (k : Nat), (((p.zipIdx (k + 1)).filter fun bk =>
        match locate cfg r (ta + BitVec.ofNat 16 bk.2) with
        | .valid j => decide (j.toNat = i)
        | .invalid => false).map Prod.fst) = (((p.zipIdx k).filter fun bk =>
        match locate cfg r (ta + 1 + BitVec.ofNat 16 bk.2) with
        | .valid j => decide (j.toNat = i)
        | .invalid => false).map Prod.fst) := by
    intro p
    induction p with
    | nil => intro k; rfl
    | cons b p ih =>
      intro k
      have e : ta + BitVec.ofNat 16 (k + 1) = ta + 1 + BitVec.ofNat 16 k := by
        rw [Nat.add_comm, BitVec.ofNat_add, ← BitVec.add_assoc]; rfl
      simp only [List.zipIdx_cons, List.filter_cons, e]
      split
      · simp [ih]
      · exact ih _
  have e0 : ta + BitVec.ofNat 16 0 = ta := by simp
  unfold landing
  simp only [List.zipIdx_cons, List.filter_cons, e0]
  cases hl : locate cfg r ta with
  | valid j =>
    by_cases hj : j.toNat = i
    · simp only [hj, decide_true, if_true, List.map_cons, List.singleton_append, List.cons.injEq, true_and]
      exact shift payload 0
    · simp only [hj, decide_false, Bool.false_eq_true, if_false, List.nil_append]
      exact shift payload 0
  | invalid =>
    simp only [Bool.false_eq_true, if_false, List.nil_append]
    exact shift payload 0

theorem writeLoop_phase (r : Region) (n : Nat) (s : State) : (writeLoop r n s).phase = .done := by
  induction n generalizing s with
  | zero => simp [writeLoop]
  | succ n ih =>
    rw [writeLoop_succ]
    split
    · simp
    · split
      · split
        · simp
        · exact ih _
      · exact ih _

/-- What a write command keeps: whatever a quiet change keeps and a burn of its region at an index inside it keeps. -/
theorem State.write_induction {P : State → Prop} (r : Region) (ta : Word16) (s : State) (hc : s.cfg.Facts)
    (quiet : ∀ s t, Quiet s t → P s → P t)
    (burn : ∀ s i b, BitVec.toNat i < s.cfg.size r.space → P s → P (s.burn r i b)) (h : P s) :
    (r = .data → P (s.writeMemory ta)) ∧ (r = .status → P (s.writeStatus ta)) := by
  have hq : ∀ c code, P (s.beginCommand c code ta) := fun c code => quiet _ _ (.beginCommand s c code ta) h
  have hl : ∀ c code, P ((s.beginCommand c code ta).writePayload r) := fun c code => by
    have := writeLoop_induction (P := fun t => t.cfg = s.cfg ∧ P t) r
      (fun a b hab ⟨h1, h2⟩ => ⟨hab.cfg.trans h1, quiet _ _ hab h2⟩)
      (fun a i b hab ⟨h1, h2⟩ => ⟨(a.burn_cfg r i b).trans h1, burn _ _ _ (locate_lt (h1 ▸ hc) hab) h2⟩)
      (s.beginCommand c code ta).env.rx.length (s.beginCommand c code ta) ⟨rfl, hq c code⟩
    exact this.2
  have hu : ∀ code, P (s.unknownCommand code ta) := fun code => quiet _ _ (.unknownCommand code ta s) h
  constructor
  · rintro rfl
    unfold State.writeMemory
    split
    · exact hl _ _
    · exact hu _
  · rintro rfl
    unfold State.writeStatus
    split
    · exact hl _ _
    · exact hu _

theorem State.writeMemory_phase (ta : Word16) (s : State) : (s.writeMemory ta).phase = .done := by
  unfold State.writeMemory
  split
  · exact writeLoop_phase _ _ _
  · simp [State.unknownCommand]

theorem State.writeStatus_phase (ta : Word16) (s : State) : (s.writeStatus ta).phase = .done := by
  unfold State.writeStatus
  split
  · exact writeLoop_phase _ _ _
  · simp [State.unknownCommand]

/-! ## TRANSACT -/

/-- The header receive leaves bus matters changed only (R101). -/
theorem Quiet.receiveHeader (s : State) : Quiet s s.receiveHeader.2 := by
  have h0 : Quiet s ((s.setCrc 0).setPhase .header) := (Quiet.setCrc s _).trans (.setPhase _ _)
  have h1 := Quiet.recv ((s.setCrc 0).setPhase .header)
  unfold State.receiveHeader
  rcases hx : ((s.setCrc 0).setPhase .header).recv with ⟨_ | b0, t0⟩ <;> rw [hx] at h1
  · exact h0.trans h1
  · have h2 := Quiet.recv t0
    dsimp only
    rcases hy : t0.recv with ⟨_ | b1, t1⟩ <;> rw [hy] at h2
    · exact h0.trans (h1.trans h2)
    · have h3 := Quiet.recv t1
      dsimp only
      rcases hz : t1.recv with ⟨_ | b2, t2⟩ <;> rw [hz] at h3 <;> exact h0.trans (h1.trans (h2.trans h3))

/-- A complete header: what the three receives leave (R101). -/
theorem State.receiveHeader_complete {b0 b1 b2 : Byte} {rest : List (Option Byte)}
    (h : s.env.rx = some b0 :: some b1 :: some b2 :: rest) :
    s.receiveHeader.1 = some (b0, b1, b2) ∧ s.receiveHeader.2.crc = crcFold s.cfg 0 [b0, b1, b2] ∧
    s.receiveHeader.2.env.rx = rest ∧ s.receiveHeader.2.env.tx = s.env.tx ∧ s.receiveHeader.2.trace = s.trace ∧
    s.receiveHeader.2.cmd = s.cmd ∧ s.receiveHeader.2.ta = s.ta ∧ s.receiveHeader.2.freeCount = s.freeCount := by
  unfold State.receiveHeader
  rw [State.recv_some (b := b0) (rest := some b1 :: some b2 :: rest) (by simpa using h)]
  dsimp only
  rw [State.recv_some (b := b1) (rest := some b2 :: rest) (by simp)]
  dsimp only
  rw [State.recv_some (b := b2) (rest := rest) (by simp)]
  simp [crcFold]

/-- TRANSACT keeps whatever a quiet change and a burn inside a region keep. -/
theorem State.transact_induction {P : State → Prop} (s : State) (hc : s.cfg.Facts)
    (quiet : ∀ s t, Quiet s t → P s → P t)
    (burn : ∀ s r i b, BitVec.toNat i < s.cfg.size (Region.space r) → P s → P (s.burn r i b)) (h : P s) :
    P s.transact := by
  have hq := Quiet.receiveHeader s
  unfold State.transact
  rcases hx : s.receiveHeader with ⟨_ | ⟨b0, b1, b2⟩, t⟩ <;> rw [hx] at hq
  · exact quiet _ _ (hq.trans (.takeError _ _)) h
  · have ht : P t := quiet _ _ hq h
    have hct : t.cfg.Facts := by rw [hq.cfg]; exact hc
    dsimp only
    unfold State.runCommand
    split
    · exact quiet _ _ (.readMemory _ _) ht
    · exact quiet _ _ (.readStatus _ _) ht
    · exact (State.write_induction .data _ t hct quiet (fun s => burn s .data) ht).1 rfl
    · exact (State.write_induction .status _ t hct quiet (fun s => burn s .status) ht).2 rfl
    · exact quiet _ _ (.unknownCommand _ _ _) ht

/-- While the clock stands at `now`, `LAST_BUS` is `now` after every transaction, and the clock still stands (R139). -/
theorem State.transact_clock {s : State} (hc : s.cfg.Facts) {now : Nat} (h : s.env.ticks = [now]) :
    s.transact.env.ticks = [now] ∧ s.transact.lastBus = now % s.cfg.timeModulus := by
  have hrecv := State.recv_setLastBus ((s.setCrc 0).setPhase .header) h (now % s.cfg.timeModulus)
  have he : (s.setLastBus (now % s.cfg.timeModulus)).transact = s.transact := by
    unfold State.transact State.receiveHeader
    rw [show ((s.setLastBus (now % s.cfg.timeModulus)).setCrc 0).setPhase .header =
      ((s.setCrc 0).setPhase .header).setLastBus (now % s.cfg.timeModulus) from rfl, hrecv]
  have := State.transact_induction
    (P := fun t => t.cfg = s.cfg ∧ t.env.ticks = [now] ∧ t.lastBus = now % s.cfg.timeModulus)
    (s.setLastBus (now % s.cfg.timeModulus)) hc
    (fun a b hq ⟨h1, h2, h3⟩ => ⟨hq.cfg.trans h1, (hq.clock now h2).1, (hq.clock now h2).2.elim (·.trans h3) (h1 ▸ ·)⟩)
    (fun a r i b _ ⟨h1, h2, h3⟩ => ⟨(a.burn_cfg r i b).trans h1, by rw [a.burn_env]; exact h2,
      ((a.burn_rest r i b).2.2.2.2.2.2.2.2.1).trans h3⟩) ⟨rfl, h, rfl⟩
  rw [he] at this
  exact this.2

theorem State.transact_phase (s : State) : s.transact.phase = .done := by
  unfold State.transact
  rcases s.receiveHeader with ⟨_ | ⟨b0, b1, b2⟩, t⟩
  · simp
  · dsimp only
    unfold State.runCommand
    split
    · exact State.readMemory_phase _ _
    · exact State.readStatus_phase _ _
    · exact State.writeMemory_phase _ _
    · exact State.writeStatus_phase _ _
    · simp [State.unknownCommand]

end Sys2Proof.Machine
end

