-- ==== Sys2Proof/Laws/Encoding.lean ====
section
/-! SUPPORT. The header's parts: the address and its two bytes, and command decode of each code. -/

namespace Sys2Proof

/-- The address is its two bytes put together again (R68). -/
theorem addressOf_bytes (ta : Word16) : addressOf (lowByte ta) (highByte ta) = ta := by
  unfold addressOf lowByte highByte
  apply BitVec.eq_of_getLsbD_eq
  intro i hi
  by_cases h : i < 8
  · simp [h, hi]
  · have hs : 8 + (i - 8) = i := by omega
    have h8 : i - 8 < 8 := by omega
    simp [h, hi, hs, h8]

/-- The low byte of an address put together from two bytes. -/
theorem lowByte_addressOf (b1 b2 : Byte) : lowByte (addressOf b1 b2) = b1 := by
  unfold addressOf lowByte
  apply BitVec.eq_of_getLsbD_eq
  intro i hi
  have h16 : i < 16 := by omega
  simp [hi, h16]

/-- The high byte of an address put together from two bytes. -/
theorem highByte_addressOf (b1 b2 : Byte) : highByte (addressOf b1 b2) = b2 := by
  unfold addressOf highByte
  apply BitVec.eq_of_getLsbD_eq
  intro i hi
  have h16 : 8 + i < 16 := by omega
  simp [hi, h16]

/-- The address as a number: low byte first (R68). -/
theorem addressOf_toNat (b1 b2 : Byte) : (addressOf b1 b2).toNat = b1.toNat + 256 * b2.toNat := by
  have h1 := b1.isLt
  have h2 := b2.isLt
  have hd : b1.setWidth 16 &&& ((b2.setWidth 16 : Word16) <<< 8) = 0 := by
    apply BitVec.eq_of_getLsbD_eq
    intro i hi
    by_cases h : i < 8
    · simp [h]
    · have : b1.getLsbD i = false := BitVec.getLsbD_of_ge _ _ (by omega)
      simp [this]
  rw [addressOf, ← BitVec.add_eq_or_of_and_eq_zero _ _ hd, BitVec.toNat_add, BitVec.toNat_shiftLeft]
  simp [Nat.shiftLeft_eq]
  omega
/-- Each code selects its own command (R104). -/
theorem commandOf_codes {cfg : Config} (h : cfg.Facts) :
    commandOf cfg cfg.cmdReadMemory = .readMemory ∧ commandOf cfg cfg.cmdReadStatus = .readStatus ∧
    (cfg.writeEn = true → commandOf cfg cfg.cmdWriteMemory = .writeMemory ∧
      commandOf cfg cfg.cmdWriteStatus = .writeStatus) := by
  obtain ⟨h1, h2, h3, h4, h5, h6⟩ := h.codes_ne_each
  refine ⟨by simp [commandOf], by simp [commandOf, Ne.symm h1], fun hw => ⟨?_, ?_⟩⟩
  · simp [commandOf, hw, Ne.symm h2, Ne.symm h4]
  · simp [commandOf, hw, Ne.symm h3, Ne.symm h5, Ne.symm h6]

/-- A code is unknown exactly when no present command has it (R104, R106). -/
theorem commandOf_unknown_iff {cfg : Config} {code : Byte} :
    commandOf cfg code = .unknown ↔ code ∉ cfg.presentCodes := by
  unfold Config.presentCodes Config.codes commandOf
  cases cfg.writeEn <;> split_ifs <;> simp_all

end Sys2Proof
end

