-- ==== Sys2Proof/Laws/PerInstr.lean ====
section
/-! SUPPORT. Facts about every instruction as it is written, one lemma per constructor. -/

namespace Sys2Proof.Laws

/-- What an instruction is encoded as, if it is encoded at all, is a header of three bytes (R100, R118). -/
def EncodedLength.Statement (i : Instr) : Prop :=
  ∀ (cfg : Config) (bytes : List Byte), encode cfg i = some bytes → bytes.length = 3

/-- A command's encoding is its header. -/
theorem length_of_header {code : Byte} {ta : Word16} {bytes : List Byte} (h : some (headerBytes code ta) = some bytes) :
    bytes.length = 3 := by
  cases h; rfl

theorem EncodedLength.readMemory (ta : Word16) : EncodedLength.Statement (.readMemory ta) := fun _ _ h => length_of_header h
theorem EncodedLength.readStatus (ta : Word16) : EncodedLength.Statement (.readStatus ta) := fun _ _ h => length_of_header h
theorem EncodedLength.writeMemory (ta : Word16) : EncodedLength.Statement (.writeMemory ta) := fun _ _ h => length_of_header h
theorem EncodedLength.writeStatus (ta : Word16) : EncodedLength.Statement (.writeStatus ta) := fun _ _ h => length_of_header h
theorem EncodedLength.unknown (code : Byte) (ta : Word16) : EncodedLength.Statement (.unknown code ta) := fun _ _ h => length_of_header h
theorem EncodedLength.transact : EncodedLength.Statement .transact := fun _ _ h => by cases h
theorem EncodedLength.service (now : Nat) : EncodedLength.Statement (.service now) := fun _ _ h => by cases h
theorem EncodedLength.construct (now : Nat) : EncodedLength.Statement (.construct now) := fun _ _ h => by cases h
theorem EncodedLength.factoryReset : EncodedLength.Statement .factoryReset := fun _ _ h => by cases h
theorem EncodedLength.translate (addr : Word16) : EncodedLength.Statement (.translate addr) := fun _ _ h => by cases h
theorem EncodedLength.crcEmit : EncodedLength.Statement .crcEmit := fun _ _ h => by cases h
theorem EncodedLength.locate (r : Region) (ta : Word16) : EncodedLength.Statement (.locate r ta) := fun _ _ h => by cases h
theorem EncodedLength.burn (r : Region) (i : Word16) (incoming : Byte) : EncodedLength.Statement (.burn r i incoming) := fun _ _ h => by cases h
theorem EncodedLength.mark (r : Region) (i : Word16) : EncodedLength.Statement (.mark r i) := fun _ _ h => by cases h
theorem EncodedLength.clear (r : Region) : EncodedLength.Statement (.clear r) := fun _ _ h => by cases h
theorem EncodedLength.blankCheck : EncodedLength.Statement .blankCheck := fun _ _ h => by cases h
theorem EncodedLength.factoryResetBody : EncodedLength.Statement .factoryResetBody := fun _ _ h => by cases h
theorem EncodedLength.loadStore : EncodedLength.Statement .loadStore := fun _ _ h => by cases h
theorem EncodedLength.recv : EncodedLength.Statement .recv := fun _ _ h => by cases h
theorem EncodedLength.send (b : Byte) : EncodedLength.Statement (.send b) := fun _ _ h => by cases h
theorem EncodedLength.sendRaw (b : Byte) : EncodedLength.Statement (.sendRaw b) := fun _ _ h => by cases h
theorem EncodedLength.reportProtocolError (code : Byte) : EncodedLength.Statement (.reportProtocolError code) := fun _ _ h => by cases h
theorem EncodedLength.storeReadByte (address : Nat) : EncodedLength.Statement (.storeReadByte address) := fun _ _ h => by cases h
theorem EncodedLength.storeWriteByte (address : Nat) (byte : Byte) : EncodedLength.Statement (.storeWriteByte address byte) := fun _ _ h => by cases h

end Sys2Proof.Laws
end

