-- ==== Sys2Proof/Laws/Scheduler.lean ====
section
/-! SUPPORT. The commit scheduler: what one commit step, the budget loop and the completion can do, said once. -/

namespace Sys2Proof.Machine

theorem Region.space_ne_store (r : Region) : r.space ≠ .store := by cases r <;> decide

/-! ## One commit step -/

theorem StoreQuiet.commitStep (r : Region) (i : Nat) (s : State) : StoreQuiet s (s.commitStep r i) := by
  have h := StoreQuiet.storeReadByte s (s.cfg.base r + i)
  unfold State.commitStep
  dsimp only
  split
  · exact h.trans (.storeWriteByte _ _ _)
  · exact h

/-- A commit step never writes the image (R224). -/
theorem State.commitStep_image (r : Region) (i : Nat) (s : State) {q : Space} (hq : q ≠ .store) (a : Nat) :
    (s.commitStep r i).peek q a = s.peek q a := by
  unfold State.commitStep
  dsimp only
  split
  · rw [State.storeWriteByte_peek, if_neg (fun h => hq h.1.symm), State.storeReadByte_peek]
  · exact State.storeReadByte_peek s _ _ _

/-- A commit step on a store that does not diverge leaves the image byte in the store (R220). -/
theorem State.commitStep_store (r : Region) (i : Nat) {s : State} (h : s.env.reads = []) (a : Nat) :
    (s.commitStep r i).peek .store a = if a = s.cfg.base r + i then s.peek r.space i else s.peek .store a := by
  unfold State.commitStep
  rw [State.storeReadByte_faithful h]
  dsimp only
  split
  · simp
  · next he =>
    simp only [ne_eq, Decidable.not_not] at he
    split
    · next ha => rw [ha]; simpa using he
    · simp

/-- Whatever the store answers, a commit step writes no other byte of the store. -/
theorem State.commitStep_store_other (r : Region) (i : Nat) (s : State) {a : Nat} (ha : a ≠ s.cfg.base r + i) :
    (s.commitStep r i).peek .store a = s.peek .store a := by
  unfold State.commitStep
  dsimp only
  split
  · rw [State.storeWriteByte_peek, if_neg (fun h => ha h.2), State.storeReadByte_peek]
  · exact State.storeReadByte_peek s _ _ _

/-- What a commit step shows on a store that does not diverge (R220). -/
theorem State.commitStep_trace (r : Region) (i : Nat) {s : State} (h : s.env.reads = []) :
    (s.commitStep r i).trace = (s.commitShown r i 1).reverse ++ s.trace := by
  unfold State.commitStep State.commitShown
  rw [State.storeReadByte_faithful h]
  by_cases he : s.peek .store (s.cfg.base r + i) = s.peek r.space i <;> simp [he]

/-- Whatever the store answers, a commit step shows one read and at most one write. -/
theorem State.commitStep_bound (r : Region) (i : Nat) (s : State) : ∃ new, (s.commitStep r i).trace = new ++ s.trace ∧
    storeReads new = 1 ∧ storeWrites new ≤ 1 ∧ new.length = storeReads new + storeWrites new := by
  unfold State.commitStep
  dsimp only
  split
  · exact ⟨[.storeWrite (s.cfg.base r + i) (s.peek r.space i), .storeRead (s.cfg.base r + i)], by simp, rfl, le_refl _, rfl⟩
  · exact ⟨[.storeRead (s.cfg.base r + i)], by simp, rfl, Nat.zero_le _, rfl⟩

/-- A commit step inside its region keeps the canonical form. -/
theorem State.commitStep_memoryWf {r : Region} {i : Nat} {s : State} (hc : s.cfg.Facts) (hi : i < s.cfg.size r.space)
    (h : s.memoryWf) : (s.commitStep r i).memoryWf := by
  have hq := StoreQuiet.storeReadByte s (s.cfg.base r + i)
  have h1 : ((s.storeReadByte (s.cfg.base r + i)).2).memoryWf := fun q => by
    rw [hq.cfg, State.storeReadByte_mem]; exact h q
  unfold State.commitStep
  dsimp only
  split
  · have := State.memoryWf_poke (sp := .store) (a := s.cfg.base r + i) (s.peek r.space i) h1
      (by rw [hq.cfg]; exact hc.base_lt r hi)
    intro q
    simpa [State.storeWriteByte] using this q
  · exact h1

/-! ## The budget loop -/

theorem Cursor.toNat_add_one {c : Cursor} {last : Word16} (h : c.toNat ≤ last.toNat) : (c + 1).toNat = c.toNat + 1 := by
  have := last.isLt
  rw [BitVec.toNat_add]
  have h1 : (1 : Cursor).toNat = 1 := rfl
  rw [h1]
  exact Nat.mod_eq_of_lt (by omega)

theorem commitLoop_succ (r : Region) (last : Word16) (n : Nat) (c : Cursor) (s : State) :
    commitLoop r last (n + 1) c s =
      if c.toNat ≤ last.toNat then commitLoop r last n (c + 1) (s.commitStep r c.toNat) else (c, s) := rfl

/-- What every commit step keeps the budget loop keeps. -/
theorem commitLoop_induction {P : State → Prop} (r : Region) (last : Word16)
    (stepP : ∀ s i, i ≤ last.toNat → P s → P (s.commitStep r i)) (n : Nat) (c : Cursor) (s : State) (h : P s) :
    P (commitLoop r last n c s).2 := by
  induction n generalizing c s with
  | zero => exact h
  | succ n ih =>
    rw [commitLoop_succ]
    split
    · next hc => exact ih _ _ (stepP _ _ hc h)
    · exact h

theorem StoreQuiet.commitLoop (r : Region) (last : Word16) (n : Nat) (c : Cursor) (s : State) :
    StoreQuiet s (commitLoop r last n c s).2 :=
  commitLoop_induction (P := StoreQuiet s) r last (fun _ i _ h => h.trans (.commitStep r i _)) n c s (.refl s)

/-- The budget loop never writes the image. -/
theorem commitLoop_image (r : Region) (last : Word16) (n : Nat) (c : Cursor) (s : State) {q : Space} (hq : q ≠ .store)
    (a : Nat) : (commitLoop r last n c s).2.peek q a = s.peek q a :=
  commitLoop_induction (P := fun t => t.peek q a = s.peek q a) r last
    (fun t i _ h => (t.commitStep_image r i hq a).trans h) n c s rfl

/-- Where the cursor stands after the loop: it advances once per byte visited (R221). -/
theorem commitLoop_cursor (r : Region) (last : Word16) (n : Nat) (c : Cursor) (s : State) :
    (commitLoop r last n c s).1.toNat = c.toNat + min n (last.toNat + 1 - c.toNat) := by
  induction n generalizing c s with
  | zero => simp [commitLoop]
  | succ n ih =>
    rw [commitLoop_succ]
    split
    · next h => rw [ih, Cursor.toNat_add_one h]; omega
    · dsimp only; omega

/-- The store after the loop, on a store that does not diverge: the visited bytes equal the image, the others are as
they were (R220, R221). -/
theorem commitLoop_store {r : Region} {last : Word16} (n : Nat) (c : Cursor) {s : State} (h : s.env.reads = []) (a : Nat) :
    (commitLoop r last n c s).2.peek .store a =
      if s.cfg.base r + c.toNat ≤ a ∧ a < s.cfg.base r + c.toNat + min n (last.toNat + 1 - c.toNat)
      then s.peek r.space (a - s.cfg.base r) else s.peek .store a := by
  induction n generalizing c s with
  | zero => simp [commitLoop]
  | succ n ih =>
    rw [commitLoop_succ]
    split
    · next hc =>
      rw [ih (c + 1) ((StoreQuiet.commitStep r c.toNat s).reads h), (StoreQuiet.commitStep r c.toNat s).cfg,
        Cursor.toNat_add_one hc, State.commitStep_image r _ s (Region.space_ne_store r), State.commitStep_store r _ h]
      by_cases h1 : a = s.cfg.base r + c.toNat
      · subst h1
        rw [if_neg (by omega), if_pos rfl, if_pos (by omega)]
        congr 1; omega
      · rw [if_neg h1]
        by_cases h2 : s.cfg.base r + (c.toNat + 1) ≤ a ∧
            a < s.cfg.base r + (c.toNat + 1) + min n (last.toNat + 1 - (c.toNat + 1))
        · rw [if_pos h2, if_pos (by omega)]
        · rw [if_neg h2, if_neg (by omega)]
    · rw [if_neg (by omega)]

/-- Whatever the store answers, the loop writes no byte of the store outside the visited range. -/
theorem commitLoop_store_other {r : Region} {last : Word16} (n : Nat) (c : Cursor) (s : State) {a : Nat}
    (ha : a < s.cfg.base r + c.toNat ∨ s.cfg.base r + last.toNat < a) :
    (commitLoop r last n c s).2.peek .store a = s.peek .store a := by
  induction n generalizing c s with
  | zero => rfl
  | succ n ih =>
    rw [commitLoop_succ]
    split
    · next hc =>
      rw [ih (c + 1) (s.commitStep r c.toNat) (by
        rw [(StoreQuiet.commitStep r c.toNat s).cfg, Cursor.toNat_add_one hc]; omega)]
      exact State.commitStep_store_other r _ s (by omega)
    · rfl

/-- What the loop shows on a store that does not diverge. -/
theorem commitLoop_trace {r : Region} {last : Word16} (n : Nat) (c : Cursor) {s : State} (h : s.env.reads = []) :
    (commitLoop r last n c s).2.trace =
      (s.commitShown r c.toNat (min n (last.toNat + 1 - c.toNat))).reverse ++ s.trace := by
  induction n generalizing c s with
  | zero => simp [commitLoop, State.commitShown]
  | succ n ih =>
    rw [commitLoop_succ]
    split
    · next hc =>
      have hq := StoreQuiet.commitStep r c.toNat s
      rw [ih (c + 1) (hq.reads h), State.commitStep_trace r _ h, Cursor.toNat_add_one hc]
      have hm : min (n + 1) (last.toNat + 1 - c.toNat) = min n (last.toNat + 1 - (c.toNat + 1)) + 1 := by omega
      have hlater : (s.commitStep r c.toNat).commitShown r (c.toNat + 1) (min n (last.toNat + 1 - (c.toNat + 1))) =
          s.commitShown r (c.toNat + 1) (min n (last.toNat + 1 - (c.toNat + 1))) := by
        unfold State.commitShown
        apply List.flatMap_congr
        intro i hi
        have : c.toNat < i := by have := List.mem_range'_1.1 hi; omega
        have hne : s.cfg.base r + i ≠ s.cfg.base r + c.toNat := by omega
        rw [hq.cfg, State.commitStep_image r _ s (Region.space_ne_store r), State.commitStep_store r _ h, if_neg hne]
      rw [hlater, hm]
      simp [State.commitShown, List.range'_succ]
    · have : min (n + 1) (last.toNat + 1 - c.toNat) = 0 := by omega
      rw [this]; simp [State.commitShown]

/-- Whatever the store answers, the loop shows at most `n` reads and at most `n` writes and nothing else. -/
theorem commitLoop_bound (r : Region) (last : Word16) (n : Nat) (c : Cursor) (s : State) :
    ∃ new, (commitLoop r last n c s).2.trace = new ++ s.trace ∧ storeReads new ≤ n ∧ storeWrites new ≤ n ∧
      new.length = storeReads new + storeWrites new := by
  induction n generalizing c s with
  | zero => exact ⟨[], rfl, le_refl _, le_refl _, rfl⟩
  | succ n ih =>
    rw [commitLoop_succ]
    split
    · obtain ⟨l, h1, h2, h3, h4⟩ := s.commitStep_bound r c.toNat
      obtain ⟨m, k1, k2, k3, k4⟩ := ih (c + 1) (s.commitStep r c.toNat)
      have hr : storeReads (m ++ l) = storeReads m + storeReads l := List.countP_append
      have hw : storeWrites (m ++ l) = storeWrites m + storeWrites l := List.countP_append
      refine ⟨m ++ l, by rw [k1, h1, List.append_assoc], by omega, by omega, ?_⟩
      rw [List.length_append]; omega
    · exact ⟨[], rfl, Nat.zero_le _, Nat.zero_le _, rfl⟩

/-- The loop keeps the canonical form when its range lies inside the region. -/
theorem commitLoop_memoryWf {r : Region} {last : Word16} (n : Nat) (c : Cursor) {s : State} (hc : s.cfg.Facts)
    (hl : last.toNat < s.cfg.size r.space) (h : s.memoryWf) : (commitLoop r last n c s).2.memoryWf := by
  refine (commitLoop_induction (P := fun t => t.cfg = s.cfg ∧ t.memoryWf) r last (fun t i hi ⟨h1, h2⟩ => ?_) n c s
    ⟨rfl, h⟩).2
  exact ⟨(StoreQuiet.commitStep r i t).cfg.trans h1,
    State.commitStep_memoryWf (h1 ▸ hc) (by rw [h1]; exact lt_of_le_of_lt hi hl) h2⟩

/-! ## Completion -/

/-- What completion writes: the region's tracker and the commit state (R222). -/
theorem State.finishCommit_rest (r : Region) (c : Cursor) (last : Word16) (s : State) :
    (s.finishCommit r c last).cfg = s.cfg ∧ (s.finishCommit r c last).constructed = s.constructed ∧
    (s.finishCommit r c last).phase = s.phase ∧ (s.finishCommit r c last).cmd = s.cmd ∧
    (s.finishCommit r c last).ta = s.ta ∧ (s.finishCommit r c last).crc = s.crc ∧
    (∀ q, (s.finishCommit r c last).mem q = s.mem q) ∧ (s.finishCommit r c last).lastBus = s.lastBus ∧
    (s.finishCommit r c last).env = s.env ∧ (s.finishCommit r c last).trace = s.trace ∧
    (s.finishCommit r c last).result = s.result ∧ (s.finishCommit r c last).freeCount = s.freeCount := by
  unfold State.finishCommit
  split <;> simp [State.clear]

theorem State.finishCommit_peek (r : Region) (c : Cursor) (last : Word16) (s : State) (q : Space) (a : Nat) :
    (s.finishCommit r c last).peek q a = s.peek q a := by
  obtain ⟨h1, -, -, -, -, -, h2, -⟩ := s.finishCommit_rest r c last
  simp only [State.peek, h1, h2]

theorem State.finishCommit_past {r : Region} {c : Cursor} {last : Word16} (s : State) (h : last.toNat < c.toNat) :
    (s.finishCommit r c last).commit = .idle ∧
    (∀ q, (s.finishCommit r c last).dirty q = if r = q then .empty else s.dirty q) := by
  unfold State.finishCommit
  rw [if_pos h]
  refine ⟨rfl, fun q => ?_⟩
  by_cases hq : r = q
  · subst hq; simp [State.clear]
  · simp [State.clear, hq]

theorem State.finishCommit_before {r : Region} {c : Cursor} {last : Word16} (s : State) (h : c.toNat ≤ last.toNat) :
    (s.finishCommit r c last).commit = .committing r c last ∧ ∀ q, (s.finishCommit r c last).dirty q = s.dirty q := by
  unfold State.finishCommit
  rw [if_neg (by omega)]
  exact ⟨rfl, fun q => by simp⟩

/-- The work of one call, as the loop and the completion. -/
theorem State.serviceRange_eq (r : Region) (c : Cursor) (last : Word16) (s : State) : s.serviceRange r c last =
    (commitLoop r last s.cfg.commitBudget c s).2.finishCommit r (commitLoop r last s.cfg.commitBudget c s).1 last := rfl

/-! ## The gate -/

/-- R216's modular difference, for times in range. -/
theorem State.elapsed_eq {now : Nat} {s : State} (hn : now < s.cfg.timeModulus) (hl : s.lastBus < s.cfg.timeModulus) :
    s.elapsed now = (now + s.cfg.timeModulus - s.lastBus) % s.cfg.timeModulus := by
  unfold State.elapsed
  rw [Nat.mod_eq_of_lt hn, Nat.mod_eq_of_lt hl]

/-- The range a call works on lies inside its region where the tracker and the commit state are valid (R206, R32). -/
theorem State.chooseCommit_spec {r : Region} {c : Cursor} {last : Word16} {s : State}
    (h : s.chooseCommit = some (r, c, last)) :
    s.commit = .committing r c last ∨
    (s.commit = .idle ∧ (s.dirty r).flag = true ∧ (r = .status → s.dirtyData.flag = false) ∧
      c = (s.dirty r).low.setWidth 17 ∧ last = (s.dirty r).high) := by
  unfold State.chooseCommit at h
  split at h
  · next hc =>
    simp only [Option.some.injEq, Prod.mk.injEq] at h
    obtain ⟨rfl, rfl, rfl⟩ := h
    exact .inl hc
  · next hc =>
    split at h
    · next hd =>
      simp only [Option.some.injEq, Prod.mk.injEq] at h
      obtain ⟨rfl, rfl, rfl⟩ := h
      exact .inr ⟨hc, hd, by simp, rfl, rfl⟩
    · next hd =>
      split at h
      · next hs =>
        simp only [Option.some.injEq, Prod.mk.injEq] at h
        obtain ⟨rfl, rfl, rfl⟩ := h
        exact .inr ⟨hc, hs, fun _ => by simpa using hd, rfl, rfl⟩
      · cases h

end Sys2Proof.Machine
end

