-- ==== Sys2Proof/Laws/Step.lean ====
section
/-! SUPPORT. The guards of an operation, by their outcome, and the step and run of the machine. -/

namespace Sys2Proof.Machine

variable {s t : State} {k : Result}

/-! ## Guards -/

theorem State.whenConfigured_of (h : s.cfg.wf = true) (k : Result) : s.whenConfigured k = k := by
  simp [State.whenConfigured, h]

theorem State.whenReady_of (h : s.Ready) (k : Result) : s.whenReady k = k := by
  obtain ⟨h1, h2, h3⟩ := h
  simp [State.whenReady, State.whenConfigured, h1, h2, h3]

theorem State.whenInSpace_of {sp : Space} {a : Nat} (h : a < s.cfg.size sp) (k : Result) : s.whenInSpace sp a k = k := by
  simp [State.whenInSpace, h]

theorem State.whenStore_of (h : s.cfg.persistEn = true) (k : Result) : s.whenStore k = k := by
  simp [State.whenStore, h]

/-- An operation that answers a next state under this guard has a well-formed configuration. -/
theorem State.whenConfigured_next (h : s.whenConfigured k = .next t) : s.cfg.wf = true ∧ k = .next t := by
  unfold State.whenConfigured at h
  split at h
  · next hw => exact ⟨hw, h⟩
  · cases h

/-- An entry point that answers a next state was ready. -/
theorem State.whenReady_next (h : s.whenReady k = .next t) : s.Ready ∧ k = .next t := by
  obtain ⟨hw, h⟩ := State.whenConfigured_next h
  split at h
  · cases h
  · next hc =>
    split at h
    · next hp => exact ⟨⟨hw, by simpa using hc, hp⟩, h⟩
    · cases h

theorem State.whenInSpace_next {sp : Space} {a : Nat} (h : s.whenInSpace sp a k = .next t) :
    a < s.cfg.size sp ∧ k = .next t := by
  unfold State.whenInSpace at h
  split at h
  · next ha => exact ⟨ha, h⟩
  · cases h

theorem State.whenStore_next (h : s.whenStore k = .next t) : s.cfg.persistEn = true ∧ k = .next t := by
  unfold State.whenStore at h
  split at h
  · next hp => exact ⟨hp, h⟩
  · cases h

/-! ## Steps and runs -/

theorem step_of_event {e : Event} {rest : List Event} (h : s.env.events = e :: rest) :
    step s = exec e.toInstr (s.setEnv { s.env with events := rest }) := by
  simp [step, h]

theorem core_run_next (M : Host.Core) (k : Nat) {s t : M.State} (h : M.step s = .next t) :
    M.run (k + 1) s = M.run k t := by
  simp [Host.Core.run, h]

theorem core_run_cases (M : Host.Core) (k : Nat) {s u : M.State} (h : M.run (k + 1) s = .next u) :
    ∃ t, M.step s = .next t ∧ M.run k t = .next u := by
  rw [Host.Core.run] at h
  split at h
  · next t ht => exact ⟨t, ht, h⟩
  · cases h
  · cases h

/-- A run of one step and more. -/
theorem run_next (k : Nat) (h : step s = .next t) : Sys2Proof.core.run (k + 1) s = Sys2Proof.core.run k t :=
  core_run_next Sys2Proof.core k h

/-- A run that answers a next state answers one at every step. -/
theorem run_cases {u : State} (k : Nat) (h : Sys2Proof.core.run (k + 1) s = .next u) :
    ∃ t, step s = .next t ∧ Sys2Proof.core.run k t = .next u :=
  core_run_cases Sys2Proof.core k h

end Sys2Proof.Machine
end

