-- ==== Sys2Proof/Tests/Slice0.lean ====
section
/-! SUPPORT. Tests: the checks refuse ill-formed terms, header words decode, one step at a time against the vectors of
`95_test_vectors.md` (their ids stand in the docstrings), and a witness for every statement with hypotheses. -/

namespace Sys2Proof.Tests

open Sys2Proof.Machine

/-! ## Helpers -/

/-- The next state, if there is one. -/
def next? (o : Result) : Option State :=
  match o with
  | .next t => some t
  | .fault _ => none
  | .refused _ => none

theorem exists_next {o : Result} (h : (next? o).isSome = true) : ∃ t, o = .next t := by
  cases o with
  | next t => exact ⟨t, rfl⟩
  | fault r => cases h
  | refused r => cases h

/-- `exec`, as an optional next state. -/
def run1 (i : Instr) (s : State) : Option State := next? (exec i s)

/-- Bytes that arrive. -/
def arriving (bytes : List Nat) : List (Option Byte) := bytes.map fun n => some (BitVec.ofNat 8 n)

/-- A state whose bus delivers these bytes, takes these sends and reads this clock. -/
def onBus (rx : List Nat) (tx : List Bool) (t : Nat) (s : State) : State :=
  s.setEnv { s.env with rx := arriving rx, tx := tx, ticks := [t] }

/-- `n` sends that succeed and then one that fails. -/
def okThenFail (n : Nat) : List Bool := List.replicate n true ++ [false]

/-- A state under another configuration. -/
def under (cfg : Config) (s : State) : State := { s with cfg := cfg }

/-- Fresh T (95, section 0). -/
abbrev fresh : State := State.reset

/-- Fresh T with data byte `i` burned to 0 and marked. -/
def burned (i : Nat) : State := (fresh.poke .data i 0).mark .data (BitVec.ofNat 16 i)

/-- Fresh T with data bytes 8 to 12 burned to 0 and marked, last bus byte at 10 (95, V-SV-4). -/
def burned8to12 : State :=
  { fresh with data := [(8, 0), (9, 0), (10, 0), (11, 0), (12, 0)], dirtyData := ⟨true, 8, 12⟩, lastBus := 10 }

/-- The same while a commit of 8 to 12 stands at 12, and data byte 0 burned and marked outside its range (95, P3). -/
def latched : State :=
  { burned8to12 with data := [(0, 0), (8, 0), (9, 0), (10, 0), (11, 0), (12, 0)], dirtyData := ⟨true, 0, 12⟩,
                     commit := .committing .data 12 12, store := [(8, 0), (9, 0), (10, 0), (11, 0)] }

/-- A machine before CONSTRUCT under a configuration, on a store of 0xFF bytes. -/
def blank (cfg : Config) : State :=
  State.powerUp cfg ((List.range 40).foldl (fun m a => Memory.write (factoryByte cfg .store a) m a 0xFF) [])

/-! ## WellFormed refuses each ill-formed term -/

theorem smoke_configT : Config.configT.wf = true := by decide
theorem smoke_pageBits : { Config.configT with pageBits := 17 }.pageBitsOk = false := by decide
theorem smoke_totalSpace_multiple : { Config.configT with totalSpace := 60 }.totalSpaceOk = false := by decide
theorem smoke_totalSpace_small : { Config.configT with totalSpace := 0 }.totalSpaceOk = false := by decide
theorem smoke_totalSpace_large : { Config.configT with totalSpace := 65544 }.totalSpaceOk = false := by decide
theorem smoke_pagesInRange : { Config.configT with pageMap := [(8, 0)] }.pagesInRange = false := by decide
theorem smoke_pagesDistinct : { Config.configT with pageMap := [(2, 0), (2, 1)] }.pagesDistinct = false := by decide
theorem smoke_slotsRepeated : { Config.configT with pageMap := [(0, 0), (2, 0)] }.slotsExact = false := by decide
theorem smoke_slotsGap : { Config.configT with pageMap := [(0, 0), (2, 2)] }.slotsExact = false := by decide
theorem smoke_slotsNonempty : { Config.configT with pageMap := [] }.slotsNonempty = false := by decide
theorem smoke_statusSize : { Config.configT with statusSize := 12 }.statusSizeOk = false := by decide
theorem smoke_templateData : { Config.configT with templateData := [0] }.templateDataOk = false := by decide
theorem smoke_templateStatus : { Config.configT with templateStatus := [0] }.templateStatusOk = false := by decide
theorem smoke_idleThreshold : { Config.configT with idleThreshold := 2 ^ 32 }.idleThresholdOk = false := by decide
theorem smoke_commitBudget : { Config.configT with commitBudget := 0 }.commitBudgetOk = false := by decide
theorem smoke_blankSample_zero : { Config.configT with blankSample := 0 }.blankSampleOk = false := by decide
theorem smoke_blankSample_large : { Config.configT with blankSample := 17 }.blankSampleOk = false := by decide
theorem smoke_storeInside : { Config.configT with storeStatusBase := 25 }.storeRegionsInside = false := by decide
theorem smoke_storeDisjoint : { Config.configT with storeStatusBase := 23 }.storeRegionsDisjoint = false := by decide
theorem smoke_codesDistinct : { Config.configT with cmdReadStatus := 0xF0 }.codesDistinct = false := by decide
theorem smoke_codesNot33 : { Config.configT with cmdWriteStatus := 0x33 }.codesNot33 = false := by decide
theorem smoke_timeBits : { Config.configT with timeBits := 0 }.timeBitsOk = false := by decide
theorem smoke_wf_uses_the_checks : { Config.configT with timeBits := 0 }.wf = false ∧
    { Config.configT with storeStatusBase := 23 }.wf = false ∧ { Config.configT with pageBits := 17 }.wf = false := by
  decide

theorem smoke_write_disabled : (Instr.writeMemory 0).wf { Config.configT with writeEn := false } = false ∧
    (Instr.writeStatus 0).wf { Config.configT with writeEn := false } = false := by decide
theorem smoke_unknown_present : (Instr.unknown 0x55 0).wf .configT = false := by decide
theorem smoke_time : (Instr.service (2 ^ 32)).wf .configT = false ∧ (Instr.construct (2 ^ 32)).wf .configT = false := by
  decide
theorem smoke_index : (Instr.burn .data 24 0).wf .configT = false ∧ (Instr.mark .status 16).wf .configT = false := by
  decide
theorem smoke_store_address : (Instr.storeReadByte 40).wf .configT = false ∧
    (Instr.storeWriteByte 40 0).wf .configT = false := by decide

/-! ## Decoding: words written out from R100's encoding, first byte in bits 7 to 0 -/

/-- 1111_0000 command, 0010_1110 address low, 0000_0000 address high. -/
theorem test_decode_readMemory : decodeTableWord 24 0b00000000_00101110_11110000 = some (.readMemory 0x002E) := by decide
/-- 1010_1010 command, 0000_0011 address low, 0000_0000 address high. -/
theorem test_decode_readStatus : decodeTableWord 24 0b00000000_00000011_10101010 = some (.readStatus 0x0003) := by decide
/-- 0000_1111 command, 0011_0100 address low, 0001_0010 address high. -/
theorem test_decode_writeMemory : decodeTableWord 24 0b00010010_00110100_00001111 = some (.writeMemory 0x1234) := by
  decide
/-- 0101_0101 command, 1111_1111 address low, 1111_1110 address high. -/
theorem test_decode_writeStatus : decodeTableWord 24 0b11111110_11111111_01010101 = some (.writeStatus 0xFEFF) := by
  decide
/-- 0011_0011 is no command's code (R106). -/
theorem test_decode_unknown : decodeTableWord 24 0b10000000_00000001_00110011 = some (.unknown 0x33 0x8001) := by decide
/-- Bits above the word's are zero. -/
theorem test_decode_short_word : decodeTableWord 8 0xFFFFF0 = some (.readMemory 0) := by decide
theorem test_decode_incomplete : decode .configT [0xF0, 0x10] = .incompleteHeader 2 := by decide
theorem test_encode_writeMemory : encode .configT (.writeMemory 0x1234) = some [0x0F, 0x34, 0x12] := by decide

/-! ## The checksum -/

/-- V-CS-1, V-CS-2, V-CS-3. -/
theorem test_crc_step : crc16Step 0 0 = 0 ∧ crc16Step 0 1 = 0xC0C1 ∧ crc16Step 0 0xFF = 0x4040 := by decide
/-- V-CS-4. -/
theorem test_crc_check_string :
    crcFold .configT 0 [0x31, 0x32, 0x33, 0x34, 0x35, 0x36, 0x37, 0x38, 0x39] = 0xBB3D := by decide +kernel
/-- V-CS-7, V-CS-8, V-CS-9. -/
theorem test_crc_headers : crcFold .configT 0 [0xAA, 0x03, 0x00] = 0xD020 ∧
    crcFold .configT 0 [0x0F, 0x05, 0x00, 0x0F] = 0x1153 ∧ crcFold .configT 0 [0x33, 0x00, 0x00] = 0x0FF0 := by
  decide +kernel

/-! ## Commands, through TRANSACT -/

/-- V-RM-3: the tail of the space and its checksum. -/
theorem test_readMemory_tail : (run1 .transact (onBus [0xF0, 0x2E, 0x00] [] 10 fresh)).map
      (fun t => (t.trace.reverse, t.lastBus, t.data, t.dirtyData)) =
    some (bytesShown (0x26 :: 0x27 :: List.replicate 16 0xFF) ++ [.sendRaw 0xF5 true, .sendRaw 0x80 true], 10, [],
      ⟨false, 0xFFFF, 0⟩) := by decide +kernel

/-- V-RM-5: the fourth send fails. -/
theorem test_readMemory_aborts : (run1 .transact (onBus [0xF0, 0x10, 0x00] (okThenFail 3) 10 fresh)).map
      (fun t => t.trace.reverse) = some (bytesShown [0x10, 0x11, 0x12] ++ [.send 0x13 false]) := by decide +kernel

/-- V-RS-1: groups end at absolute multiples of 8. -/
theorem test_readStatus_groups : (run1 .transact (onBus [0xAA, 0x03, 0x00] [] 10 fresh)).map
      (fun t => (t.trace.reverse, t.crc)) =
    some (bytesShown [0xE3, 0xE4, 0xE5, 0xE6, 0xE7] ++ [.sendRaw 0xAE true, .sendRaw 0x03 true] ++
      bytesShown [0xE8, 0xE9, 0xEA, 0xEB, 0xEC, 0xED, 0xEE, 0xEF] ++ [.sendRaw 0x12 true, .sendRaw 0x8B true], 0) := by
  decide +kernel

/-- V-RS-5: the second byte of the checksum fails. -/
theorem test_readStatus_aborts : (run1 .transact (onBus [0xAA, 0x06, 0x00] (okThenFail 3) 10 fresh)).map
      (fun t => t.trace.reverse.take 3) = some (bytesShown [0xE6, 0xE7] ++ [.sendRaw 0xED true]) := by decide +kernel

/-- V-WM-7: the address wraps from 0xFFFF, invalid and skipped, to 0. -/
theorem test_writeMemory_wraps : (run1 .transact (onBus [0x0F, 0xFF, 0xFF, 0x7F, 0x7E] [] 10 fresh)).map
      (fun t => (t.peek .data 0, t.dirtyData, t.ta, t.trace)) =
    some (0x7E, ⟨true, 0, 0⟩, 1, [.sendRaw 0xCA true, .sendRaw 0x0B true]) := by decide +kernel

/-- V-WM-3: in strict mode the third byte is invalid; the last is never received. -/
theorem test_writeMemory_strict :
    (run1 .transact (under { Config.configT with strict := true }
      (onBus [0x0F, 0x16, 0x00, 0xF0, 0x0F, 0x00, 0x00] [] 10 fresh))).map
      (fun t => (t.data, t.dirtyData, t.env.rx, t.trace)) =
    some ([(14, 0x10), (15, 0x07)], ⟨true, 14, 15⟩, [some 0x00], [.report 0x0F]) := by decide +kernel

/-- V-WS-1. -/
theorem test_writeStatus_burns : (run1 .transact (onBus [0x55, 0x07, 0x00, 0x0F, 0xF0] [] 10 fresh)).map
      (fun t => (t.status, t.dirtyStatus, t.dirtyData.flag, t.trace)) =
    some ([(7, 0x07), (8, 0xE0)], ⟨true, 7, 8⟩, false, [.sendRaw 0x33 true, .sendRaw 0xF7 true]) := by decide +kernel

/-- V-WS-4: the byte beyond the region is skipped. -/
theorem test_writeStatus_end : (run1 .transact (onBus [0x55, 0x0F, 0x00, 0x0F, 0x00] [] 10 fresh)).map
      (fun t => (t.status, t.dirtyStatus, t.trace)) =
    some ([(15, 0x0F)], ⟨true, 15, 15⟩, [.sendRaw 0x17 true, .sendRaw 0xF5 true]) := by decide +kernel

/-- V-UN-1. -/
theorem test_unknown_reports : (run1 .transact (onBus [0x33, 0x00, 0x00] [] 10 fresh)).map
      (fun t => (t.trace, t.data, t.lastBus)) = some ([.report 0x33], [], 10) := by decide +kernel

/-- V-UN-2: with WRITE_EN = 0 the write code is unknown and the payload is not received. -/
theorem test_unknown_write_disabled :
    (run1 .transact (under { Config.configT with writeEn := false } (onBus [0x0F, 0x05, 0x00, 0x00] [] 10 fresh))).map
      (fun t => (t.trace, t.env.rx, t.data)) = some ([.report 0x0F], [some 0x00], []) := by decide +kernel

/-- V-RM-6: an incomplete header shows nothing. -/
theorem test_transact_incomplete : (run1 .transact (onBus [0xF0, 0x10] [] 10 fresh)).map
      (fun t => (t.trace, t.lastBus, t.phase)) = some ([], 10, .done) := by decide +kernel

/-- The host's question: a fetched word runs as the first instruction (V-WM-5's header). -/
theorem test_withFetchWord :
    (next? (step (fresh.withFetchWord 24 0x00100F))).map (fun t => (t.cmd, t.ta, t.crc)) = some (0x0F, 0x0010, 0xC33D) := by
  decide +kernel

/-! ## SERVICE, CONSTRUCT, FACTORY_RESET -/

/-- V-SV-4, call 1: the budget stops the commit at index 12. -/
theorem test_service_budget : (run1 (.service 200) burned8to12).map
      (fun t => (t.commit, t.dirtyData.flag, t.store, t.trace.length)) =
    some (.committing .data 12 12, true, [(8, 0), (9, 0), (10, 0), (11, 0)], 8) := by decide +kernel

/-- V-SV-7: the clock has wrapped and the gate is closed. -/
theorem test_service_wrapped : (run1 (.service 60) burned8to12).map (fun t => t.trace) = some [] := by decide +kernel

/-- V-CO-2: a seeded store is loaded, not rewritten. -/
theorem test_construct_loads : (run1 (.construct 77) (State.powerUp .configT [(5, 0x0F)])).map
      (fun t => (t.data, t.store, t.lastBus, storeWrites t.trace)) = some ([(5, 0x0F)], [(5, 0x0F)], 77, 0) := by
  decide +kernel

/-- V-CO-1: a blank store is rewritten with the templates. -/
theorem test_construct_blank : (run1 (.construct 0) (blank .configT)).map
      (fun t => (t.data, t.status, t.store, storeWrites t.trace)) = some ([], [], [], 40) := by decide +kernel

/-- V-CO-5. -/
theorem test_factoryReset : (run1 .factoryReset
      { fresh with data := [(6, 0), (7, 0)], dirtyData := ⟨true, 6, 7⟩, lastBus := 30 }).map
      (fun t => (t.data, t.dirtyData, t.commit, t.lastBus)) = some ([], ⟨false, 0xFFFF, 0⟩, .idle, 30) := by
  decide +kernel

/-! ## Internal operations and primitives -/

/-- V-TR-6, V-TR-10. -/
theorem test_translate_mapped : Machine.translate .configT 0x13 = .mapped 11 ∧ Machine.translate .configT 0x2F = .mapped 23 := by decide
/-- V-TR-8, V-TR-13. -/
theorem test_translate_unmapped : Machine.translate .configT 0x18 = .unmapped ∧ Machine.translate .configT 0x40 = .unmapped := by decide
/-- V-CE-4. -/
theorem test_crcEmit : (run1 .crcEmit (fresh.setCrc 0x1153)).map (fun t => (t.trace.reverse, t.result, t.crc)) =
    some ([.sendRaw 0xAC true, .sendRaw 0xEE true], .answered true, 0x1153) := by decide +kernel
/-- V-CE-5. -/
theorem test_crcEmit_fails : (run1 .crcEmit (onBus [] [false] 1 (fresh.setCrc 0x1153))).map
      (fun t => (t.trace, t.result, t.crc)) = some ([.sendRaw 0xAC false], .answered false, 0x1153) := by decide +kernel
/-- R174: the last valid status index and the first invalid one. -/
theorem test_locate_status : locate .configT .status 15 = .valid 15 ∧ locate .configT .status 16 = .invalid := by decide
/-- V-WM-6: a burn that changes nothing is not marked; one that changes a bit is. -/
theorem test_burn : (run1 (.burn .data 8 0xFF) fresh).map (fun t => (t.data, t.dirtyData)) =
      some ([], ⟨false, 0xFFFF, 0⟩) ∧
    (run1 (.burn .data 9 0xEF) fresh).map (fun t => (t.data, t.dirtyData)) = some ([(9, 0x01)], ⟨true, 9, 9⟩) := by
  decide +kernel
/-- V-MK-1: a mark below the range. -/
theorem test_mark : (run1 (.mark .data 2) { fresh with dirtyData := ⟨true, 5, 19⟩ }).map (fun t => t.dirtyData) =
    some ⟨true, 2, 19⟩ := by decide +kernel
/-- V-MK-1: the last CLEAR. -/
theorem test_clear : (run1 (.clear .data) { fresh with dirtyData := ⟨true, 2, 19⟩ }).map (fun t => t.dirtyData) =
    some ⟨false, 0xFFFF, 0⟩ := by decide +kernel
/-- V-CO-2: STORE[24] = 0xE0 makes the store not blank. -/
theorem test_blankCheck : (run1 .blankCheck fresh).map (fun t => t.result) = some (.blank false) ∧
    (run1 .blankCheck (blank .configT)).map (fun t => t.result) = some (.blank true) := by decide +kernel
/-- R292: 40 store writes and 40 store reads; the trackers stay. -/
theorem test_factoryResetBody : (run1 .factoryResetBody (burned 6)).map
      (fun t => (t.data, t.dirtyData.flag, t.trace.length)) = some ([], true, 80) := by decide +kernel
/-- R294; a read that diverges (R114) decides the image byte and leaves the store. -/
theorem test_loadStore : (run1 .loadStore { fresh with store := [(25, 0x07)] }).map (fun t => (t.status, t.data)) =
      some ([(1, 0x07)], []) ∧
    (run1 .loadStore (fresh.setEnv { fresh.env with reads := [none, some 0x05] })).map (fun t => (t.data, t.store)) =
      some ([(1, 0x05)], []) := by decide +kernel
/-- V-CS-2 by a receive. -/
theorem test_recv : (run1 .recv (onBus [0x01] [] 9 fresh)).map (fun t => (t.result, t.crc, t.lastBus)) =
    some (.received (some 0x01), 0xC0C1, 9) := by decide +kernel
/-- V-CS-3 by a send. -/
theorem test_send : (run1 (.send 0xFF) (onBus [] [] 9 fresh)).map (fun t => (t.trace, t.crc, t.lastBus)) =
    some ([.send 0xFF true], 0x4040, 9) := by decide +kernel
/-- R138: the side channel leaves the checksum. -/
theorem test_sendRaw : (run1 (.sendRaw 0xFF) (onBus [] [] 9 fresh)).map (fun t => (t.trace, t.crc, t.lastBus)) =
    some ([.sendRaw 0xFF true], 0, 9) := by decide +kernel
/-- R139: a report does not touch LAST_BUS. -/
theorem test_report : (run1 (.reportProtocolError 0x33) (onBus [] [] 9 fresh)).map (fun t => (t.trace, t.lastBus)) =
    some ([.report 0x33], 0) := by decide +kernel
/-- R292: store address 24 holds the first status template byte. -/
theorem test_storeReadByte : (run1 (.storeReadByte 24) fresh).map (fun t => t.result) = some (.stored 0xE0) := by
  decide +kernel
/-- R115; writing the factory byte back leaves nothing listed. -/
theorem test_storeWriteByte : (run1 (.storeWriteByte 39 0x12) fresh).map (fun t => t.store) = some [(39, 0x12)] ∧
    (run1 (.storeWriteByte 39 0xEF) { fresh with store := [(39, 0x12)] }).map (fun t => t.store) = some [] := by
  decide +kernel

/-! ## Witnesses: concrete states and operands that meet the hypotheses of each statement -/

/-- Fresh T over a bus that delivers `rx`, takes every send and reads 10. -/
def fed (rx : List Nat) : State := onBus rx [] 10 fresh

/-- Fresh T with events pending. -/
def queued (events : List Event) (s : State) : State := s.setEnv { s.env with events := events }

/-- T with WRITE_EN = 0, with STRICT = 1, with PERSIST_EN = 0. -/
def readOnlyT : Config := { Config.configT with writeEn := false }
def strictT : Config := { Config.configT with strict := true }
def volatileT : Config := { Config.configT with persistEn := false }

theorem witness_headers : Config.configT.wf = true ∧ (0x55 : Byte) = Config.configT.cmdWriteStatus ∧
    (0x33 : Byte) ∉ Config.configT.codes := by decide

theorem witness_DecodeOfEncode : Config.configT.wf = true ∧ (Instr.writeStatus 0xFFFF).wf .configT = true ∧
    encode .configT (.writeStatus 0xFFFF) = some [0x55, 0xFF, 0xFF] ∧ (Instr.unknown 0xFF 0).wf .configT = true ∧
    encode .configT (.unknown 0xFF 0) = some [0xFF, 0x00, 0x00] := by decide

/-- Both values of WRITE_EN; for EveryHeaderIsOneCommand, UnknownCodeCount and every statement whose only hypothesis is a
well-formed configuration. -/
theorem witness_configured : Config.configT.wf = true ∧ readOnlyT.wf = true ∧ strictT.wf = true ∧ volatileT.wf = true := by
  decide

/-- Each of the four events, and none. -/
theorem witness_StepRunsPendingEvent : (queued [.transact, .service 1] fresh).env.events = .transact :: [.service 1] ∧
    (queued [.service 1] fresh).env.events = .service 1 :: [] ∧
    (queued [.construct 1] fresh).env.events = .construct 1 :: [] ∧
    (queued [.factoryReset] fresh).env.events = .factoryReset :: [] ∧ fresh.env.events = [] := by decide

theorem witness_TransactRunsDecodedCommand : (queued [.transact] (fed [0xF0, 0x3F, 0x00])).Ready ∧
    (queued [.transact] (fed [0xF0, 0x3F, 0x00])).env.events = .transact :: [] ∧
    (queued [.transact] (fed [0xF0, 0x3F, 0x00])).env.rx = some 0xF0 :: some 0x3F :: some 0x00 :: [] ∧
    decode .configT (0xF0 :: 0x3F :: 0x00 :: []) = .instr (.readMemory 0x003F) [] := by decide

/-- No byte, and two bytes followed by a failed receive. -/
theorem witness_IncompleteHeaderIsSilent : (fed []).Ready ∧ (fed []).env.rx = List.map some [] ++ [] ∧
    (fresh.setEnv { fresh.env with rx := [some 0xF0, some 0x10, none] }).Ready ∧
    (fresh.setEnv { fresh.env with rx := [some 0xF0, some 0x10, none] }).env.rx = List.map some [0xF0, 0x10] ++ [none] ∧
    ([none] : List (Option Byte)).head? = some none := by decide

theorem witness_TransactCompletes : fresh.Ready ∧ (fed [0xF0]).Ready ∧ (fed [0xF0]).env.ticks = [10] := by decide

/-- Sends that succeed by default; a failure at the first send, from the last logical address; one at the last send, the
second byte of the checksum. -/
theorem witness_ReadMemoryStreamsToTheEnd : fresh.cfg.wf = true ∧
    (∀ ok ∈ fresh.env.tx.take (fresh.memoryShown 63).length, ok = true) ∧
    (onBus [] [false] 10 fresh).env.tx = List.replicate 0 true ++ false :: [] ∧
    ((onBus [] [false] 10 fresh).memoryShown 63)[0]?.isSome = true ∧
    (onBus [] (okThenFail 2) 10 fresh).env.tx = List.replicate 2 true ++ false :: [] ∧
    ((onBus [] (okThenFail 2) 10 fresh).memoryShown 63)[2]?.isSome = true := by decide +kernel

/-- Sends that succeed by default and by script; from index 6 the fourth send is the second byte of the first checksum
(V-RS-5). -/
theorem witness_ReadStatusShowsGroups : fresh.cfg.wf = true ∧
    (∀ ok ∈ (onBus [] [true, true] 10 fresh).env.tx.take ((onBus [] [true, true] 10 fresh).statusShown 15).length,
      ok = true) ∧
    (onBus [] (okThenFail 3) 10 fresh).env.tx = List.replicate 3 true ++ false :: [] ∧
    ((onBus [] (okThenFail 3) 10 fresh).statusShown 6)[3]?.isSome = true := by decide +kernel

/-- For CRC_EMIT's and the primitives' `LAST_BUS`: a standing clock reading. -/
theorem witness_ticks : (fed []).cfg.wf = true ∧ (fed []).env.ticks = [10] := by decide

/-- A tolerant write, then a strict one with every address valid: the last valid address of page 2; a checksum whose second
send fails. -/
theorem witness_WriteBurnsEveryLandingByte : (fed [0x0F]).cfg.wf = true ∧ (fed [0x0F]).cfg.writeEn = true ∧
    (fed [0x0F]).env.tx = [] ∧ (fed [0x0F]).env.rx = List.map some [0x0F] ++ [] ∧ (fed [0x0F]).cfg.strict = false ∧
    strictT.wf = true ∧ strictT.writeEn = true ∧
    (∀ k < [(0x0F : Byte)].length, locate strictT .data (0x17 + BitVec.ofNat 16 k) ≠ .invalid) ∧
    (onBus [0x0F] (okThenFail 1) 10 fresh).env.tx = List.replicate 1 true ++ false :: [] ∧
    (checksumShown 0)[1]?.isSome = true := by decide

/-- The last valid address of page 2, then the first beyond it. -/
theorem witness_StrictInvalidWriteAborts : strictT.wf = true ∧ strictT.writeEn = true ∧ strictT.strict = true ∧
    (under strictT (fed [0xF0, 0x0F])).env.rx = List.map some [0xF0] ++ some 0x0F :: [] ∧
    (∀ k < [(0xF0 : Byte)].length, locate strictT .data (0x17 + BitVec.ofNat 16 k) ≠ .invalid) ∧
    locate strictT .data (0x17 + BitVec.ofNat 16 [(0xF0 : Byte)].length) = .invalid := by decide

/-- A write that changes a byte, and one that changes none. -/
theorem witness_WriteMarksWhatChanged : (∃ t, exec (writeInstr .data 5) (fed [0x0F]) = .next t) ∧
    (∃ t, exec (writeInstr .status 0) (fed [0xFF]) = .next t) :=
  ⟨exists_next (by decide +kernel), exists_next (by decide +kernel)⟩

theorem witness_WriteDisabledMeansUnknown : (under readOnlyT (fed [0x0F, 0x05, 0x00])).Ready ∧
    (under readOnlyT (fed [0x0F, 0x05, 0x00])).cfg.writeEn = false ∧
    (under readOnlyT (fed [0x0F, 0x05, 0x00])).env.rx = some (writeCode readOnlyT .data) :: some 0x05 :: some 0x00 :: [] ∧
    (under readOnlyT (fed [0x55, 0x05, 0x00])).env.rx = some (writeCode readOnlyT .status) :: some 0x05 :: some 0x00 :: [] := by
  decide

theorem witness_WriteDisabledMeansUnknown_next :
    (∃ t, exec .transact (under readOnlyT (fed [0x0F, 0x05, 0x00])) = .next t) ∧
    (∃ t, exec (.service 100) (under readOnlyT fresh) = .next t) :=
  ⟨exists_next (by decide +kernel), exists_next (by decide +kernel)⟩

/-- The last index of each region; for BurnClearsAndMarks, MarkWidensTheRange and ClearThenMarkIsOneIndex. -/
theorem witness_index : fresh.cfg.wf = true ∧ (23 : Word16).toNat < fresh.cfg.size (Region.space .data) ∧
    (15 : Word16).toNat < fresh.cfg.size (Region.space .status) := by decide

/-- A burn that changes its byte and one that does not. -/
theorem witness_BurnClearsAndMarks : fresh.peek .data 23 &&& 0x00 ≠ fresh.peek .data 23 ∧
    fresh.peek .data 23 &&& 0x27 = fresh.peek .data 23 := by decide

theorem witness_BurnIsIdempotent : ∃ t, exec (.burn .status 15 0x0F) fresh = .next t := exists_next (by decide +kernel)

/-- The first address beyond the space, the last mapped address, the last address, which is unmapped. -/
theorem witness_TranslateFollowsThePageMap : fresh.cfg.wf = true ∧ fresh.cfg.totalSpace ≤ (64 : Word16).toNat ∧
    ((47 : Word16).toNat < fresh.cfg.totalSpace ∧ ((47 : Word16).toNat / 2 ^ fresh.cfg.pageBits, 2) ∈ fresh.cfg.pageMap) ∧
    (∀ e ∈ fresh.cfg.pageMap, e.1 ≠ (63 : Word16).toNat / 2 ^ fresh.cfg.pageBits) := by decide

theorem witness_TranslationIsOneToOneAndOnto : Config.configT.wf = true ∧ (23 : Word16).toNat < Config.configT.dataSize ∧
    Machine.translate .configT (47 : Word16).toNat = .mapped 23 := by decide

theorem witness_LocateAnswersValidity : fresh.cfg.wf = true ∧ locate fresh.cfg .data 47 = .valid 23 ∧
    locate fresh.cfg .status 15 = .valid 15 ∧ locate fresh.cfg .status 16 = .invalid := by decide

/-- The five shapes of the send script. -/
theorem witness_CrcEmitSendsTheComplement : fresh.cfg.wf = true ∧ fresh.env.tx = [] ∧
    (onBus [] [true] 1 fresh).env.tx = [true] ∧
    (onBus [] [true, true] 1 fresh).env.tx = true :: true :: [] ∧ (onBus [] [false] 1 fresh).env.tx = false :: [] ∧
    (onBus [] (okThenFail 1) 1 fresh).env.tx = true :: false :: [] := by decide

theorem witness_ChecksummedMessageHasConstantResidue : Config.configT.crcAlgorithm = .crc16 := by decide

/-- A byte, a failure, nothing. -/
theorem witness_RecvFoldsOnlyDeliveredBytes : fresh.cfg.wf = true ∧ (fed [0x01]).env.rx = some 0x01 :: [] ∧
    (fresh.setEnv { fresh.env with rx := [none] }).env.rx.head? = some none ∧ fresh.env.rx.head? = none := by decide

/-- A send and a send_raw that succeed and that fail; for SendFoldsSentBytes and SendRawLeavesTheChecksum. -/
theorem witness_SendFoldsSentBytes : fresh.cfg.wf = true ∧ (fresh.send 0xFF).1 = true ∧ fresh.env.tx.head? ≠ some false ∧
    ((onBus [] [false] 1 fresh).send 0xFF).1 = false ∧ (onBus [] [false] 1 fresh).env.tx.head? = some false := by
  decide +kernel

/-- One clock reading, two, and none; for BusPrimitivesStampLastBus and LastClockReadingStands. -/
theorem witness_BusPrimitivesStampLastBus : (fed []).env.ticks = 10 :: [] ∧ fresh.env.ticks = [] ∧
    (fresh.setEnv { fresh.env with ticks := [10, 11] }).env.ticks = 10 :: [11] ∧ (∃ t, exec .recv (fed []) = .next t) ∧
    (∃ t, exec (.send 1) (fed []) = .next t) ∧ (∃ t, exec (.sendRaw 1) (fed []) = .next t) ∧
    (∃ t, exec (.reportProtocolError 1) (fed []) = .next t) ∧ (∃ t, exec .recv fresh = .next t) ∧
    (∃ t, exec .recv (fresh.setEnv { fresh.env with ticks := [10, 11] }) = .next t) :=
  ⟨rfl, rfl, rfl, exists_next (by decide +kernel), exists_next (by decide +kernel), exists_next (by decide +kernel),
    exists_next (by decide +kernel), exists_next (by decide +kernel), exists_next (by decide +kernel)⟩

/-- The last store address, with a read that does not diverge and one that does; for both store statements. -/
theorem witness_store : fresh.cfg.wf = true ∧ fresh.cfg.persistEn = true ∧ 39 < fresh.cfg.dataSize + fresh.cfg.statusSize ∧
    fresh.env.reads = [] ∧ (fresh.setEnv { fresh.env with reads := [some 7] }).env.reads = [some 7] := by decide

/-- The first index beyond each region, the first address beyond the store, and no store. -/
theorem witness_AbsentStorageIsRefused : fresh.cfg.wf = true ∧ fresh.cfg.size (Region.space .data) ≤ (24 : Word16).toNat ∧
    fresh.cfg.size (Region.space .status) ≤ (16 : Word16).toNat ∧ fresh.cfg.persistEn = true ∧
    fresh.cfg.dataSize + fresh.cfg.statusSize ≤ 40 ∧ volatileT.wf = true ∧ volatileT.persistEn = false := by decide

/-- One tick before the threshold; no persistence; nothing to do at the threshold. -/
theorem witness_ServiceWithoutWorkChangesNothing : burned8to12.Ready ∧ 109 < burned8to12.cfg.timeModulus ∧
    burned8to12.lastBus < burned8to12.cfg.timeModulus ∧
    (109 + burned8to12.cfg.timeModulus - burned8to12.lastBus) % burned8to12.cfg.timeModulus < burned8to12.cfg.idleThreshold ∧
    (under volatileT burned8to12).Ready ∧ (under volatileT burned8to12).cfg.persistEn = false ∧
    (fresh.commit = .idle ∧ fresh.dirtyData.flag = false ∧ fresh.dirtyStatus.flag = false) := by decide

/-- At the threshold: the latched range of one byte; a dirty data range of exactly the budget; a dirty status range. -/
theorem witness_ServiceFinishesARangeWithinBudget : latched.Ready ∧ 110 < latched.cfg.timeModulus ∧
    latched.lastBus < latched.cfg.timeModulus ∧ latched.GateOpen 110 ∧ latched.commit = .committing .data 12 12 ∧
    (12 : Cursor).toNat ≤ (12 : Word16).toNat ∧ (12 : Word16).toNat < latched.cfg.size (Region.space .data) ∧
    latched.env.reads = [] ∧ (12 : Word16).toNat - (12 : Cursor).toNat + 1 ≤ latched.cfg.commitBudget := by decide

theorem witness_Selects_dirty :
    { burned8to12 with dirtyData := ⟨true, 20, 23⟩ }.Selects .data 20 23 ∧
    (23 : Word16).toNat - (20 : Cursor).toNat + 1 ≤ burned8to12.cfg.commitBudget ∧
    { fresh with dirtyStatus := ⟨true, 15, 15⟩ }.Selects .status 15 15 := by decide

/-- A range one byte longer than the budget. -/
theorem witness_ServiceStopsAtTheBudget : burned8to12.Ready ∧ burned8to12.GateOpen 110 ∧ burned8to12.Selects .data 8 12 ∧
    (12 : Word16).toNat < burned8to12.cfg.size (Region.space .data) ∧ burned8to12.env.reads = [] ∧
    (8 : Cursor).toNat + burned8to12.cfg.commitBudget ≤ (12 : Word16).toNat := by decide

theorem witness_ServiceDoesBoundedWork : ∃ t, exec (.service 110) burned8to12 = .next t := exists_next (by decide +kernel)

theorem dirty_valid_of (s : State) (h1 : (s.dirtyData = .empty) ∨ (s.dirtyData.flag = true ∧
      s.dirtyData.low.toNat ≤ s.dirtyData.high.toNat ∧ s.dirtyData.high.toNat < s.cfg.size .data))
    (h2 : s.dirtyStatus = .empty) : ∀ r, (s.dirty r).Valid s.cfg r := by
  intro r
  cases r
  · exact h1.symm
  · exact .inr h2

theorem latched_inv : latched.Inv :=
  ⟨by decide, rfl, by decide, by decide, by decide, dirty_valid_of _ (.inr (by decide)) rfl,
    (by decide : (12 : Cursor).toNat ≤ (12 : Word16).toNat ∧ (12 : Word16).toNat < latched.cfg.size (Region.space .data) ∧
      (latched.dirty .data).flag = true), by decide⟩

theorem burned8to12_inv : burned8to12.Inv :=
  ⟨by decide, rfl, by decide, by decide, by decide, dirty_valid_of _ (.inr (by decide)) rfl, trivial, by decide⟩

/-- Data byte 0 is marked and unsaved, outside the latched range. -/
theorem witness_MarkOutsideTheLatchedRangeIsLost : latched.Inv ∧ latched.constructed = true ∧
    110 < latched.cfg.timeModulus ∧ latched.GateOpen 110 ∧ latched.commit = .committing .data 12 12 ∧
    (12 : Word16).toNat - (12 : Cursor).toNat + 1 ≤ latched.cfg.commitBudget ∧
    0 < latched.cfg.size (Region.space .data) ∧ 0 < (12 : Cursor).toNat ∧ latched.Unsaved .data 0 :=
  ⟨latched_inv, by decide, by decide, by decide, by decide, by decide, by decide, by decide,
    (by decide : latched.peek .store (latched.cfg.base .data + 0) ≠ latched.peek .data 0)⟩

/-- Five bytes at four a call: two calls, the first as soon as the bus is idle, the second later, another event after
them. -/
theorem witness_ServiceCallsCompleteTheRange : (queued [.service 110, .service 500, .transact] burned8to12).Ready ∧
    (∀ now ∈ [110, 500], now < burned8to12.cfg.timeModulus ∧
      (queued [.service 110, .service 500, .transact] burned8to12).GateOpen now) ∧
    (queued [.service 110, .service 500, .transact] burned8to12).Selects .data 8 12 ∧
    [110, 500].length =
      ((12 : Word16).toNat - (8 : Cursor).toNat + 1 + burned8to12.cfg.commitBudget - 1) / burned8to12.cfg.commitBudget ∧
    (queued [.service 110, .service 500, .transact] burned8to12).env.events =
      [110, 500].map .service ++ [.transact] := by decide

/-- A state with diverging store reads to come. -/
def diverging (reads : List (Option Byte)) (s : State) : State := s.setEnv { s.env with reads := reads }

/-- Seven reads that do not diverge, then one that answers 0. -/
def lastSampleDiverges : List (Option Byte) := List.replicate 7 none ++ [some 0]

theorem witness_ConstructWithoutPersistence : (blank volatileT).cfg.wf = true ∧ (blank volatileT).constructed = false ∧
    (blank volatileT).cfg.persistEn = false ∧ 2 ^ 32 - 1 < (blank volatileT).cfg.timeModulus := by decide

/-- A blank store; and a store at the templates whose eight sampled reads all diverge to 0xFF. -/
theorem witness_ConstructOnABlankStore : (blank .configT).cfg.wf = true ∧ (blank .configT).constructed = false ∧
    (blank .configT).cfg.persistEn = true ∧ (blank .configT).env.reads = [] ∧
    (∀ j < 2 * (blank .configT).cfg.blankSample,
      (blank .configT).answers j ((blank .configT).peek .store (sampleAddress .configT j)) = 0xFF) ∧
    (∀ j < 2 * Config.configT.blankSample, (diverging (List.replicate 8 (some 0xFF)) (State.powerUp .configT [])).answers j
      ((diverging (List.replicate 8 (some 0xFF)) (State.powerUp .configT [])).peek .store (sampleAddress .configT j)) =
      0xFF) := by decide +kernel

/-- A store at the templates: the second sampled byte, status index 0, is not 0xFF. A blank store whose last sampled read,
status index 3, diverges. -/
theorem witness_ConstructLoadsASeededStore : (State.powerUp .configT []).cfg.wf = true ∧
    (State.powerUp .configT []).constructed = false ∧ (State.powerUp .configT []).cfg.persistEn = true ∧
    (State.powerUp .configT []).env.reads = [] ∧ 7 < 2 * Config.configT.blankSample ∧
    (∀ j < 1, (State.powerUp .configT []).answers j
      ((State.powerUp .configT []).peek .store (sampleAddress .configT j)) = 0xFF) ∧
    (State.powerUp .configT []).answers 1 ((State.powerUp .configT []).peek .store (sampleAddress .configT 1)) ≠ 0xFF ∧
    (∀ j < 7, (diverging lastSampleDiverges (blank .configT)).answers j
      ((diverging lastSampleDiverges (blank .configT)).peek .store (sampleAddress .configT j)) = 0xFF) ∧
    (diverging lastSampleDiverges (blank .configT)).answers 7
      ((diverging lastSampleDiverges (blank .configT)).peek .store (sampleAddress .configT 7)) ≠ 0xFF := by decide +kernel

/-- With persistence, over reads that do not diverge and that do, and without; for FactoryResetRestoresTheTemplates. -/
theorem witness_FactoryResetRestoresTheTemplates : (burned 6).Ready ∧ (burned 6).env.reads = [] ∧
    (burned 6).cfg.persistEn = true ∧ (diverging [some 0] (burned 6)).Ready ∧ (under volatileT (burned 6)).Ready ∧
    (under volatileT (burned 6)).cfg.persistEn = false := by decide

/-- For LoadStoreCopiesBothRegions and BlankCheckSamplesBothRegions: a store that is blank and one that is not. -/
theorem witness_store_does_not_diverge : fresh.cfg.wf = true ∧ fresh.cfg.persistEn = true ∧ fresh.env.reads = [] ∧
    fresh.peek .store 24 ≠ 0xFF ∧ (blank .configT).env.reads = [] := by decide

theorem witness_IllFormedConfigurationIsRefused : (under { Config.configT with commitBudget := 0 } fresh).cfg.wf = false := by
  decide

theorem witness_EntryPointDutiesAreChecked : fresh.cfg.wf = true ∧ fresh.constructed = true ∧
    (State.powerUp .configT []).constructed = false ∧ (fresh.setPhase .header).phase ≠ .done := by decide

/-- Pending events are no part of the invariant. -/
theorem queued_inv {s : State} (events : List Event) (h : s.Inv) : (queued events s).Inv :=
  ⟨h.configured, h.quiet, h.data_wf, h.status_wf, h.store_wf, h.dirty_valid, h.commit_valid, h.last_bus⟩

theorem witness_StepKeepsTheInvariant : (queued [.service 110] latched).Inv ∧
    ∃ t, step (queued [.service 110] latched) = .next t :=
  ⟨queued_inv _ latched_inv, exists_next (by decide +kernel)⟩

/-- For ConfigurationIsNeverWritten and OnlyResetSetsBits: a burn completes. -/
theorem witness_completes : ∃ t, exec (.burn .data 23 0) fresh = .next t := exists_next (by decide +kernel)

/-- A write transaction and a service call, two steps. -/
theorem witness_BitsStayClearedOverRuns :
    (∀ e ∈ (queued [.transact, .service 110] (fed [0x0F, 0x05, 0x00, 0x0F])).env.events,
      e = .transact ∨ ∃ now, e = .service now) ∧
    ∃ t, Host.Core.run Sys2Proof.core 2 (queued [.transact, .service 110] (fed [0x0F, 0x05, 0x00, 0x0F])) = .next t :=
  ⟨fun e he => by
    have he' : e ∈ [Event.transact, .service 110] := he
    simp only [List.mem_cons, List.not_mem_nil, or_false] at he'
    exact he'.imp_right fun h => ⟨110, h⟩, exists_next (by decide +kernel)⟩

theorem burned8to12_covered : burned8to12.Covered := by
  have h : ∀ i < 24, (i < 8 ∨ 12 < i) → burned8to12.peek .store i = burned8to12.peek .data i := by decide
  have k : ∀ i < 16, burned8to12.peek .store (24 + i) = burned8to12.peek .status i := by decide
  intro r i hi hu
  cases r with
  | data =>
    have hi24 : i < 24 := hi
    have hin : 8 ≤ i ∧ i ≤ 12 := by
      by_contra hn
      refine hu ?_
      show burned8to12.peek .store (0 + i) = burned8to12.peek .data i
      rw [Nat.zero_add]
      exact h i hi24 (by omega)
    exact ⟨rfl, hin.1, hin.2, fun _ _ hc => by cases hc⟩
  | status => exact absurd (k i hi) hu

/-- A SERVICE step and a TRANSACT step, from a state with five unsaved bytes. -/
theorem witness_UnsavedBytesStayCovered (e : Event) (he : e = .service 110 ∨ e = .transact) :
    (queued [e] burned8to12).Inv ∧ (queued [e] burned8to12).Covered ∧ (queued [e] burned8to12).env.reads = [] ∧
    (queued [e] burned8to12).env.events = e :: [] ∧
    (e = .transact ∧ (queued [e] burned8to12).commit = .idle ∨ ∃ now, e = .service now) ∧
    ∃ t, step (queued [e] burned8to12) = .next t := by
  refine ⟨queued_inv _ burned8to12_inv, burned8to12_covered, rfl, rfl, ?_, ?_⟩
  · exact he.elim (fun h => .inr ⟨110, h⟩) fun h => .inl ⟨h, rfl⟩
  · rcases he with rfl | rfl <;> exact exists_next (by decide +kernel)

end Sys2Proof.Tests
end

section
/-! PROOF. The decoder and the encoder are inverse to each other on headers and well-formed commands (R100, R104). -/

namespace Sys2Proof

/-- The codes of the present commands, the write codes under WRITE_EN (R104, R106). -/
theorem Config.mem_presentCodes {cfg : Config} {code : Byte} :
    code ∈ cfg.presentCodes ↔ code = cfg.cmdReadMemory ∨ code = cfg.cmdReadStatus ∨
      cfg.writeEn = true ∧ code = cfg.cmdWriteMemory ∨ cfg.writeEn = true ∧ code = cfg.cmdWriteStatus := by
  cases hw : cfg.writeEn <;> simp [Config.presentCodes, Config.codes, hw]

theorem headerBytes_eq_iff {code b0 b1 b2 : Byte} {ta : Word16} :
    headerBytes code ta = [b0, b1, b2] ↔ code = b0 ∧ ta = addressOf b1 b2 := by
  constructor
  · intro h
    obtain ⟨hcode, hlow, hhigh⟩ : code = b0 ∧ lowByte ta = b1 ∧ highByte ta = b2 := by simpa [headerBytes] using h
    exact ⟨hcode, by rw [← hlow, ← hhigh, addressOf_bytes]⟩
  · rintro ⟨rfl, rfl⟩
    rw [headerBytes, lowByte_addressOf, highByte_addressOf]

theorem headerBytes_addressOf (b0 b1 b2 : Byte) : headerBytes b0 (addressOf b1 b2) = [b0, b1, b2] :=
  headerBytes_eq_iff.2 ⟨rfl, rfl⟩

/-! What each command byte decodes to. -/

section DecodeHeader
variable {cfg : Config} (b1 b2 : Byte)

theorem decodeHeader_readMemory (hc : cfg.Facts) :
    decodeHeader cfg cfg.cmdReadMemory b1 b2 = .readMemory (addressOf b1 b2) := by
  rw [decodeHeader, (commandOf_codes hc).1]

theorem decodeHeader_readStatus (hc : cfg.Facts) :
    decodeHeader cfg cfg.cmdReadStatus b1 b2 = .readStatus (addressOf b1 b2) := by
  rw [decodeHeader, (commandOf_codes hc).2.1]

theorem decodeHeader_writeMemory (hc : cfg.Facts) (hw : cfg.writeEn = true) :
    decodeHeader cfg cfg.cmdWriteMemory b1 b2 = .writeMemory (addressOf b1 b2) := by
  rw [decodeHeader, ((commandOf_codes hc).2.2 hw).1]

theorem decodeHeader_writeStatus (hc : cfg.Facts) (hw : cfg.writeEn = true) :
    decodeHeader cfg cfg.cmdWriteStatus b1 b2 = .writeStatus (addressOf b1 b2) := by
  rw [decodeHeader, ((commandOf_codes hc).2.2 hw).2]

theorem decodeHeader_unknown {b0 : Byte} (h : b0 ∉ cfg.presentCodes) :
    decodeHeader cfg b0 b1 b2 = .unknown b0 (addressOf b1 b2) := by
  rw [decodeHeader, commandOf_unknown_iff.2 h]

/-- The encoder undoes the decoder, and the decoded command is well-formed: one case for each present code, and one for
the codes of no present command (R106). -/
theorem decodeHeader_wf_and_encode (b0 : Byte) (hc : cfg.Facts) :
    (decodeHeader cfg b0 b1 b2).wf cfg = true ∧ encode cfg (decodeHeader cfg b0 b1 b2) = some [b0, b1, b2] := by
  rw [← headerBytes_addressOf]
  by_cases h : b0 ∈ cfg.presentCodes
  · obtain rfl | rfl | ⟨hw, rfl⟩ | ⟨hw, rfl⟩ := Config.mem_presentCodes.1 h
    · rw [decodeHeader_readMemory b1 b2 hc]
      exact ⟨rfl, rfl⟩
    · rw [decodeHeader_readStatus b1 b2 hc]
      exact ⟨rfl, rfl⟩
    · rw [decodeHeader_writeMemory b1 b2 hc hw]
      exact ⟨hw, rfl⟩
    · rw [decodeHeader_writeStatus b1 b2 hc hw]
      exact ⟨hw, rfl⟩
  · rw [decodeHeader_unknown b1 b2 h]
    exact ⟨by simpa [Instr.wf] using h, rfl⟩

end DecodeHeader

/-- The decoder undoes the encoder on well-formed commands; of the other operations none has an encoding (R118). -/
theorem decodeHeader_of_encode {cfg : Config} {i : Instr} {b0 b1 b2 : Byte} (hc : cfg.Facts) (hwf : i.wf cfg = true)
    (h : encode cfg i = some [b0, b1, b2]) : decodeHeader cfg b0 b1 b2 = i := by
  cases i with
  | readMemory ta =>
    obtain ⟨rfl, rfl⟩ := headerBytes_eq_iff.1 (Option.some.inj h)
    exact decodeHeader_readMemory b1 b2 hc
  | readStatus ta =>
    obtain ⟨rfl, rfl⟩ := headerBytes_eq_iff.1 (Option.some.inj h)
    exact decodeHeader_readStatus b1 b2 hc
  | writeMemory ta =>
    obtain ⟨rfl, rfl⟩ := headerBytes_eq_iff.1 (Option.some.inj h)
    exact decodeHeader_writeMemory b1 b2 hc hwf
  | writeStatus ta =>
    obtain ⟨rfl, rfl⟩ := headerBytes_eq_iff.1 (Option.some.inj h)
    exact decodeHeader_writeStatus b1 b2 hc hwf
  | unknown code ta =>
    obtain ⟨rfl, rfl⟩ := headerBytes_eq_iff.1 (Option.some.inj h)
    exact decodeHeader_unknown b1 b2 (by simpa [Instr.wf] using hwf)
  | _ => cases h

/-- Settles O2: the command is the decoder's, and any other with the same header is it because the decoder undoes the
encoder. -/
theorem everyHeaderIsOneCommand : Obligations.EveryHeaderIsOneCommand := by
  intro cfg b0 b1 b2 rest hcfg
  have hc := Config.facts hcfg
  obtain ⟨hwf, henc⟩ := decodeHeader_wf_and_encode b1 b2 b0 hc
  refine ⟨decodeHeader cfg b0 b1 b2, addressOf b1 b2, rfl, addressOf_toNat b1 b2, ?_, ?_, ?_, ?_, ?_, hwf, henc,
    fun j hj hje => (decodeHeader_of_encode hc hj hje).symm⟩
  · rintro rfl
    exact decodeHeader_readMemory b1 b2 hc
  · rintro rfl
    exact decodeHeader_readStatus b1 b2 hc
  · rintro hw rfl
    exact decodeHeader_writeMemory b1 b2 hc hw
  · rintro hw rfl
    exact decodeHeader_writeStatus b1 b2 hc hw
  · intro hrm hrs hwrite
    refine decodeHeader_unknown b1 b2 fun hmem => ?_
    obtain h | h | ⟨hw, h⟩ | ⟨hw, h⟩ := Config.mem_presentCodes.1 hmem
    · exact hrm h
    · exact hrs h
    · exact (hwrite hw).1 h
    · exact (hwrite hw).2 h

end Sys2Proof
end

section
/-! PROOF. TRANSLATE as a correspondence of pages with slots (R66, R130, R131, R133): an address and an index answer to
each other where their pages stand together in the page map and their offsets are equal. -/

namespace Sys2Proof.Machine

section Correspondence
variable {cfg : Config}

/-- Each slot belongs to some page: the slots are distinct, below N_SLOTS, and N_SLOTS many (R8). -/
theorem exists_page_of_slot (h : cfg.Facts) {ps : Nat} (hps : ps < cfg.slots) : ∃ lp, (lp, ps) ∈ cfg.pageMap := by
  have hsub : (cfg.pageMap.map Prod.snd).Subperm (List.range cfg.slots) :=
    List.subperm_of_subset h.slots_nodup fun x hx => by
      obtain ⟨e, he, rfl⟩ := List.mem_map.1 hx
      exact List.mem_range.2 (h.slots_lt e he)
  have hperm : (cfg.pageMap.map Prod.snd).Perm (List.range cfg.slots) :=
    hsub.perm_of_length_le (by simp [Config.slots])
  obtain ⟨⟨lp, _⟩, he, rfl⟩ := List.mem_map.1 (hperm.mem_iff.2 (List.mem_range.2 hps))
  exact ⟨lp, he⟩

/-- No two pages share a slot (R8). -/
theorem page_unique_of_slot (h : cfg.Facts) {lp lq ps : Nat} (hp : (lp, ps) ∈ cfg.pageMap)
    (hq : (lq, ps) ∈ cfg.pageMap) : lp = lq :=
  congrArg Prod.fst (List.inj_on_of_nodup_map h.slots_nodup hp hq rfl)

/-- A mapped page lies below TOTAL_SPACE (R8). -/
theorem lt_totalSpace_of_page_mem (h : cfg.Facts) {a ps : Nat} (hm : (a / cfg.pageSize, ps) ∈ cfg.pageMap) :
    a < cfg.totalSpace :=
  Nat.lt_of_div_lt_div (h.pages_lt _ hm)

theorem translate_of_page_mem (h : cfg.Facts) {a ps : Nat} (hm : (a / cfg.pageSize, ps) ∈ cfg.pageMap) :
    ∃ p, translate cfg a = .mapped p ∧ p.toNat = ps * cfg.pageSize + a % cfg.pageSize := by
  have hlt : ps * cfg.pageSize + a % cfg.pageSize < 2 ^ 16 :=
    (slot_offset_lt h hm (Nat.mod_lt _ cfg.pageSize_pos)).trans_le h.data_le_65536
  have hp : (BitVec.ofNat 16 (ps * cfg.pageSize + a % cfg.pageSize)).toNat = ps * cfg.pageSize + a % cfg.pageSize :=
    Nat.mod_eq_of_lt hlt
  exact ⟨_, (translate_mapped_iff h a _).2 ⟨lt_totalSpace_of_page_mem h hm, ps, hm, hp⟩, hp⟩

/-- R131: an address is unmapped where its page is absent; the addresses from TOTAL_SPACE on are among them. -/
theorem translate_unmapped_iff (h : cfg.Facts) (a : Nat) :
    translate cfg a = .unmapped ↔ ∀ ps, (a / cfg.pageSize, ps) ∉ cfg.pageMap := by
  constructor
  · intro hu ps hm
    obtain ⟨p, hp, -⟩ := translate_of_page_mem h hm
    rw [hu] at hp
    cases hp
  · intro habsent
    cases hp : translate cfg a with
    | unmapped => rfl
    | mapped p =>
      obtain ⟨-, ps, hm, -⟩ := (translate_mapped_iff h a p).1 hp
      exact absurd hm (habsent ps)

/-- TRANSLATE by page and slot, with the same offset on both sides. -/
theorem translate_mapped_iff_page_slot (h : cfg.Facts) (a : Nat) (p : Word16) :
    translate cfg a = .mapped p ↔
      (a / cfg.pageSize, p.toNat / cfg.pageSize) ∈ cfg.pageMap ∧ p.toNat % cfg.pageSize = a % cfg.pageSize := by
  rw [translate_mapped_iff h]
  constructor
  · rintro ⟨-, ps, hm, hp⟩
    have hoff : a % cfg.pageSize < cfg.pageSize := Nat.mod_lt _ cfg.pageSize_pos
    obtain ⟨hslot, hmod⟩ : p.toNat / cfg.pageSize = ps ∧ p.toNat % cfg.pageSize = a % cfg.pageSize :=
      (Nat.div_mod_unique cfg.pageSize_pos).2 ⟨by rw [hp, Nat.add_comm, Nat.mul_comm], hoff⟩
    exact ⟨hslot.symm ▸ hm, hmod⟩
  · rintro ⟨hm, hoff⟩
    exact ⟨lt_totalSpace_of_page_mem h hm, _, hm, by rw [← hoff, Nat.div_add_mod']⟩

/-- The address of a page and an offset, as a word: it lies below TOTAL_SPACE, so it fits. -/
theorem exists_address_of_page_offset (h : cfg.Facts) {lp ps off : Nat} (hm : (lp, ps) ∈ cfg.pageMap)
    (hoff : off < cfg.pageSize) :
    ∃ addr : Word16, addr.toNat / cfg.pageSize = lp ∧ addr.toNat % cfg.pageSize = off := by
  obtain ⟨hdiv, hmod⟩ :
      (off + cfg.pageSize * lp) / cfg.pageSize = lp ∧ (off + cfg.pageSize * lp) % cfg.pageSize = off :=
    (Nat.div_mod_unique cfg.pageSize_pos).2 ⟨rfl, hoff⟩
  have hfits : (BitVec.ofNat 16 (off + cfg.pageSize * lp)).toNat = off + cfg.pageSize * lp :=
    Nat.mod_eq_of_lt ((lt_totalSpace_of_page_mem h (hdiv.symm ▸ hm)).trans_le h.total_le)
  exact ⟨BitVec.ofNat 16 (off + cfg.pageSize * lp), by rw [hfits, hdiv], by rw [hfits, hmod]⟩

/-- R133: the page of the index's slot and the index's offset name an address that translates to it. -/
theorem exists_translate_eq_mapped (h : cfg.Facts) {p : Word16} (hp : p.toNat < cfg.dataSize) :
    ∃ addr : Word16, translate cfg addr.toNat = .mapped p := by
  obtain ⟨lp, hm⟩ := exists_page_of_slot h ((Nat.div_lt_iff_lt_mul cfg.pageSize_pos).2 hp)
  obtain ⟨addr, hpage, hoff⟩ := exists_address_of_page_offset h hm (Nat.mod_lt p.toNat cfg.pageSize_pos)
  exact ⟨addr, (translate_mapped_iff_page_slot h _ p).2 ⟨hpage.symm ▸ hm, hoff.symm⟩⟩

/-- R133: no two addresses share a physical index. -/
theorem translate_injective (h : cfg.Facts) {a b : Nat} {p : Word16} (ha : translate cfg a = .mapped p)
    (hb : translate cfg b = .mapped p) : a = b := by
  obtain ⟨hma, hoa⟩ := (translate_mapped_iff_page_slot h a p).1 ha
  obtain ⟨hmb, hob⟩ := (translate_mapped_iff_page_slot h b p).1 hb
  calc a = a / cfg.pageSize * cfg.pageSize + a % cfg.pageSize := (Nat.div_add_mod' _ _).symm
    _ = b / cfg.pageSize * cfg.pageSize + b % cfg.pageSize := by rw [page_unique_of_slot h hma hmb, ← hoa, hob]
    _ = b := Nat.div_add_mod' _ _

end Correspondence

/-- Settles O21: an entry of the address's page fixes the index, and no entry reaches TOTAL_SPACE or an absent page. -/
theorem translateFollowsThePageMap : Obligations.TranslateFollowsThePageMap := by
  intro s addr hcfg
  have h := Config.facts hcfg
  refine ⟨translate s.cfg addr.toNat, State.whenConfigured_of hcfg _, ?beyond, ?mapped, ?absent⟩
  case beyond =>
    intro hbeyond
    exact (translate_unmapped_iff h _).2 fun _ hm => absurd (lt_totalSpace_of_page_mem h hm) (Nat.not_lt.2 hbeyond)
  case mapped =>
    intro ps _ hm
    obtain ⟨p, hp, hindex⟩ := translate_of_page_mem h hm
    exact ⟨p, hp, hindex, translate_lt h hp⟩
  case absent => exact (translate_unmapped_iff h _).2

/-- Settles O22: slots and pages are in one-to-one correspondence, and offsets are kept. -/
theorem translationIsOneToOneAndOnto : Obligations.TranslationIsOneToOneAndOnto := by
  intro cfg hcfg
  have h := Config.facts hcfg
  constructor
  · intro p hp
    obtain ⟨addr, haddr⟩ := exists_translate_eq_mapped h hp
    exact ⟨addr, haddr, fun b hb => BitVec.eq_of_toNat_eq (translate_injective h hb haddr)⟩
  · intro addr p hp
    obtain ⟨hm, hoff⟩ := (translate_mapped_iff_page_slot h _ p).1 hp
    exact ⟨translate_lt h hp, hoff, hm⟩

end Sys2Proof.Machine
end

section
/-! PROOF. The clock stamp of the bus primitives (R139): each of them ends in `touchBus`, with the clock still unread. -/

namespace Sys2Proof.Machine

section Stamp
variable {s t : State}

/-- `LAST_BUS` takes the next reading, which is used up unless it is the clock's last (R139, log 4). -/
theorem State.touchBus_of_ticks {now : Nat} {rest : List Nat} (h : s.env.ticks = now :: rest) :
    s.touchBus.lastBus = now % s.cfg.timeModulus ∧ (rest ≠ [] → s.touchBus.env.ticks = rest) := by
  rw [State.touchBus_eq, h]
  cases rest with
  | nil => exact ⟨rfl, fun hne => absurd rfl hne⟩
  | cons next rest => exact ⟨rfl, fun _ => rfl⟩

theorem State.recv_eq_touchBus (s : State) :
    ∃ u : State, s.recv.2 = u.touchBus ∧ u.cfg = s.cfg ∧ u.env.ticks = s.env.ticks := by
  rcases h : s.env.rx with _ | ⟨_ | b, rest⟩
  · rw [State.recv_nil h]; exact ⟨_, rfl, rfl, rfl⟩
  · rw [State.recv_none h]; exact ⟨_, rfl, rfl, rfl⟩
  · rw [State.recv_some h]; exact ⟨_, rfl, rfl, rfl⟩

theorem State.send_eq_touchBus (b : Byte) (s : State) :
    ∃ u : State, (s.send b).2 = u.touchBus ∧ u.cfg = s.cfg ∧ u.env.ticks = s.env.ticks := by
  rw [State.send_of_tx]
  split <;> exact ⟨_, rfl, rfl, rfl⟩

theorem State.sendRaw_eq_touchBus (b : Byte) (s : State) :
    ∃ u : State, (s.sendRaw b).2 = u.touchBus ∧ u.cfg = s.cfg ∧ u.env.ticks = s.env.ticks := by
  rw [State.sendRaw_of_tx]
  split <;> exact ⟨_, rfl, rfl, rfl⟩

/-- A bus primitive run alone ends by sampling the clock; only its answer is written after that. -/
theorem exec_busPrimitive_eq_touchBus {i : Instr} (hi : i = .recv ∨ (∃ b, i = .send b) ∨ ∃ b, i = .sendRaw b)
    (h : exec i s = .next t) :
    ∃ (u : State) (x : OpResult), t = u.touchBus.setResult x ∧ u.cfg = s.cfg ∧ u.env.ticks = s.env.ticks := by
  obtain rfl | ⟨b, rfl⟩ | ⟨b, rfl⟩ := hi
  · obtain ⟨u, hu, hkept⟩ := s.recv_eq_touchBus
    cases (State.whenConfigured_next h).2
    exact ⟨u, _, by rw [hu], hkept⟩
  · obtain ⟨u, hu, hkept⟩ := s.send_eq_touchBus b
    cases (State.whenConfigured_next h).2
    exact ⟨u, _, by rw [hu], hkept⟩
  · obtain ⟨u, hu, hkept⟩ := s.sendRaw_eq_touchBus b
    cases (State.whenConfigured_next h).2
    exact ⟨u, _, by rw [hu], hkept⟩

end Stamp

/-- Settles O29: the three primitives by the `touchBus` they end in; a report writes the trace alone. -/
theorem busPrimitivesStampLastBus : Obligations.BusPrimitivesStampLastBus := by
  intro s t now rest hticks
  constructor
  · intro i hi h
    obtain ⟨u, x, rfl, hcfg, hu⟩ := exec_busPrimitive_eq_touchBus hi h
    rw [← hcfg]
    exact State.touchBus_of_ticks (hu.trans hticks)
  · intro code h
    cases (State.whenConfigured_next h).2
    exact ⟨rfl, rfl⟩

end Sys2Proof.Machine
end

section
/-! PROOF. What the model does with WRITE_EN = 0 (R182): every command left changes bus matters only, and SERVICE writes
no image byte and marks nothing. -/

namespace Sys2Proof

section WriteDisabled
variable {cfg : Config}

/-- R104: without WRITE_EN command decode selects a read command or none. -/
theorem commandOf_of_writeDisabled (hw : cfg.writeEn = false) (code : Byte) :
    commandOf cfg code = .readMemory ∨ commandOf cfg code = .readStatus ∨ commandOf cfg code = .unknown := by
  simp only [commandOf, hw, Bool.false_eq_true, false_and, if_false]
  split_ifs
  · exact .inl rfl
  · exact .inr (.inl rfl)
  · exact .inr (.inr rfl)

/-- R182: a write code is the code of no present command. -/
theorem commandOf_writeCode_of_writeDisabled (hc : cfg.Facts) (hw : cfg.writeEn = false) (r : Region) :
    commandOf cfg (Machine.writeCode cfg r) = .unknown := by
  obtain ⟨-, hrm_wm, hrm_ws, hrs_wm, hrs_ws, -⟩ := hc.codes_ne_each
  refine commandOf_unknown_iff.2 fun hmem => ?_
  have hread := Config.mem_presentCodes.1 hmem
  cases r with
  | data => simp [Machine.writeCode, hw, hrm_wm.symm, hrs_wm.symm] at hread
  | status => simp [Machine.writeCode, hw, hrm_ws.symm, hrs_ws.symm] at hread

end WriteDisabled

end Sys2Proof

namespace Sys2Proof.Machine

section Transact
variable {s : State}

/-- TRANSACT on a complete header: the command runs in the state the three receives leave (R101, R104). -/
theorem State.transact_of_header {b0 b1 b2 : Byte} {rest : List (Option Byte)}
    (h : s.env.rx = some b0 :: some b1 :: some b2 :: rest) :
    s.transact = s.receiveHeader.2.runCommand b0 (addressOf b1 b2) := by
  have hheader := (State.receiveHeader_complete h).1
  unfold State.transact
  rcases hx : s.receiveHeader with ⟨header, t⟩
  rw [hx] at hheader
  cases hheader
  rfl

theorem State.runCommand_unknown {code : Byte} (h : commandOf s.cfg code = .unknown) (ta : Word16) :
    s.runCommand code ta = s.unknownCommand code ta := by
  rw [State.runCommand, h]

/-- UNKNOWN shows its code and takes nothing from the environment (R181). -/
theorem State.unknownCommand_rest (code : Byte) (ta : Word16) (s : State) :
    (s.unknownCommand code ta).trace = .report code :: s.trace ∧ (s.unknownCommand code ta).env = s.env :=
  ⟨rfl, rfl⟩

/-- Each command left without WRITE_EN changes bus matters only (R75, R181). -/
theorem Quiet.runCommand_of_writeDisabled (hw : s.cfg.writeEn = false) (code : Byte) (ta : Word16) :
    Quiet s (s.runCommand code ta) := by
  rw [State.runCommand]
  obtain h | h | h := commandOf_of_writeDisabled hw code <;> rw [h]
  · exact .readMemory ta s
  · exact .readStatus ta s
  · exact .unknownCommand code ta s

/-- A transaction without WRITE_EN changes bus matters only, its header complete or not. -/
theorem Quiet.transact_of_writeDisabled (hw : s.cfg.writeEn = false) : Quiet s s.transact := by
  have hheader := Quiet.receiveHeader s
  unfold State.transact
  rcases hx : s.receiveHeader with ⟨_ | ⟨b0, b1, b2⟩, t⟩ <;> rw [hx] at hheader
  · exact hheader.trans (.takeError t _)
  · exact hheader.trans (.runCommand_of_writeDisabled (hheader.cfg ▸ hw) _ _)

end Transact

section Service
variable {s t : State}

/-- What a SERVICE call can do: nothing, or work on one range (R223). -/
theorem exec_service_next {now : Nat} (h : exec (.service now) s = .next t) :
    t = s ∨ ∃ r cursor last, t = s.serviceRange r cursor last := by
  have hrun := (State.whenReady_next (show execService now s = .next t from h)).2
  split at hrun
  · cases hrun
    exact .inl rfl
  · next r cursor last _ =>
    cases (State.whenInSpace_next hrun).2
    exact .inr ⟨r, cursor, last, rfl⟩

/-- The work on a range never writes the image (R224). -/
theorem State.serviceRange_image (r : Region) (c : Cursor) (last : Word16) (s : State) :
    SameImage s (s.serviceRange r c last) := by
  intro q a
  rw [State.serviceRange_eq, State.finishCommit_peek]
  exact commitLoop_image r last _ c s (Region.space_ne_store q) a

/-- The work on a range leaves a tracker as it was or clears it (R222). -/
theorem State.serviceRange_dirty (r : Region) (c : Cursor) (last : Word16) (s : State) (q : Region) :
    (s.serviceRange r c last).dirty q = s.dirty q ∨ (s.serviceRange r c last).dirty q = .empty := by
  rw [State.serviceRange_eq, ← (StoreQuiet.commitLoop r last s.cfg.commitBudget c s).dirty q]
  generalize commitLoop r last s.cfg.commitBudget c s = done
  by_cases hpast : last.toNat < done.1.toNat
  · rw [(done.2.finishCommit_past hpast).2 q]
    split
    · exact .inr rfl
    · exact .inl rfl
  · exact .inl ((done.2.finishCommit_before (Nat.not_lt.1 hpast)).2 q)

/-- SERVICE writes no image byte and sets no dirty flag (R223, R224). -/
theorem exec_service_image_and_flags {now : Nat} (h : exec (.service now) s = .next t) :
    SameImage s t ∧ ∀ r, (s.dirty r).flag = false → (t.dirty r).flag = false := by
  obtain rfl | ⟨r, c, last, rfl⟩ := exec_service_next h
  · exact ⟨fun _ _ => rfl, fun _ hclear => hclear⟩
  · refine ⟨s.serviceRange_image r c last, fun q hclear => ?_⟩
    obtain hd | hd := s.serviceRange_dirty r c last q <;> rw [hd]
    · exact hclear
    · rfl

end Service

/-- Settles O15: a write code decodes to the unknown command, and every transaction and service call left is quiet on the
image and on the flags. -/
theorem writeDisabledMeansUnknown : Obligations.WriteDisabledMeansUnknown := by
  intro s hready hw
  have hexec : exec .transact s = .next s.transact := State.whenReady_of hready _
  constructor
  · intro r b1 b2 rest hrx
    obtain ⟨-, -, hrest, -, htrace, -⟩ := State.receiveHeader_complete hrx
    have hunknown : commandOf s.receiveHeader.2.cfg (writeCode s.cfg r) = .unknown := by
      rw [(Quiet.receiveHeader s).cfg]
      exact commandOf_writeCode_of_writeDisabled (Config.facts hready.1) hw r
    obtain ⟨hreport, henv⟩ := s.receiveHeader.2.unknownCommand_rest (writeCode s.cfg r) (addressOf b1 b2)
    refine ⟨s.transact, hexec, ?_⟩
    rw [State.transact_of_header hrx, State.runCommand_unknown hunknown, hreport, henv]
    exact ⟨by rw [htrace], hrest⟩
  · rintro t (h | ⟨now, h⟩)
    · cases hexec.symm.trans h
      have hquiet := Quiet.transact_of_writeDisabled hw
      exact ⟨hquiet.busOnly.image, fun r hclear => by rw [hquiet.dirty r, hclear]⟩
    · exact exec_service_image_and_flags h

end Sys2Proof.Machine
end

section
/-! PROOF. BURN (R175): its one byte, its region's tracker, and the frame of the rest. -/

namespace Sys2Proof.Machine

/-- BURN writes the image and the tracker only. -/
theorem State.burn_imageOnly (r : Region) (i : Word16) (b : Byte) (s : State) : ImageOnly s (s.burn r i b) := by
  obtain ⟨hcfg, hconstructed, hphase, hcmd, hta, hcrc, -, hcommit, hlastBus, henv, htrace, hresult, hfree⟩ :=
    s.burn_rest r i b
  refine ⟨⟨hcfg, hconstructed⟩, ⟨hcmd, hta, hcrc, hphase⟩, fun a => ?_, hcommit, hlastBus, henv, htrace, hresult, hfree⟩
  rw [State.burn_peek, if_neg fun h => Region.space_ne_store r h.1]

theorem Region.space_injective : Function.Injective Region.space := by
  intro q r h
  cases q <;> cases r <;> cases h <;> rfl

theorem exec_burn {s : State} {r : Region} {i : Word16} (hcfg : s.cfg.wf = true) (hi : i.toNat < s.cfg.size r.space)
    (b : Byte) : exec (.burn r i b) s = .next (s.burn r i b) :=
  (State.whenConfigured_of hcfg _).trans (State.whenInSpace_of hi _)

/-- Settles O17: byte and tracker by the rules of a burn, by whether the value changes. -/
theorem burnClearsAndMarks : Obligations.BurnClearsAndMarks := by
  intro s r i incoming hcfg hi
  refine ⟨s.burn r i incoming, exec_burn hcfg hi incoming, ?byte, ?others, ?unchanged, ?changed, ?otherRegion,
    s.burn_imageOnly r i incoming⟩
  case byte => rw [State.burn_peek, if_pos ⟨rfl, rfl⟩]
  case others =>
    intro q a hother
    rw [State.burn_peek, if_neg fun h => hother ⟨Region.space_injective h.1.symm, h.2⟩]
  case unchanged =>
    intro hsame
    rw [State.burn_dirty, if_neg fun h => h.2 hsame]
  case changed =>
    intro hdiff
    rw [State.burn_dirty, if_pos ⟨rfl, hdiff⟩]
    exact ⟨DirtyRange.mark_flag _ i, DirtyRange.mark_low _ i, DirtyRange.mark_high _ i⟩
  case otherRegion =>
    intro q hq
    rw [State.burn_dirty, if_neg fun h => hq h.1.symm]

end Sys2Proof.Machine
end

section
/-! PROOF. The dirty tracker: MARK (R200) and CLEAR (R203) run alone. -/

namespace Sys2Proof.Machine

@[simp] theorem State.setDirty_setDirty (r : Region) (d e : DirtyRange) (s : State) :
    (s.setDirty r d).setDirty r e = s.setDirty r e := by cases r <;> rfl

theorem exec_mark {s : State} {r : Region} {i : Word16} (hcfg : s.cfg.wf = true) (hi : i.toNat < s.cfg.size r.space) :
    exec (.mark r i) s = .next (s.setDirty r ((s.dirty r).mark i)) :=
  (State.whenConfigured_of hcfg _).trans (State.whenInSpace_of hi _)

theorem exec_clear {s : State} (hcfg : s.cfg.wf = true) (r : Region) :
    exec (.clear r) s = .next (s.setDirty r .empty) :=
  State.whenConfigured_of hcfg _

/-- A MARK that finds the sentinel in its region's tracker leaves the range of its one index (R201). -/
theorem exec_mark_of_cleared {s : State} {r : Region} {i : Word16} (hcfg : s.cfg.wf = true)
    (hi : i.toNat < s.cfg.size r.space) :
    exec (.mark r i) (s.setDirty r .empty) = .next (s.setDirty r ⟨true, i, i⟩) := by
  have hcfg' : (s.setDirty r .empty).cfg.wf = true := by rwa [State.setDirty_cfg]
  have hi' : i.toNat < (s.setDirty r .empty).cfg.size r.space := by rwa [State.setDirty_cfg]
  rw [exec_mark hcfg' hi', State.setDirty_setDirty, State.setDirty_dirty, if_pos rfl, DirtyRange.mark_empty]

/-- Settles O19: the range is the tracker's own, widened by min and max. -/
theorem markWidensTheRange : Obligations.MarkWidensTheRange := by
  intro s r i hcfg hi
  exact ⟨(s.dirty r).mark i, exec_mark hcfg hi, DirtyRange.mark_flag _ i, DirtyRange.mark_low _ i,
    DirtyRange.mark_high _ i⟩

/-- Settles O20: CLEAR writes the sentinel, from which a MARK's min and max are its own index. -/
theorem clearThenMarkIsOneIndex : Obligations.ClearThenMarkIsOneIndex := by
  intro s r hcfg
  exact ⟨exec_clear hcfg r, fun _ hi => exec_mark_of_cleared hcfg hi⟩

end Sys2Proof.Machine
end

section
/-! PROOF. SERVICE without work (R216, R217, R219): a closed gate, no store, or nothing pending selects no range. -/

namespace Sys2Proof.Machine

section NoWork
variable {s : State} {now : Nat}

/-- R216: below IDLE_THRESHOLD the bus is not idle. -/
theorem State.busIdle_eq_false (hn : now < s.cfg.timeModulus) (hl : s.lastBus < s.cfg.timeModulus)
    (h : (now + s.cfg.timeModulus - s.lastBus) % s.cfg.timeModulus < s.cfg.idleThreshold) : s.busIdle now = false := by
  rw [State.busIdle, State.elapsed_eq hn hl]
  exact decide_eq_false (Nat.not_le.2 h)

/-- R219: with no commit in progress and no tracker dirty there is no range to choose. -/
theorem State.chooseCommit_eq_none (hcommit : s.commit = .idle) (hdata : s.dirtyData.flag = false)
    (hstatus : s.dirtyStatus.flag = false) : s.chooseCommit = none := by
  simp [State.chooseCommit, hcommit, hdata, hstatus]

theorem State.pendingCommit_of_noPersistence (h : s.cfg.persistEn = false) : s.pendingCommit now = none :=
  if_pos h

theorem State.pendingCommit_of_busy (h : s.busIdle now = false) : s.pendingCommit now = none := by
  rw [State.pendingCommit, if_pos h, ite_self]

theorem State.pendingCommit_of_chooseCommit (h : s.chooseCommit = none) : s.pendingCommit now = none := by
  rw [State.pendingCommit, h, ite_self, ite_self]

/-- A call that selects no range returns the state it was given (R223). -/
theorem exec_service_of_pendingCommit (hready : s.Ready) (h : s.pendingCommit now = none) :
    exec (.service now) s = .next s := by
  show execService now s = .next s
  rw [execService, State.whenReady_of hready, h]

end NoWork

/-- Settles O34: each of the three conditions leaves the call without a range. -/
theorem serviceWithoutWorkChangesNothing : Obligations.ServiceWithoutWorkChangesNothing := by
  intro s now hready hn hl hnoWork
  refine exec_service_of_pendingCommit hready ?_
  obtain hbusy | hpersist | ⟨hcommit, hdata, hstatus⟩ := hnoWork
  · exact State.pendingCommit_of_busy (State.busIdle_eq_false hn hl hbusy)
  · exact State.pendingCommit_of_noPersistence hpersist
  · exact State.pendingCommit_of_chooseCommit (State.chooseCommit_eq_none hcommit hdata hstatus)

end Sys2Proof.Machine
end

section
/-! PROOF. The header read back (R100, R104), and how many command bytes no present command has (R106). -/

namespace Sys2Proof

/-- What has an encoding is encoded as three bytes: a command's header (R100, R118). -/
theorem eq_header_of_encode {cfg : Config} {i : Instr} {bytes : List Byte} (h : encode cfg i = some bytes) :
    ∃ b0 b1 b2, bytes = [b0, b1, b2] := by
  cases i with
  | readMemory ta | readStatus ta | writeMemory ta | writeStatus ta | unknown code ta =>
    cases h
    exact ⟨_, _, _, rfl⟩
  | _ => cases h

/-- Settles O1: an encoding is a header, which the decoder reads back whatever follows it. -/
theorem decodeOfEncode : Obligations.DecodeOfEncode := by
  intro cfg i bytes rest hcfg hwf henc
  obtain ⟨b0, b1, b2, rfl⟩ := eq_header_of_encode henc
  show Decoded.instr (decodeHeader cfg b0 b1 b2) rest = .instr i rest
  rw [decodeHeader_of_encode (Config.facts hcfg) hwf henc]

/-- Settles O4, by running the decoder on each header. -/
theorem headerBytesDecode : Obligations.HeaderBytesDecode := by
  refine ⟨?_, ?_, ?_, ?_, ?_, ?_⟩ <;> decide

/-- The bytes, each once, as the numbers below 256 name them. -/
def allBytes : List Byte := (List.range 256).map (BitVec.ofNat 8)

theorem mem_allBytes (b : Byte) : b ∈ allBytes :=
  List.mem_map.2 ⟨b.toNat, List.mem_range.2 b.isLt, by simp⟩

theorem allBytes_nodup : allBytes.Nodup := by
  refine List.Nodup.map_on (fun m hm n hn h => ?_) List.nodup_range
  have hm256 := List.mem_range.1 hm
  have hn256 := List.mem_range.1 hn
  have hmod : m % 2 ^ 8 = n % 2 ^ 8 := congrArg BitVec.toNat h
  omega

/-- Every byte being listed once, the bytes outside a list of distinct bytes are the other ones. -/
theorem countP_not_mem_allBytes {codes : List Byte} (h : codes.Nodup) :
    allBytes.countP (fun b => decide (b ∉ codes)) = 256 - codes.length := by
  have hperm : (allBytes.filter fun b => decide (b ∈ codes)).Perm codes :=
    (List.perm_ext_iff_of_nodup (allBytes_nodup.filter _) h).2 fun b => by simp [mem_allBytes]
  have hsplit := List.length_eq_countP_add_countP (fun b => decide (b ∈ codes)) (l := allBytes)
  have hall : allBytes.length = 256 := by rw [allBytes, List.length_map, List.length_range]
  rw [List.countP_eq_length_filter, hperm.length_eq, hall] at hsplit
  simp only [decide_eq_true_eq] at hsplit
  omega

theorem Config.Facts.presentCodes_nodup {cfg : Config} (h : cfg.Facts) : cfg.presentCodes.Nodup := by
  unfold Config.presentCodes
  split
  · exact h.codes_nodup
  · simpa using h.codes_ne_each.1

theorem Config.length_presentCodes (cfg : Config) : cfg.presentCodes.length = if cfg.writeEn then 4 else 2 := by
  unfold Config.presentCodes
  split <;> rfl

/-- Settles O3: the unknown bytes are those outside the distinct codes of the present commands. -/
theorem unknownCodeCount : Obligations.UnknownCodeCount := by
  intro cfg hcfg
  have hcount := countP_not_mem_allBytes (Config.facts hcfg).presentCodes_nodup
  rw [allBytes, List.countP_map, cfg.length_presentCodes] at hcount
  simp only [commandOf_unknown_iff]
  refine Eq.trans hcount ?_
  cases cfg.writeEn <;> rfl

end Sys2Proof
end

section
/-! PROOF. What the operations are made of: a property that each part keeps is kept by every operation built of these
parts. The configuration (R34), the image bits (R6, R22) and the pending events follow. -/

namespace Sys2Proof.Machine

/-! ## Comparing bytes -/

theorem SameImage.onlyCleared {s t : State} (h : SameImage s t) : OnlyCleared s t := fun r a => by
  rw [h r a, BitVec.and_self]

theorem OnlyCleared.refl (s : State) : OnlyCleared s s := fun _ _ => BitVec.and_self

/-- A subset of a subset of a byte's bits is a subset of them. -/
theorem OnlyCleared.trans {s t u : State} (hst : OnlyCleared s t) (htu : OnlyCleared t u) : OnlyCleared s u :=
  fun r a => by
    rw [← htu r a, BitVec.and_assoc, hst r a]

theorem OnlyCleared.burn (r : Region) (i : Word16) (b : Byte) (s : State) : OnlyCleared s (s.burn r i b) := by
  intro q a
  rw [State.burn_peek]
  split
  · rw [BitVec.and_comm (s.peek q.space a) b, BitVec.and_assoc, BitVec.and_self]
  · exact BitVec.and_self

/-! ## The parts -/

/-- `P` is kept by each part of the operations that construct and reset nothing. -/
structure KeptByParts (P : State → Prop) : Prop where
  quiet : ∀ s t, Quiet s t → P s → P t
  burn : ∀ s r i b, BitVec.toNat i < s.cfg.size (Region.space r) → P s → P (s.burn r i b)
  storeRead : ∀ s a, P s → P (s.storeReadByte a).2
  storeWrite : ∀ s a v, P s → P (s.storeWriteByte a v)
  dirty : ∀ s r d, P s → P (s.setDirty r d)
  commit : ∀ s c, P s → P (s.setCommit c)
  result : ∀ s x, P s → P (s.setResult x)

section Parts
variable {P : State → Prop} {s t : State}

theorem KeptByParts.commitStep (hP : KeptByParts P) (r : Region) (i : Nat) (h : P s) : P (s.commitStep r i) := by
  have hread : P (s.storeReadByte (s.cfg.base r + i)).2 := hP.storeRead s _ h
  unfold State.commitStep
  dsimp only
  split
  · exact hP.storeWrite _ _ _ hread
  · exact hread

theorem KeptByParts.finishCommit (hP : KeptByParts P) (r : Region) (c : Cursor) (last : Word16) (h : P s) :
    P (s.finishCommit r c last) := by
  unfold State.finishCommit
  split
  · exact hP.commit _ _ (hP.dirty _ _ _ h)
  · exact hP.commit _ _ h

theorem KeptByParts.serviceRange (hP : KeptByParts P) (r : Region) (c : Cursor) (last : Word16) (h : P s) :
    P (s.serviceRange r c last) :=
  hP.finishCommit r _ last (commitLoop_induction r last (fun _ i _ ht => hP.commitStep r i ht) _ c s h)

theorem KeptByParts.blankCheck (hP : KeptByParts P) (h : P s) : P s.blankCheck.2 := by
  have hloop : ∀ n i s, P s → P (blankLoop n i s).2 := by
    intro n
    induction n with
    | zero => exact fun _ _ hs => hs
    | succ n ih =>
      intro i s hs
      have hdata := hP.storeRead s (s.cfg.base .data + i) hs
      have hstatus := hP.storeRead _ ((s.storeReadByte (s.cfg.base .data + i)).2.cfg.base .status + i) hdata
      rw [blankLoop_succ]
      split
      · exact hdata
      · split
        · exact hstatus
        · exact ih _ _ hstatus
  exact hloop _ _ s h

/-- Whatever the parts keep, every operation keeps that is none of CONSTRUCT, FACTORY_RESET and the loads. -/
theorem KeptByParts.exec (hP : KeptByParts P) {i : Instr} (hconstruct : ∀ now, i ≠ .construct now)
    (hreset : i ≠ .factoryReset) (hbody : i ≠ .factoryResetBody) (hload : i ≠ .loadStore) (h : exec i s = .next t)
    (hs : P s) : P t := by
  cases i with
  | readMemory ta =>
    cases (State.whenConfigured_next h).2
    exact hP.quiet _ _ (.readMemory ta s) hs
  | readStatus ta =>
    cases (State.whenConfigured_next h).2
    exact hP.quiet _ _ (.readStatus ta s) hs
  | writeMemory ta =>
    obtain ⟨hcfg, hnext⟩ := State.whenConfigured_next h
    cases hnext
    exact (State.write_induction .data ta s (Config.facts hcfg) hP.quiet (fun s => hP.burn s .data) hs).1 rfl
  | writeStatus ta =>
    obtain ⟨hcfg, hnext⟩ := State.whenConfigured_next h
    cases hnext
    exact (State.write_induction .status ta s (Config.facts hcfg) hP.quiet (fun s => hP.burn s .status) hs).2 rfl
  | unknown code ta =>
    cases (State.whenConfigured_next h).2
    exact hP.quiet _ _ (.unknownCommand code ta s) hs
  | transact =>
    obtain ⟨⟨hcfg, -, -⟩, hnext⟩ := State.whenReady_next h
    cases hnext
    exact State.transact_induction s (Config.facts hcfg) hP.quiet hP.burn hs
  | service now =>
    obtain rfl | ⟨r, c, last, rfl⟩ := exec_service_next h
    · exact hs
    · exact hP.serviceRange r c last hs
  | construct now => exact absurd rfl (hconstruct now)
  | factoryReset => exact absurd rfl hreset
  | translate addr =>
    cases (State.whenConfigured_next h).2
    exact hP.result _ _ hs
  | crcEmit =>
    cases (State.whenConfigured_next h).2
    exact hP.result _ _ (hP.quiet _ _ (.crcEmit s) hs)
  | locate r ta =>
    cases (State.whenConfigured_next h).2
    exact hP.result _ _ hs
  | burn r i b =>
    obtain ⟨hi, hnext⟩ := State.whenInSpace_next (State.whenConfigured_next h).2
    cases hnext
    exact hP.burn s r i b hi hs
  | mark r i =>
    cases (State.whenInSpace_next (State.whenConfigured_next h).2).2
    exact hP.dirty _ _ _ hs
  | clear r =>
    cases (State.whenConfigured_next h).2
    exact hP.dirty _ _ _ hs
  | blankCheck =>
    cases (State.whenStore_next (State.whenConfigured_next h).2).2
    exact hP.result _ _ (hP.blankCheck hs)
  | factoryResetBody => exact absurd rfl hbody
  | loadStore => exact absurd rfl hload
  | recv =>
    cases (State.whenConfigured_next h).2
    exact hP.result _ _ (hP.quiet _ _ (.recv s) hs)
  | send b =>
    cases (State.whenConfigured_next h).2
    exact hP.result _ _ (hP.quiet _ _ (.send s b) hs)
  | sendRaw b =>
    cases (State.whenConfigured_next h).2
    exact hP.result _ _ (hP.quiet _ _ (.sendRaw s b) hs)
  | reportProtocolError code =>
    cases (State.whenConfigured_next h).2
    exact hP.quiet _ _ (.observe s _) hs
  | storeReadByte a =>
    cases (State.whenInSpace_next (State.whenStore_next (State.whenConfigured_next h).2).2).2
    exact hP.result _ _ (hP.storeRead s a hs)
  | storeWriteByte a v =>
    cases (State.whenInSpace_next (State.whenStore_next (State.whenConfigured_next h).2).2).2
    exact hP.storeWrite s a v hs

end Parts

/-! ## What the parts keep -/

theorem SameConfig.refl (s : State) : SameConfig s s := ⟨rfl, rfl⟩

theorem SameConfig.trans {s t u : State} (hst : SameConfig s t) (htu : SameConfig t u) : SameConfig s u :=
  ⟨htu.1.trans hst.1, htu.2.trans hst.2⟩

theorem StoreQuiet.sameConfig {s t : State} (h : StoreQuiet s t) : SameConfig s t := ⟨h.cfg, h.constructed⟩

theorem KeptByParts.sameConfig (s : State) : KeptByParts (SameConfig s) where
  quiet _ _ h hs := hs.trans h.busOnly.config
  burn t r i b _ hs := hs.trans (t.burn_imageOnly r i b).config
  storeRead t a hs := hs.trans (StoreQuiet.storeReadByte t a).sameConfig
  storeWrite t a v hs := hs.trans (StoreQuiet.storeWriteByte t a v).sameConfig
  dirty t r d hs := hs.trans ⟨t.setDirty_cfg r d, t.setDirty_constructed r d⟩
  commit _ _ hs := hs.trans ⟨rfl, rfl⟩
  result _ _ hs := hs.trans ⟨rfl, rfl⟩

theorem KeptByParts.onlyCleared (s : State) : KeptByParts (OnlyCleared s) where
  quiet _ _ h hs := hs.trans h.busOnly.image.onlyCleared
  burn t r i b _ hs := hs.trans (.burn r i b t)
  storeRead t a hs := hs.trans (SameImage.onlyCleared fun _ _ => t.storeReadByte_peek a _ _)
  storeWrite t a v hs := hs.trans <| SameImage.onlyCleared fun r _ => by
    rw [State.storeWriteByte_peek, if_neg fun h => Region.space_ne_store r h.1.symm]
  dirty t r d hs := hs.trans (SameImage.onlyCleared fun _ _ => t.setDirty_peek r d _ _)
  commit t c hs := hs.trans (SameImage.onlyCleared fun _ _ => t.setCommit_peek c _ _)
  result t x hs := hs.trans (SameImage.onlyCleared fun _ _ => t.setResult_peek x _ _)

theorem KeptByParts.events (s : State) : KeptByParts fun t => t.env.events = s.env.events where
  quiet _ _ h hs := h.events.trans hs
  burn t r i b _ hs := by rw [t.burn_env r i b, hs]
  storeRead t a hs := (StoreQuiet.storeReadByte t a).events.trans hs
  storeWrite t a v hs := (StoreQuiet.storeWriteByte t a v).events.trans hs
  dirty t r d hs := by rw [t.setDirty_env r d, hs]
  commit _ _ hs := hs
  result _ _ hs := hs

theorem StoreQuiet.sameConfig_clearAll {s t : State} (h : StoreQuiet s t) : SameConfig s t.clearAll := by
  obtain ⟨-, -, hcfg, -, -, hconstructed, -⟩ := t.clearAll_rest
  exact h.sameConfig.trans ⟨hcfg, hconstructed⟩

/-- Settles O51: the operations that write the image from a template or the store leave the configuration alone, and of
these CONSTRUCT alone writes that it has run; the others are made of parts that write neither. -/
theorem configurationIsNeverWritten : Obligations.ConfigurationIsNeverWritten := by
  intro i s t h
  by_cases hconstruct : ∃ now, i = .construct now
  · obtain ⟨now, rfl⟩ := hconstruct
    have hnext := (State.whenConfigured_next h).2
    split at hnext
    · cases hnext
    · cases hnext
      exact ⟨(StoreQuiet.constructImage s).sameConfig_clearAll.1, fun hne => absurd rfl (hne now)⟩
  · have hkept : SameConfig s t := by
      by_cases hreset : i = .factoryReset
      · subst hreset
        cases (State.whenReady_next h).2
        exact (StoreQuiet.factoryResetBody s).sameConfig_clearAll
      by_cases hbody : i = .factoryResetBody
      · subst hbody
        cases (State.whenConfigured_next h).2
        exact (StoreQuiet.factoryResetBody s).sameConfig
      by_cases hload : i = .loadStore
      · subst hload
        cases (State.whenStore_next (State.whenConfigured_next h).2).2
        exact (StoreQuiet.loadStore s).sameConfig
      exact (KeptByParts.sameConfig s).exec (not_exists.1 hconstruct) hreset hbody hload h (.refl s)
    exact ⟨hkept.1, fun _ => hkept.2⟩

/-- Settles O52: of the parts a burn alone writes the image, and it only clears bits. -/
theorem onlyResetSetsBits : Obligations.OnlyResetSetsBits := by
  intro i s t hconstruct hreset hbody hload h
  exact (KeptByParts.onlyCleared s).exec hconstruct hreset hbody hload h (.refl s)

/-! ## Runs -/

section Runs
variable {s t : State}

theorem step_of_no_event (h : s.env.events = []) : step s = .next s := by
  simp [step, h]

/-- Whatever the parts keep, TRANSACT and SERVICE keep. -/
theorem KeptByParts.exec_event {P : State → Prop} (hP : KeptByParts P) {e : Event}
    (he : e = .transact ∨ ∃ now, e = .service now) (h : Machine.exec e.toInstr s = .next t) (hs : P s) : P t := by
  obtain rfl | ⟨now, rfl⟩ := he
  · exact hP.exec (i := .transact) nofun nofun nofun nofun h hs
  · exact hP.exec (i := .service now) nofun nofun nofun nofun h hs

/-- One step of such a run, with the events it leaves pending. -/
theorem step_transact_or_service (hevents : ∀ e ∈ s.env.events, e = .transact ∨ ∃ now, e = .service now)
    (h : step s = .next t) : OnlyCleared s t ∧ ∀ e ∈ t.env.events, e = .transact ∨ ∃ now, e = .service now := by
  rcases hs : s.env.events with _ | ⟨e, rest⟩
  · rw [step_of_no_event hs] at h
    cases h
    exact ⟨.refl s, hevents⟩
  · rw [hs] at hevents
    rw [step_of_event hs] at h
    have he := hevents e List.mem_cons_self
    have hcleared := (KeptByParts.onlyCleared _).exec_event he h (.refl _)
    have hleft := (KeptByParts.events _).exec_event he h rfl
    refine ⟨fun r a => ?_, fun f hf => hevents f (List.mem_cons_of_mem e ?_)⟩
    · simpa using hcleared r a
    · rwa [hleft, State.setEnv_env] at hf

end Runs

/-- Settles O53, by induction on the number of steps. -/
theorem bitsStayClearedOverRuns : Obligations.BitsStayClearedOverRuns := by
  intro n
  induction n with
  | zero =>
    intro s t _ h
    cases h
    exact .refl s
  | succ n ih =>
    intro s t hevents h
    obtain ⟨u, hstep, hrun⟩ := run_cases n h
    obtain ⟨hcleared, hleft⟩ := step_transact_or_service hevents hstep
    exact hcleared.trans (ih u t hleft hrun)

end Sys2Proof.Machine
end

section
/-! PROOF. The invariant between entry points (R206, R32, R33, R60, R26): State.reset meets it, and every step keeps it. -/

namespace Sys2Proof.Machine

/-! ## The invariant without the phase, which a transaction changes on its way -/

/-- What every part of an entry point keeps: the invariant but for the phase. -/
structure State.Sound (s : State) : Prop where
  configured : s.cfg.wf = true
  memory : s.memoryWf
  dirty_valid : ∀ r, (s.dirty r).Valid s.cfg r
  commit_valid : s.CommitValid
  last_bus : s.lastBus < s.cfg.timeModulus

section Sound
variable {s t : State}

theorem State.Inv.sound (h : s.Inv) : s.Sound where
  configured := h.configured
  memory q := by
    cases q with
    | data => exact h.data_wf
    | status => exact h.status_wf
    | store => exact h.store_wf
  dirty_valid := h.dirty_valid
  commit_valid := h.commit_valid
  last_bus := h.last_bus

theorem State.Sound.inv (h : s.Sound) (hphase : s.phase = .done) : s.Inv :=
  ⟨h.configured, hphase, h.memory .data, h.memory .status, h.memory .store, h.dirty_valid, h.commit_valid, h.last_bus⟩

/-! ## Trackers and commit states -/

theorem DirtyRange.Valid.empty (cfg : Config) (r : Region) : DirtyRange.empty.Valid cfg r := .inr rfl

/-- MARK inside the region keeps the tracker valid: from the sentinel it gives one index, else it widens the range. -/
theorem DirtyRange.Valid.mark {cfg : Config} {r : Region} {d : DirtyRange} {i : Word16} (h : d.Valid cfg r)
    (hi : i.toNat < cfg.size r.space) : (d.mark i).Valid cfg r := by
  obtain ⟨-, hle, hlt⟩ | rfl := h
  · refine .inl ⟨DirtyRange.mark_flag d i, ?_, ?_⟩
    · rw [DirtyRange.mark_low, DirtyRange.mark_high]; omega
    · rw [DirtyRange.mark_high]; omega
  · rw [DirtyRange.mark_empty]
    exact .inl ⟨rfl, le_refl _, hi⟩

theorem State.commitValid_of_idle (h : s.commit = .idle) : s.CommitValid := by
  rw [State.CommitValid, h]
  trivial

theorem State.commitValid_iff {r : Region} {c : Cursor} {last : Word16} (h : s.commit = .committing r c last) :
    s.CommitValid ↔ c.toNat ≤ last.toNat ∧ last.toNat < s.cfg.size r.space ∧ (s.dirty r).flag = true := by
  rw [State.CommitValid, h]

/-- A valid commit state stays valid where the commit is the same and no flag was cleared. -/
theorem State.CommitValid.of_flags (h : s.CommitValid) (hcfg : t.cfg = s.cfg) (hcommit : t.commit = s.commit)
    (hflags : ∀ r, (s.dirty r).flag = true → (t.dirty r).flag = true) : t.CommitValid := by
  rcases hs : s.commit with _ | ⟨r, c, last⟩
  · exact State.commitValid_of_idle (hcommit.trans hs)
  · obtain ⟨hle, hlt, hflag⟩ := (State.commitValid_iff hs).1 h
    exact (State.commitValid_iff (hcommit.trans hs)).2 ⟨hle, hcfg ▸ hlt, hflags r hflag⟩

/-! ## The parts of a transaction -/

theorem State.Sound.quiet (hs : s.Sound) (h : Quiet s t) : t.Sound where
  configured := h.cfg ▸ hs.configured
  memory q := by rw [h.cfg, h.mem q]; exact hs.memory q
  dirty_valid r := by rw [h.cfg, h.dirty r]; exact hs.dirty_valid r
  commit_valid := hs.commit_valid.of_flags h.cfg h.commit fun r hr => by rwa [h.dirty r]
  last_bus := by rw [h.cfg]; exact h.time hs.last_bus

theorem State.burn_memoryWf (hs : s.memoryWf) {r : Region} {i : Word16} (hi : i.toNat < s.cfg.size r.space) (b : Byte) :
    (s.burn r i b).memoryWf := by
  rw [State.burn_eq]
  split
  · exact hs
  · intro q
    rw [State.mark, State.setDirty_mem, State.setDirty_cfg]
    exact State.memoryWf_poke _ hs hi q

theorem State.burn_flag (r : Region) (i : Word16) (b : Byte) (s : State) (q : Region) (h : (s.dirty q).flag = true) :
    ((s.burn r i b).dirty q).flag = true := by
  rw [State.burn_dirty]
  split
  · rfl
  · exact h

theorem State.Sound.burn (hs : s.Sound) {r : Region} {i : Word16} (hi : i.toNat < s.cfg.size r.space) (b : Byte) :
    (s.burn r i b).Sound := by
  have himage := s.burn_imageOnly r i b
  have hcfg : (s.burn r i b).cfg = s.cfg := s.burn_cfg r i b
  refine ⟨by rw [hcfg]; exact hs.configured, State.burn_memoryWf hs.memory hi b, fun q => ?_,
    hs.commit_valid.of_flags hcfg himage.commit (s.burn_flag r i b), by rw [himage.last_bus, hcfg]; exact hs.last_bus⟩
  rw [hcfg, State.burn_dirty]
  split
  · next h => exact h.1 ▸ (hs.dirty_valid r).mark hi
  · exact hs.dirty_valid q

/-- A transaction keeps the invariant. -/
theorem State.Inv.transact (hs : s.Inv) : s.transact.Inv := by
  have hsound : s.transact.Sound :=
    State.transact_induction s (Config.facts hs.configured) (fun _ _ h hs => hs.quiet h)
      (fun _ _ _ b hi hs => hs.burn hi b) hs.sound
  exact hsound.inv s.transact_phase

/-! ## SERVICE -/

/-- What a SERVICE call can do: nothing, or work on the range that is pending, which lies inside its region (R223). -/
theorem exec_service_cases {now : Nat} (h : exec (.service now) s = .next t) :
    t = s ∨ ∃ r c last, s.pendingCommit now = some (r, c, last) ∧ last.toNat < s.cfg.size r.space ∧
      t = s.serviceRange r c last := by
  have hrun := (State.whenReady_next (show execService now s = .next t from h)).2
  split at hrun
  · cases hrun
    exact .inl rfl
  · next r c last hpending =>
    obtain ⟨hlast, hnext⟩ := State.whenInSpace_next hrun
    cases hnext
    exact .inr ⟨r, c, last, hpending, hlast, rfl⟩

theorem State.chooseCommit_of_pendingCommit {now : Nat} {x : Region × Cursor × Word16}
    (h : s.pendingCommit now = some x) : s.chooseCommit = some x := by
  unfold State.pendingCommit at h
  split_ifs at h
  exact h

/-- A range is only chosen in a region whose flag is set (R219, R32). -/
theorem State.flag_of_chooseCommit {r : Region} {c : Cursor} {last : Word16} (hs : s.CommitValid)
    (h : s.chooseCommit = some (r, c, last)) : (s.dirty r).flag = true := by
  obtain hcommit | ⟨-, hflag, -⟩ := State.chooseCommit_spec h
  · exact ((State.commitValid_iff hcommit).1 hs).2.2
  · exact hflag

/-- The state after one call's work: the range finished and its region clear, or the cursor kept and the trackers as they
were (R221, R222). -/
theorem State.serviceRange_cases (r : Region) (c : Cursor) (last : Word16) (s : State) :
    (last.toNat + 1 ≤ c.toNat + s.cfg.commitBudget ∧ (s.serviceRange r c last).commit = .idle ∧
      ∀ q, (s.serviceRange r c last).dirty q = if r = q then .empty else s.dirty q) ∨
    ∃ d : Cursor, c.toNat + s.cfg.commitBudget ≤ last.toNat ∧ d.toNat = c.toNat + s.cfg.commitBudget ∧
      (s.serviceRange r c last).commit = .committing r d last ∧ SameTracker s (s.serviceRange r c last) := by
  have hcursor := commitLoop_cursor r last s.cfg.commitBudget c s
  have hloop := StoreQuiet.commitLoop r last s.cfg.commitBudget c s
  rw [State.serviceRange_eq]
  generalize commitLoop r last s.cfg.commitBudget c s = done at hcursor hloop
  by_cases hpast : last.toNat < done.1.toNat
  · obtain ⟨hcommit, hdirty⟩ := done.2.finishCommit_past hpast
    exact .inl ⟨by omega, hcommit, fun q => by rw [hdirty q, hloop.dirty q]⟩
  · obtain ⟨hcommit, hdirty⟩ := done.2.finishCommit_before (Nat.not_lt.1 hpast)
    exact .inr ⟨done.1, by omega, by omega, hcommit, fun q => (hdirty q).trans (hloop.dirty q)⟩

/-- The registers, the clock and the environment after one call's work (R38, R223). -/
theorem State.serviceRange_serviceOnly (r : Region) (c : Cursor) (last : Word16) (s : State) :
    ServiceOnly s (s.serviceRange r c last) := by
  have hloop := StoreQuiet.commitLoop r last s.cfg.commitBudget c s
  obtain ⟨hcfg, hconstructed, hphase, hcmd, hta, hcrc, -, hlastBus, henv, -, hresult, hfree⟩ :=
    (commitLoop r last s.cfg.commitBudget c s).2.finishCommit_rest r (commitLoop r last s.cfg.commitBudget c s).1 last
  rw [← State.serviceRange_eq] at *
  refine ⟨⟨hcfg.trans hloop.cfg, hconstructed.trans hloop.constructed⟩,
    ⟨hcmd.trans hloop.cmd, hta.trans hloop.ta, hcrc.trans hloop.crc, hphase.trans hloop.phase⟩,
    s.serviceRange_image r c last, hlastBus.trans hloop.lastBus, hresult.trans hloop.result,
    hfree.trans hloop.freeCount, ?_, ?_, ?_, ?_⟩ <;> rw [henv]
  · exact hloop.events
  · exact hloop.rx
  · exact hloop.tx
  · exact hloop.ticks

theorem State.serviceRange_memoryWf {r : Region} {c : Cursor} {last : Word16} (hs : s.memoryWf) (hcfg : s.cfg.wf = true)
    (hlast : last.toNat < s.cfg.size r.space) : (s.serviceRange r c last).memoryWf := by
  have hloop := commitLoop_memoryWf s.cfg.commitBudget c (Config.facts hcfg) hlast hs
  rw [State.serviceRange_eq]
  generalize commitLoop r last s.cfg.commitBudget c s = done at hloop
  obtain ⟨hkept, -, -, -, -, -, hmem, -⟩ := done.2.finishCommit_rest r done.1 last
  intro q
  rw [hkept, hmem q]
  exact hloop q

/-- A service call keeps the invariant. -/
theorem State.Inv.service (hs : s.Inv) {now : Nat} (h : exec (.service now) s = .next t) : t.Inv := by
  obtain rfl | ⟨r, c, last, hpending, hlast, rfl⟩ := exec_service_cases h
  · exact hs
  have honly := s.serviceRange_serviceOnly r c last
  obtain ⟨hcfg, -⟩ := honly.config
  obtain ⟨-, -, -, hphase⟩ := honly.registers
  refine State.Sound.inv ⟨hcfg ▸ hs.configured, ?memory, ?dirty, ?commit, by rw [honly.last_bus, hcfg]; exact hs.last_bus⟩
    (hphase.trans hs.quiet)
  case memory => exact State.serviceRange_memoryWf hs.sound.memory hs.configured hlast
  case dirty =>
    intro q
    rw [hcfg]
    obtain hd | hd := s.serviceRange_dirty r c last q <;> rw [hd]
    · exact hs.dirty_valid q
    · exact .empty s.cfg q
  case commit =>
    obtain ⟨-, hidle, -⟩ | ⟨d, hle, hd, hcommit, hsame⟩ := s.serviceRange_cases r c last
    · exact State.commitValid_of_idle hidle
    · refine (State.commitValid_iff hcommit).2 ⟨by omega, hcfg ▸ hlast, ?_⟩
      rw [hsame r]
      exact State.flag_of_chooseCommit hs.commit_valid (State.chooseCommit_of_pendingCommit hpending)

/-! ## CONSTRUCT and FACTORY_RESET -/

/-- Clearing every tracker and the commit state over canonical memories meets the invariant. -/
theorem State.Sound.clearAll (hcfg : s.cfg.wf = true) (hmemory : s.memoryWf) (hlast : s.lastBus < s.cfg.timeModulus) :
    s.clearAll.Sound := by
  obtain ⟨hdirty, hcommit, hkept, hmem, -, -, -, -, -, -, hlastBus, -⟩ := s.clearAll_rest
  refine ⟨hkept ▸ hcfg, fun q => ?_, fun r => ?_, State.commitValid_of_idle hcommit, by rwa [hlastBus, hkept]⟩
  · rw [hkept, hmem q]; exact hmemory q
  · rw [hdirty r]; exact .empty _ r

theorem State.Inv.factoryReset (hs : s.Inv) : s.factoryReset.Inv := by
  have hbody := StoreQuiet.factoryResetBody s
  obtain ⟨-, -, -, -, -, -, hphase, -⟩ := s.factoryResetBody.clearAll_rest
  refine State.Sound.inv (State.Sound.clearAll (hbody.cfg ▸ hs.configured) ?_ ?_)
    (hphase.trans (hbody.phase.trans hs.quiet))
  · exact State.factoryResetBody_memoryWf (Config.facts hs.configured) hs.sound.memory
  · rw [hbody.lastBus, hbody.cfg]; exact hs.last_bus

theorem State.Sound.constructedAt (h : s.Sound) {time : Nat} (ht : time < s.cfg.timeModulus) :
    (s.setLastBus time).setConstructed.Sound where
  configured := h.configured
  memory q := by simpa using h.memory q
  dirty_valid r := by simpa using h.dirty_valid r
  commit_valid := h.commit_valid.of_flags rfl rfl fun _ hr => by simpa using hr
  last_bus := ht

theorem State.Inv.construct (hs : s.Inv) (now : Nat) : (s.construct now).Inv := by
  have himage := StoreQuiet.constructImage s
  obtain ⟨-, -, hkept, -, -, -, hphase, -⟩ := s.constructImage.clearAll_rest
  have hclear : s.constructImage.clearAll.Sound := by
    refine State.Sound.clearAll (himage.cfg ▸ hs.configured) ?_ (by rw [himage.lastBus, himage.cfg]; exact hs.last_bus)
    exact State.constructImage_memoryWf (Config.facts hs.configured) hs.sound.memory
  have htime : now % s.cfg.timeModulus < s.constructImage.clearAll.cfg.timeModulus := by
    rw [hkept, himage.cfg]
    exact Nat.mod_lt _ s.cfg.timeModulus_pos
  exact (hclear.constructedAt htime).inv (hphase.trans (himage.phase.trans hs.quiet))

/-! ## The step -/

/-- The pending events are no part of the invariant. -/
theorem State.Inv.setEvents (h : s.Inv) (events : List Event) : (s.setEnv { s.env with events := events }).Inv :=
  State.Sound.inv ⟨h.configured, fun q => by simpa using h.sound.memory q, fun r => by simpa using h.dirty_valid r,
    h.commit_valid.of_flags rfl rfl fun _ hr => by simpa using hr, h.last_bus⟩ h.quiet

/-- Each of the four events keeps the invariant. -/
theorem State.Inv.exec_event (hs : s.Inv) (e : Event) (h : exec e.toInstr s = .next t) : t.Inv := by
  cases e with
  | construct now =>
    have hnext := (State.whenConfigured_next (show execConstruct now s = .next t from h)).2
    split at hnext
    · cases hnext
    · cases hnext
      exact hs.construct now
  | factoryReset =>
    cases (State.whenReady_next h).2
    exact hs.factoryReset
  | transact =>
    cases (State.whenReady_next h).2
    exact hs.transact
  | service now => exact hs.service h

end Sound

/-- Settles O49: nothing is listed, dirty or in progress at reset. -/
theorem resetMeetsTheInvariant : Obligations.ResetMeetsTheInvariant :=
  State.Sound.inv ⟨by decide, State.memoryWf_reset, fun r => by cases r <;> exact .empty .configT _,
    State.commitValid_of_idle rfl, by decide⟩ rfl

/-- Settles O50, by the event the step runs. -/
theorem stepKeepsTheInvariant : Obligations.StepKeepsTheInvariant := by
  intro s t hs h
  rcases hevents : s.env.events with _ | ⟨e, rest⟩
  · rw [step_of_no_event hevents] at h
    cases h
    exact hs
  · rw [step_of_event hevents] at h
    exact (hs.setEvents rest).exec_event e h

end Sys2Proof.Machine
end

section
/-! PROOF. SERVICE with work (R215 to R226): the call's range, what it leaves in the store, several calls in a row, and
the covering of unsaved bytes (R28, R311). -/

namespace Sys2Proof.Machine

section Call
variable {s t : State} {r : Region} {c : Cursor} {last : Word16} {now : Nat}

/-! ## The range of a call -/

theorem State.chooseCommit_of_selects (h : s.Selects r c last) : s.chooseCommit = some (r, c, last) := by
  obtain hcommit | ⟨hcommit, hflag, hfirst, hlow, rfl⟩ := h
  · rw [State.chooseCommit, hcommit]
  · obtain rfl : c = (s.dirty r).low.setWidth 17 := BitVec.eq_of_toNat_eq <| by
      have := (s.dirty r).low.isLt
      rw [hlow, BitVec.toNat_setWidth]
      omega
    cases r with
    | data =>
      have hdata : s.dirtyData.flag = true := hflag
      simp [State.chooseCommit, hcommit, hdata, State.dirty]
    | status =>
      have hstatus : s.dirtyStatus.flag = true := hflag
      simp [State.chooseCommit, hcommit, hfirst rfl, hstatus, State.dirty]

theorem State.pendingCommit_of_selects (hn : now < s.cfg.timeModulus) (hl : s.lastBus < s.cfg.timeModulus)
    (hgate : s.GateOpen now) (h : s.Selects r c last) : s.pendingCommit now = some (r, c, last) := by
  obtain ⟨hpersist, hidle⟩ := hgate
  have hbus : s.busIdle now = true := by
    rw [State.busIdle, State.elapsed_eq hn hl]
    exact decide_eq_true hidle
  rw [State.pendingCommit, if_neg (by simp [hpersist]), if_neg (by simp [hbus]), State.chooseCommit_of_selects h]

/-- A call with an open gate works on the range it selects (R216 to R219). -/
theorem exec_service_of_selects (hready : s.Ready) (hn : now < s.cfg.timeModulus) (hl : s.lastBus < s.cfg.timeModulus)
    (hgate : s.GateOpen now) (h : s.Selects r c last) (hlast : last.toNat < s.cfg.size r.space) :
    exec (.service now) s = .next (s.serviceRange r c last) := by
  show execService now s = _
  rw [execService, State.whenReady_of hready, State.pendingCommit_of_selects hn hl hgate h]
  exact State.whenInSpace_of hlast _

/-! ## What one call leaves in the store and shows -/

/-- On a store that does not diverge, the visited bytes hold the image and the others are as they were (R220, R221). -/
theorem State.serviceRange_store (h : s.env.reads = []) (r : Region) (c : Cursor) (last : Word16) (a : Nat) :
    (s.serviceRange r c last).peek .store a =
      if s.cfg.base r + c.toNat ≤ a ∧ a < s.cfg.base r + c.toNat + min s.cfg.commitBudget (last.toNat + 1 - c.toNat)
      then s.peek r.space (a - s.cfg.base r) else s.peek .store a := by
  rw [State.serviceRange_eq, State.finishCommit_peek]
  exact commitLoop_store _ c h a

theorem State.serviceRange_store_visited (h : s.env.reads = []) {i : Nat} (hc : c.toNat ≤ i) (hlast : i ≤ last.toNat)
    (hbudget : i < c.toNat + s.cfg.commitBudget) :
    (s.serviceRange r c last).peek .store (s.cfg.base r + i) = s.peek r.space i := by
  rw [State.serviceRange_store h, if_pos (by omega), Nat.add_sub_cancel_left]

/-- Whatever the store answers, a call writes no store byte outside its range. -/
theorem State.serviceRange_store_outside {a : Nat} (ha : a < s.cfg.base r + c.toNat ∨ s.cfg.base r + last.toNat < a) :
    (s.serviceRange r c last).peek .store a = s.peek .store a := by
  rw [State.serviceRange_eq, State.finishCommit_peek]
  exact commitLoop_store_other _ c s ha

theorem State.serviceRange_loop_trace (r : Region) (c : Cursor) (last : Word16) (s : State) :
    (s.serviceRange r c last).trace = (commitLoop r last s.cfg.commitBudget c s).2.trace := by
  rw [State.serviceRange_eq]
  obtain ⟨-, -, -, -, -, -, -, -, -, htrace, -⟩ := (commitLoop r last s.cfg.commitBudget c s).2.finishCommit_rest r
    (commitLoop r last s.cfg.commitBudget c s).1 last
  exact htrace

theorem State.serviceRange_trace (h : s.env.reads = []) (r : Region) (c : Cursor) (last : Word16) :
    (s.serviceRange r c last).trace =
      (s.commitShown r c.toNat (min s.cfg.commitBudget (last.toNat + 1 - c.toNat))).reverse ++ s.trace :=
  (s.serviceRange_loop_trace r c last).trans (commitLoop_trace _ c h)

/-- A call whose budget reaches the last byte completes its range (R222). -/
theorem State.serviceRange_completes (h : last.toNat + 1 ≤ c.toNat + s.cfg.commitBudget) :
    (s.serviceRange r c last).commit = .idle ∧
      ∀ q, (s.serviceRange r c last).dirty q = if r = q then .empty else s.dirty q := by
  obtain ⟨-, hdone⟩ | ⟨d, hle, -⟩ := s.serviceRange_cases r c last
  · exact hdone
  · omega

/-- A call whose budget does not reach the last byte keeps the cursor (R221). -/
theorem State.serviceRange_stops (h : c.toNat + s.cfg.commitBudget ≤ last.toNat) :
    ∃ d : Cursor, d.toNat = c.toNat + s.cfg.commitBudget ∧ (s.serviceRange r c last).commit = .committing r d last ∧
      SameTracker s (s.serviceRange r c last) := by
  obtain ⟨hle, -⟩ | ⟨d, -, hstop⟩ := s.serviceRange_cases r c last
  · omega
  · exact ⟨d, hstop⟩

end Call

/-- Settles O35: the budget reaches the last byte, so every byte of the range is visited and the commit completes. -/
theorem serviceFinishesARangeWithinBudget : Obligations.ServiceFinishesARangeWithinBudget := by
  intro s now r c last hready hn hl hgate hselects hle hlast hreads hfits
  have hvisits : min s.cfg.commitBudget (last.toNat + 1 - c.toNat) = last.toNat - c.toNat + 1 := by omega
  obtain ⟨hidle, hdirty⟩ := State.serviceRange_completes (s := s) (r := r) (c := c) (last := last) (by omega)
  refine ⟨s.serviceRange r c last, exec_service_of_selects hready hn hl hgate hselects hlast, hidle, ?cleared, ?other,
    fun i hc hi => State.serviceRange_store_visited hreads hc hi (by omega),
    fun a ha => State.serviceRange_store_outside ha, ?trace, s.serviceRange_serviceOnly r c last⟩
  case cleared => rw [hdirty r, if_pos rfl]; rfl
  case other =>
    intro q hq
    rw [hdirty q, if_neg hq.symm]
  case trace => rw [State.serviceRange_trace hreads, hvisits]

/-- Settles O36: the budget ends before the last byte, so the cursor is kept and the trackers with it. -/
theorem serviceStopsAtTheBudget : Obligations.ServiceStopsAtTheBudget := by
  intro s now r c last hready hn hl hgate hselects hlast hreads hexceeds
  have hvisits : min s.cfg.commitBudget (last.toNat + 1 - c.toNat) = s.cfg.commitBudget := by omega
  obtain ⟨d, hd, hcommit, hsame⟩ := State.serviceRange_stops (r := r) hexceeds
  refine ⟨s.serviceRange r c last, d, exec_service_of_selects hready hn hl hgate hselects hlast, hcommit, hd, hsame,
    fun i hc hi => State.serviceRange_store_visited hreads hc (by omega) hi, ?outside, ?trace,
    s.serviceRange_serviceOnly r c last⟩
  case outside =>
    intro a ha
    rw [State.serviceRange_store hreads, hvisits, if_neg (by omega)]
  case trace => rw [State.serviceRange_trace hreads, hvisits]

theorem ServiceOnly.refl (s : State) : ServiceOnly s s :=
  ⟨⟨rfl, rfl⟩, ⟨rfl, rfl, rfl, rfl⟩, fun _ _ => rfl, rfl, rfl, rfl, rfl, rfl, rfl, rfl⟩

/-- Settles O37: a call does nothing, or runs the budget loop once. -/
theorem serviceDoesBoundedWork : Obligations.ServiceDoesBoundedWork := by
  intro s t now h
  obtain rfl | ⟨r, c, last, rfl⟩ := exec_service_next h
  · exact ⟨.refl t, [], rfl, Nat.zero_le _, Nat.zero_le _, rfl⟩
  · obtain ⟨new, htrace, hbounds⟩ := commitLoop_bound r last s.cfg.commitBudget c s
    exact ⟨s.serviceRange_serviceOnly r c last, new, (s.serviceRange_loop_trace r c last).trans htrace, hbounds⟩

/-- Settles O38: the call that completes the latched range clears the flag, and writes no store byte outside it. -/
theorem markOutsideTheLatchedRangeIsLost : Obligations.MarkOutsideTheLatchedRangeIsLost := by
  intro s now r c last i hinv hconstructed hn hgate hcommit hfits hi hout hunsaved
  obtain ⟨hle, hlast, -⟩ := (State.commitValid_iff hcommit).1 hinv.commit_valid
  obtain ⟨hidle, hdirty⟩ := State.serviceRange_completes (s := s) (r := r) (c := c) (last := last) (by omega)
  have honly := s.serviceRange_serviceOnly r c last
  obtain ⟨hcfg, -⟩ := honly.config
  refine ⟨s.serviceRange r c last, exec_service_of_selects ⟨hinv.configured, hconstructed, hinv.quiet⟩ hn hinv.last_bus
    hgate (.inl hcommit) hlast, ?_, hidle, ?_⟩
  · rw [hdirty r, if_pos rfl]; rfl
  · rw [State.Unsaved, hcfg, State.serviceRange_store_outside (by omega), honly.image r i]
    exact hunsaved

/-! ## Several calls in a row (R226) -/

/-- How many calls `n` bytes need at `budget` bytes each. -/
def serviceCalls (n budget : Nat) : Nat := (n + budget - 1) / budget

theorem serviceCalls_of_le {n budget : Nat} (hpos : 1 ≤ n) (h : n ≤ budget) : serviceCalls n budget = 1 :=
  Nat.div_eq_of_lt_le (by omega) (by omega)

theorem serviceCalls_of_lt {n budget : Nat} (hpos : 1 ≤ budget) (h : budget < n) :
    serviceCalls n budget = serviceCalls (n - budget) budget + 1 := by
  have hsplit : n + budget - 1 = n - budget + budget - 1 + budget := by omega
  rw [serviceCalls, hsplit, Nat.add_div_right _ hpos]
  rfl

/-- From `s` to `t` the bytes of region `r` from `start` to before `stop` reached the store, and no other byte of image or
store changed. -/
structure RangeSaved (r : Region) (start stop : Nat) (s t : State) : Prop where
  cfg : t.cfg = s.cfg
  saved : ∀ i, start ≤ i → i < stop → t.peek .store (s.cfg.base r + i) = s.peek r.space i
  outside : ∀ a, a < s.cfg.base r + start ∨ s.cfg.base r + stop ≤ a → t.peek .store a = s.peek .store a
  image : SameImage s t

section Calls
variable {s t u : State} {r : Region}

theorem RangeSaved.trans {start middle stop : Nat} (hst : RangeSaved r start middle s t)
    (htu : RangeSaved r middle stop t u) (h1 : start ≤ middle) (h2 : middle ≤ stop) : RangeSaved r start stop s u where
  cfg := htu.cfg.trans hst.cfg
  saved i hi hstop := by
    by_cases hm : i < middle
    · rw [htu.outside _ (.inl (by rw [hst.cfg]; omega)), hst.saved i hi hm]
    · rw [← hst.cfg, htu.saved i (by omega) hstop, hst.image r i]
  outside a ha := by
    rw [htu.outside a (by rw [hst.cfg]; omega), hst.outside a (by omega)]
  image q a := (htu.image q a).trans (hst.image q a)

theorem RangeSaved.of_setEnv {start stop : Nat} {e : Env} (h : RangeSaved r start stop (s.setEnv e) t) :
    RangeSaved r start stop s t where
  cfg := h.cfg
  saved i hi hstop := by simpa using h.saved i hi hstop
  outside a ha := by simpa using h.outside a ha
  image q a := by simpa using h.image q a

theorem State.serviceRange_saved (h : s.env.reads = []) (r : Region) (c : Cursor) (last : Word16) :
    RangeSaved r c.toNat (c.toNat + min s.cfg.commitBudget (last.toNat + 1 - c.toNat)) s (s.serviceRange r c last) where
  cfg := (s.serviceRange_serviceOnly r c last).config.1
  saved i hi hstop := State.serviceRange_store_visited h hi (by omega) (by omega)
  outside a ha := by rw [State.serviceRange_store h, if_neg (by omega)]
  image := s.serviceRange_image r c last

theorem State.serviceRange_reads (h : s.env.reads = []) (r : Region) (c : Cursor) (last : Word16) :
    (s.serviceRange r c last).env.reads = [] := by
  obtain ⟨-, -, -, -, -, -, -, -, henv, -⟩ := (commitLoop r last s.cfg.commitBudget c s).2.finishCommit_rest r
    (commitLoop r last s.cfg.commitBudget c s).1 last
  rw [State.serviceRange_eq, henv]
  exact (StoreQuiet.commitLoop r last _ c s).reads h

theorem State.Selects.setEnv {c : Cursor} {last : Word16} (h : s.Selects r c last) (e : Env) :
    (s.setEnv e).Selects r c last := by
  obtain hcommit | ⟨hcommit, hdirty⟩ := h
  · exact .inl hcommit
  · exact .inr ⟨hcommit, by simpa using hdirty⟩

/-- What one SERVICE call with work on `[c, last]` of region `r` leaves for the calls after it. -/
structure ServiceCall (r : Region) (c : Cursor) (last : Word16) (s t : State) : Prop where
  saved : RangeSaved r c.toNat (c.toNat + min s.cfg.commitBudget (last.toNat + 1 - c.toNat)) s t
  completes : last.toNat + 1 ≤ c.toNat + s.cfg.commitBudget → t.commit = .idle ∧ (t.dirty r).flag = false
  stops : c.toNat + s.cfg.commitBudget ≤ last.toNat →
    ∃ d : Cursor, d.toNat = c.toNat + s.cfg.commitBudget ∧ t.commit = .committing r d last
  ready : t.Ready
  last_bus : t.lastBus = s.lastBus
  reads : t.env.reads = []

theorem State.serviceRange_call {c : Cursor} {last : Word16} (hready : s.Ready) (hreads : s.env.reads = []) :
    ServiceCall r c last s (s.serviceRange r c last) := by
  have honly := s.serviceRange_serviceOnly r c last
  obtain ⟨hcfg, hconstructed⟩ := honly.config
  obtain ⟨-, -, -, hphase⟩ := honly.registers
  obtain ⟨hwf, hran, hdone⟩ := hready
  refine ⟨State.serviceRange_saved hreads r c last, fun hfits => ?_, fun hexceeds => ?_,
    ⟨hcfg ▸ hwf, hconstructed.trans hran, hphase.trans hdone⟩, honly.last_bus, State.serviceRange_reads hreads r c last⟩
  · obtain ⟨hidle, hdirty⟩ := State.serviceRange_completes (r := r) hfits
    exact ⟨hidle, by rw [hdirty r, if_pos rfl]; rfl⟩
  · obtain ⟨d, hd, hcommit, -⟩ := State.serviceRange_stops (r := r) hexceeds
    exact ⟨d, hd, hcommit⟩

theorem ServiceCall.of_setEnv {c : Cursor} {last : Word16} {e : Env} (h : ServiceCall r c last (s.setEnv e) t) :
    ServiceCall r c last s t :=
  ⟨h.saved.of_setEnv, h.completes, h.stops, h.ready, h.last_bus, h.reads⟩

theorem step_service_of_selects {now : Nat} {events : List Event} {c : Cursor} {last : Word16}
    (hready : s.Ready) (hn : now < s.cfg.timeModulus) (hl : s.lastBus < s.cfg.timeModulus) (hgate : s.GateOpen now)
    (hselects : s.Selects r c last) (hlast : last.toNat < s.cfg.size r.space) (hreads : s.env.reads = [])
    (hevents : s.env.events = .service now :: events) :
    ∃ t, step s = .next t ∧ ServiceCall r c last s t ∧ t.env.events = events :=
  ⟨_, (step_of_event hevents).trans (exec_service_of_selects hready hn hl hgate (hselects.setEnv _) hlast),
    (State.serviceRange_call (s := s.setEnv { s.env with events := events }) hready hreads).of_setEnv,
    (State.serviceRange_serviceOnly r c last _).events⟩

end Calls

/-- The calls one after another: the first visits COMMIT_BUDGET bytes, and what is left of the range is the range of the
others. -/
theorem run_service_calls {r : Region} {last : Word16} {rest : List Event} (times : List Nat) (s : State) (c : Cursor)
    (hready : s.Ready) (htimes : ∀ now ∈ times, now < s.cfg.timeModulus ∧ s.GateOpen now)
    (hl : s.lastBus < s.cfg.timeModulus) (hselects : s.Selects r c last) (hle : c.toNat ≤ last.toNat)
    (hlast : last.toNat < s.cfg.size r.space) (hreads : s.env.reads = [])
    (hlength : times.length = serviceCalls (last.toNat - c.toNat + 1) s.cfg.commitBudget)
    (hevents : s.env.events = times.map .service ++ rest) :
    ∃ t, Host.Core.run Sys2Proof.core times.length s = .next t ∧ t.commit = .idle ∧ (t.dirty r).flag = false ∧
      RangeSaved r c.toNat (last.toNat + 1) s t ∧ t.env.events = rest := by
  have hbudget : 1 ≤ s.cfg.commitBudget := (Config.facts hready.1).budget_pos
  induction times generalizing s c with
  | nil =>
    have hcalls : 1 ≤ serviceCalls (last.toNat - c.toNat + 1) s.cfg.commitBudget := Nat.div_pos (by omega) hbudget
    rw [← hlength] at hcalls
    exact absurd hcalls (Nat.not_succ_le_zero 0)
  | cons now times ih =>
    obtain ⟨⟨hn, hgate⟩, htimes⟩ := List.forall_mem_cons.1 htimes
    obtain ⟨u, hstep, hcall, hpending⟩ := step_service_of_selects hready hn hl hgate hselects hlast hreads hevents
    have hsaved := hcall.saved
    have hcfg := hsaved.cfg
    rw [List.length_cons, run_next times.length hstep]
    by_cases hfits : last.toNat - c.toNat + 1 ≤ s.cfg.commitBudget
    · rw [serviceCalls_of_le (by omega) hfits] at hlength
      obtain rfl : times = [] := List.length_eq_zero_iff.1 (Nat.succ.inj hlength)
      obtain ⟨hidle, hflag⟩ := hcall.completes (by omega)
      rw [show c.toNat + min s.cfg.commitBudget (last.toNat + 1 - c.toNat) = last.toNat + 1 by omega] at hsaved
      exact ⟨u, rfl, hidle, hflag, hsaved, hpending⟩
    · rw [serviceCalls_of_lt hbudget (by omega)] at hlength
      obtain ⟨d, hd, hcommit⟩ := hcall.stops (by omega)
      rw [show c.toNat + min s.cfg.commitBudget (last.toNat + 1 - c.toNat) = d.toNat by omega] at hsaved
      have hgates : ∀ m ∈ times, m < u.cfg.timeModulus ∧ u.GateOpen m := fun m hm => by
        rw [State.GateOpen, hcfg, hcall.last_bus]
        exact htimes m hm
      obtain ⟨t, hrun, hidle, hflag, hlater, hleft⟩ := ih u d hcall.ready hgates (by rw [hcall.last_bus, hcfg]; exact hl)
        (.inl hcommit) (by omega) (hcfg ▸ hlast) hcall.reads (by rw [hcfg, Nat.succ.inj hlength]; congr 1; omega)
        hpending (hcfg ▸ hbudget)
      exact ⟨t, hrun, hidle, hflag, hsaved.trans hlater (by omega) (by omega), hleft⟩

/-- Settles O39, by induction on the calls. -/
theorem serviceCallsCompleteTheRange : Obligations.ServiceCallsCompleteTheRange := by
  intro s times rest r c last hready htimes hl hselects hle hlast hreads hlength hevents
  obtain ⟨t, hrun, hidle, hflag, hsaved, hleft⟩ :=
    run_service_calls times s c hready htimes hl hselects hle hlast hreads hlength hevents
  exact ⟨t, hrun, hidle, hflag, fun i hc hi => hsaved.saved i hc (by omega), fun a ha => hsaved.outside a (by omega),
    hsaved.image, hleft⟩

end Sys2Proof.Machine
end

section
/-! PROOF. The covering of unsaved bytes (R28, R311): a burn marks the byte it changes, and a service call saves the bytes
it visits. -/

namespace Sys2Proof.Machine

/-- Every unsaved byte lies in its region's dirty range (R28). -/
def State.TrackerCovers (s : State) : Prop :=
  ∀ r i, i < s.cfg.size (Region.space r) → s.Unsaved r i →
    (s.dirty r).flag = true ∧ (s.dirty r).low.toNat ≤ i ∧ i ≤ (s.dirty r).high.toNat

section Covering
variable {s t : State}

theorem State.Covered.tracker (h : s.Covered) : s.TrackerCovers := fun r i hi hu => by
  obtain ⟨hflag, hlow, hhigh, -⟩ := h r i hi hu
  exact ⟨hflag, hlow, hhigh⟩

/-- With no commit in progress the tracker has to cover everything. -/
theorem State.TrackerCovers.covered (h : s.TrackerCovers) (hidle : s.commit = .idle) : s.Covered := fun r i hi hu => by
  obtain ⟨hflag, hlow, hhigh⟩ := h r i hi hu
  refine ⟨hflag, hlow, hhigh, fun c last hcommit => ?_⟩
  rw [hidle] at hcommit
  cases hcommit

/-! ## TRANSACT -/

theorem State.TrackerCovers.quiet (hs : s.TrackerCovers) (h : Quiet s t) : t.TrackerCovers := fun r i hi hu => by
  rw [State.Unsaved, h.cfg, h.peek, h.peek] at hu
  rw [h.dirty r]
  exact hs r i (h.cfg ▸ hi) hu

/-- A burn marks the byte it changes; every other unsaved byte was covered, and MARK only widens (R175, R200). -/
theorem State.TrackerCovers.burn (hs : s.TrackerCovers) (r : Region) (i : Word16) (b : Byte) :
    (s.burn r i b).TrackerCovers := by
  intro q j hj hu
  rw [State.burn_cfg] at hj
  rw [State.Unsaved, State.burn_cfg, (s.burn_imageOnly r i b).store] at hu
  rw [State.burn_dirty]
  by_cases hchanged : r = q ∧ s.peek r.space i.toNat &&& b ≠ s.peek r.space i.toNat
  · rw [if_pos hchanged, DirtyRange.mark_low, DirtyRange.mark_high]
    by_cases hji : j = i.toNat
    · exact ⟨rfl, by omega, by omega⟩
    · rw [State.burn_peek, if_neg fun h => hji h.2] at hu
      obtain ⟨-, hlow, hhigh⟩ := hs q j hj hu
      exact ⟨rfl, by omega, by omega⟩
  · have hsame : (s.burn r i b).peek q.space j = s.peek q.space j := by
      rw [State.burn_peek]
      split
      · next h =>
        obtain ⟨hspace, rfl⟩ := h
        obtain rfl := Region.space_injective hspace
        exact not_not.1 fun hne => hchanged ⟨rfl, hne⟩
      · rfl
    rw [hsame] at hu
    rw [if_neg hchanged]
    exact hs q j hj hu

/-- A transaction taken while no commit is in progress keeps the covering. -/
theorem State.Covered.transact (hs : s.Covered) (hcfg : s.cfg.wf = true) (hidle : s.commit = .idle) :
    s.transact.Covered := by
  obtain ⟨hcommit, htracker⟩ := State.transact_induction (P := fun t => t.commit = .idle ∧ t.TrackerCovers) s
    (Config.facts hcfg) (fun _ _ h hs => ⟨h.commit.trans hs.1, hs.2.quiet h⟩)
    (fun t r i b _ hs => ⟨(t.burn_imageOnly r i b).commit.trans hs.1, hs.2.burn r i b⟩) ⟨hidle, hs.tracker⟩
  exact htracker.covered hcommit

/-! ## SERVICE -/

/-- A byte the store still lacks after a call was unsaved before it, and the call did not visit it. -/
theorem State.Unsaved.of_serviceRange {r : Region} {c : Cursor} {last : Word16} {q : Region} {i : Nat}
    (h : (s.serviceRange r c last).Unsaved q i) (hcfg : s.cfg.wf = true) (hreads : s.env.reads = [])
    (hlast : last.toNat < s.cfg.size r.space) (hi : i < s.cfg.size q.space) :
    s.Unsaved q i ∧ (q = r → ¬(c.toNat ≤ i ∧ i ≤ last.toNat ∧ i < c.toNat + s.cfg.commitBudget)) := by
  have honly := s.serviceRange_serviceOnly r c last
  rw [State.Unsaved, honly.config.1, honly.image q i] at h
  by_cases hqr : q = r
  · subst hqr
    have hnot : ¬(c.toNat ≤ i ∧ i ≤ last.toNat ∧ i < c.toNat + s.cfg.commitBudget) := fun ⟨hc, hl, hb⟩ =>
      h (State.serviceRange_store_visited hreads hc hl hb)
    rw [State.serviceRange_store hreads, if_neg (by omega)] at h
    exact ⟨h, fun _ => hnot⟩
  · have hapart : ∀ j ≤ last.toNat, s.cfg.base q + i ≠ s.cfg.base r + j := fun j hj =>
      (Config.facts hcfg).base_ne hqr hi (lt_of_le_of_lt hj hlast)
    have hunvisited : ¬(s.cfg.base r + c.toNat ≤ s.cfg.base q + i ∧
        s.cfg.base q + i < s.cfg.base r + c.toNat + min s.cfg.commitBudget (last.toNat + 1 - c.toNat)) := fun hin =>
      hapart (s.cfg.base q + i - s.cfg.base r) (by omega) (by omega)
    rw [State.serviceRange_store hreads, if_neg hunvisited] at h
    exact ⟨h, fun hq => absurd hq hqr⟩

/-- A covered unsaved byte of the chosen region lies in the chosen range (R218, R219). -/
theorem State.Covered.in_chosen_range (hs : s.Covered) {r : Region} {c : Cursor} {last : Word16}
    (hchosen : s.chooseCommit = some (r, c, last)) {i : Nat} (hi : i < s.cfg.size r.space) (hu : s.Unsaved r i) :
    c.toNat ≤ i ∧ i ≤ last.toNat := by
  obtain ⟨-, hlow, hhigh, hcommitted⟩ := hs r i hi hu
  obtain hcommit | ⟨-, -, -, rfl, rfl⟩ := State.chooseCommit_spec hchosen
  · exact hcommitted c last hcommit
  · have hfits := (s.dirty r).low.isLt
    rw [BitVec.toNat_setWidth, Nat.mod_eq_of_lt (by omega)]
    exact ⟨hlow, hhigh⟩

/-- A call's work keeps the covering: the bytes it visits are saved, and what is left of its range is still to visit. -/
theorem State.Covered.serviceRange (hs : s.Covered) {r : Region} {c : Cursor} {last : Word16} (hcfg : s.cfg.wf = true)
    (hreads : s.env.reads = []) (hlast : last.toNat < s.cfg.size r.space)
    (hchosen : s.chooseCommit = some (r, c, last)) : (s.serviceRange r c last).Covered := by
  intro q i hi hu
  rw [(s.serviceRange_serviceOnly r c last).config.1] at hi
  obtain ⟨hunsaved, hunvisited⟩ := hu.of_serviceRange hcfg hreads hlast hi
  obtain ⟨hflag, hlow, hhigh, -⟩ := hs q i hi hunsaved
  have hrange : q = r → c.toNat ≤ i ∧ i ≤ last.toNat := by
    rintro rfl
    exact hs.in_chosen_range hchosen hi hunsaved
  obtain ⟨hreached, hidle, hdirty⟩ | ⟨d, -, hd, hcommit, hsame⟩ := s.serviceRange_cases r c last
  · have hqr : q ≠ r := fun hq => by
      obtain ⟨hc, hl⟩ := hrange hq
      exact hunvisited hq ⟨hc, hl, by omega⟩
    rw [hdirty q, if_neg hqr.symm, hidle]
    exact ⟨hflag, hlow, hhigh, nofun⟩
  · rw [hsame q, hcommit]
    refine ⟨hflag, hlow, hhigh, fun c' last' hc' => ?_⟩
    obtain ⟨rfl, rfl, rfl⟩ : r = q ∧ d = c' ∧ last = last' := by simpa using hc'
    obtain ⟨hc, hl⟩ := hrange rfl
    have hnot := hunvisited rfl
    omega

theorem State.Covered.setEnv (hs : s.Covered) (e : Env) : (s.setEnv e).Covered := by
  simpa [State.Covered, State.Unsaved] using hs

end Covering

/-- Settles O54: a transaction by its parts, a service call by the bytes it visits. -/
theorem unsavedBytesStayCovered : Obligations.UnsavedBytesStayCovered := by
  intro s t e rest hinv hcovered hreads hevents he h
  rw [step_of_event hevents] at h
  have hs := hcovered.setEnv { s.env with events := rest }
  obtain ⟨rfl, hidle⟩ | ⟨now, rfl⟩ := he
  · cases (State.whenReady_next h).2
    exact hs.transact hinv.configured hidle
  · obtain rfl | ⟨r, c, last, hpending, hlast, rfl⟩ := exec_service_cases h
    · exact hs
    · exact hs.serviceRange hinv.configured hreads hlast (State.chooseCommit_of_pendingCommit hpending)

end Sys2Proof.Machine
end

section
/-! PROOF. Construction and factory reset (R290 to R295): the frame of each entry point around the loops, and the answer
of BLANK_CHECK by the reads it makes (R291). -/

namespace Sys2Proof.Machine

section Bootstrap
variable {s : State}

/-! ## The frames -/

theorem StoreQuiet.sameRegisters {t : State} (h : StoreQuiet s t) : SameRegisters s t := ⟨h.cmd, h.ta, h.crc, h.phase⟩

theorem StoreQuiet.sameTracker {t : State} (h : StoreQuiet s t) : SameTracker s t := h.dirty

/-- What CONSTRUCT writes beside the image and the store (R290). -/
theorem State.construct_rest (now : Nat) (s : State) :
    (s.construct now).constructed = true ∧ (s.construct now).cfg = s.cfg ∧
    (∀ r, (s.construct now).dirty r = .empty) ∧ (s.construct now).commit = .idle ∧
    (s.construct now).lastBus = now % s.cfg.timeModulus ∧ SameRegisters s (s.construct now) ∧
    (s.construct now).env = s.constructImage.env ∧ (s.construct now).trace = s.constructImage.trace ∧
    ∀ q a, (s.construct now).peek q a = s.constructImage.peek q a := by
  have himage := StoreQuiet.constructImage s
  obtain ⟨hdirty, hcommit, hcfg, -, hpeek, -, hphase, hcmd, hta, hcrc, -, henv, htrace, -⟩ := s.constructImage.clearAll_rest
  obtain ⟨hcmd', hta', hcrc', hphase'⟩ := himage.sameRegisters
  refine ⟨rfl, hcfg.trans himage.cfg, fun r => ?_, hcommit, rfl,
    ⟨hcmd.trans hcmd', hta.trans hta', hcrc.trans hcrc', hphase.trans hphase'⟩, henv, htrace, fun q a => ?_⟩
  · simpa [State.construct] using hdirty r
  · simpa [State.construct] using hpeek q a

/-- CONSTRUCT on a machine that is not constructed yet (R117 (a)). -/
theorem exec_construct (hcfg : s.cfg.wf = true) (hnew : s.constructed = false) (now : Nat) :
    exec (.construct now) s = .next (s.construct now) := by
  show execConstruct now s = _
  rw [execConstruct, State.whenConfigured_of hcfg, if_neg (by simp [hnew])]

/-- Copying both templates into the image shows nothing and uses up no answer. -/
theorem State.copyTemplates_quiet (s : State) : s.copyTemplates.trace = s.trace ∧ s.copyTemplates.env = s.env := by
  obtain ⟨hdata, hdata'⟩ := copyTemplate_quiet .data (regionSize s.cfg .data) 0 s
  obtain ⟨hstatus, hstatus'⟩ := copyTemplate_quiet .status (regionSize s.cfg .status) 0
    (copyTemplate .data (regionSize s.cfg .data) 0 s)
  exact ⟨hstatus.trans hdata, hstatus'.trans hdata'⟩

/-- Both templates in the image, entry by entry (R290). -/
theorem State.copyTemplates_template (hc : s.cfg.Facts) (r : Region) {i : Nat} (hi : i < s.cfg.size r.space) :
    (s.cfg.template r)[i]? = some (s.copyTemplates.peek r.space i) := by
  obtain ⟨himage, -⟩ := s.copyTemplates_peek
  rw [himage r i hi, templateByte_getElem? hc r hi]

/-! ## BLANK_CHECK by the answers of its reads -/

/-- BLANK_CHECK's samples, counted from its first. -/
theorem State.blankCheck_answers (s : State) :
    (s.blankCheck.1 = true ∧ (∀ j < 2 * s.cfg.blankSample, s.answers j (s.peek .store (sampleAddress s.cfg j)) = 0xFF) ∧
      s.blankCheck.2.env = { s.env with reads := s.env.reads.drop (2 * s.cfg.blankSample) } ∧
      ∃ new, s.blankCheck.2.trace = new ++ s.trace ∧ new.length = 2 * s.cfg.blankSample ∧
        storeReads new = 2 * s.cfg.blankSample ∧ storeWrites new = 0) ∨
    ∃ k < 2 * s.cfg.blankSample, s.blankCheck.1 = false ∧
      (∀ j < k, s.answers j (s.peek .store (sampleAddress s.cfg j)) = 0xFF) ∧
      s.answers k (s.peek .store (sampleAddress s.cfg k)) ≠ 0xFF ∧
      s.blankCheck.2.env = { s.env with reads := s.env.reads.drop (k + 1) } ∧
      ∃ new, s.blankCheck.2.trace = new ++ s.trace ∧ new.length = k + 1 ∧ storeReads new = k + 1 ∧
        storeWrites new = 0 := by
  simpa [State.blankCheck] using blankLoop_answers s.cfg.blankSample 0 s

theorem State.blankCheck_blank
    (h : ∀ j < 2 * s.cfg.blankSample, s.answers j (s.peek .store (sampleAddress s.cfg j)) = 0xFF) :
    s.blankCheck.1 = true ∧
    s.blankCheck.2.env = { s.env with reads := s.env.reads.drop (2 * s.cfg.blankSample) } ∧
    ∃ new, s.blankCheck.2.trace = new ++ s.trace ∧ storeWrites new = 0 := by
  obtain ⟨htrue, -, henv, new, htrace, -, -, hwrites⟩ | ⟨k, hk, -, -, hother, -⟩ := s.blankCheck_answers
  · exact ⟨htrue, henv, new, htrace, hwrites⟩
  · exact absurd (h k hk) hother

/-- The first sample that is not 0xFF stops BLANK_CHECK, so `k` is the read it stops at. -/
theorem State.blankCheck_seeded {k : Nat} (hk : k < 2 * s.cfg.blankSample)
    (h : ∀ j < k, s.answers j (s.peek .store (sampleAddress s.cfg j)) = 0xFF)
    (hother : s.answers k (s.peek .store (sampleAddress s.cfg k)) ≠ 0xFF) :
    s.blankCheck.1 = false ∧ s.blankCheck.2.env = { s.env with reads := s.env.reads.drop (k + 1) } ∧
    ∃ new, s.blankCheck.2.trace = new ++ s.trace ∧ storeWrites new = 0 := by
  obtain ⟨-, hall, -⟩ | ⟨m, hm, hfalse, hbefore, hstops, henv, new, htrace, -, -, hwrites⟩ := s.blankCheck_answers
  · exact absurd (hall k hk) hother
  · obtain hlt | rfl | hgt := Nat.lt_trichotomy m k
    · exact absurd (h m hlt) hstops
    · exact ⟨hfalse, henv, new, htrace, hwrites⟩
    · exact absurd (hbefore k hgt) hother

theorem StoreQuiet.blankCheck (s : State) : StoreQuiet s s.blankCheck.2 := .blankLoop _ _ s

theorem State.blankCheck_peek (s : State) (q : Space) (a : Nat) : s.blankCheck.2.peek q a = s.peek q a := by
  rw [State.peek, (StoreQuiet.blankCheck s).cfg, State.blankCheck, blankLoop_mem]
  rfl

theorem State.constructImage_of_blank (hp : s.cfg.persistEn = true) (h : s.blankCheck.1 = true) :
    s.constructImage = s.blankCheck.2.factoryResetBody := by
  rw [State.constructImage, if_neg (by simp [hp])]
  rcases hb : s.blankCheck with ⟨b, t⟩
  rw [hb] at h
  cases h
  rfl

theorem State.constructImage_of_seeded (hp : s.cfg.persistEn = true) (h : s.blankCheck.1 = false) :
    s.constructImage = s.blankCheck.2.loadStore := by
  rw [State.constructImage, if_neg (by simp [hp])]
  rcases hb : s.blankCheck with ⟨b, t⟩
  rw [hb] at h
  cases h
  rfl

end Bootstrap

/-- Settles O40: without a store CONSTRUCT's image is the templates, and the loops show nothing. -/
theorem constructWithoutPersistence : Obligations.ConstructWithoutPersistence := by
  intro s now hcfg hnew hp hnow
  have hc := Config.facts hcfg
  obtain ⟨hran, hkept, hdirty, hcommit, hlast, hregisters, henv, htrace, hpeek⟩ := s.construct_rest now
  have himage : s.constructImage = s.copyTemplates := by rw [State.constructImage, if_pos hp]
  obtain ⟨-, hstore⟩ := s.copyTemplates_peek
  obtain ⟨hshown, hanswers⟩ := s.copyTemplates_quiet
  rw [himage] at henv htrace
  refine ⟨s.construct now, exec_construct hcfg hnew now, hran, hkept, fun r i hi => ?_, fun a => ?_, htrace.trans hshown,
    hdirty, hcommit, hlast.trans (Nat.mod_eq_of_lt hnow), hregisters, henv.trans hanswers⟩
  · rw [hpeek, himage]
    exact State.copyTemplates_template hc r hi
  · rw [hpeek, himage, hstore]

/-- Settles O41: BLANK_CHECK uses up its samples' answers, and FACTORY_RESET_BODY takes the next. -/
theorem constructOnABlankStore : Obligations.ConstructOnABlankStore := by
  intro s now hcfg hnew hp hnow hblank
  have hc := Config.facts hcfg
  obtain ⟨hran, hkept, hdirty, hcommit, hlast, hregisters, henv, htrace, hpeek⟩ := s.construct_rest now
  obtain ⟨htrue, hsamples, sampled, hsampled, hwrites⟩ := State.blankCheck_blank hblank
  have hquiet := StoreQuiet.blankCheck s
  obtain ⟨hbytes, hanswers, hshown⟩ :=
    State.factoryResetBody_answers (s := s.blankCheck.2) (hquiet.cfg ▸ hc) (hquiet.cfg ▸ hp)
  rw [State.constructImage_of_blank hp htrue] at henv htrace hpeek
  rw [hquiet.cfg] at hbytes hanswers hshown
  have himage : ∀ r i, i < s.cfg.size (Region.space r) → (s.construct now).peek .store (s.cfg.base r + i) =
      templateByte s.cfg r i ∧ (s.construct now).peek r.space i =
        s.answers (2 * s.cfg.blankSample + loadsBefore s.cfg r + i) (templateByte s.cfg r i) := by
    intro r i hi
    obtain ⟨hstored, hloaded⟩ := hbytes r i hi
    rw [hpeek, hpeek, hstored, hloaded, State.answers_of_reads (congrArg Env.reads hsamples), Nat.add_assoc]
    exact ⟨rfl, rfl⟩
  refine ⟨s.construct now, exec_construct hcfg hnew now, hran, hkept, fun r i hi => ?_, fun hreads r i hi => ?_,
    ⟨sampled, hwrites, ?_⟩, hdirty, hcommit, hlast.trans (Nat.mod_eq_of_lt hnow), hregisters, ?_⟩
  · obtain ⟨hstored, hloaded⟩ := himage r i hi
    rw [hstored]
    exact ⟨templateByte_getElem? hc r hi, hloaded⟩
  · obtain ⟨-, hloaded⟩ := himage r i hi
    rw [hloaded, State.answers_of_nil hreads]
    exact templateByte_getElem? hc r hi
  · rw [htrace, hshown, hsampled, List.append_assoc]
  · rw [henv, hanswers, hsamples, List.drop_drop]

/-- Settles O42: BLANK_CHECK stops at read `k`, and LOAD_STORE takes the answers after it. -/
theorem constructLoadsASeededStore : Obligations.ConstructLoadsASeededStore := by
  intro s now k hcfg hnew hp hnow hk hbefore hother
  obtain ⟨hran, hkept, hdirty, hcommit, hlast, hregisters, henv, htrace, hpeek⟩ := s.construct_rest now
  obtain ⟨hfalse, hsamples, sampled, hsampled, hwrites⟩ := State.blankCheck_seeded hk hbefore hother
  obtain ⟨hbytes, hstore, hanswers, hshown⟩ := s.blankCheck.2.loadStore_answers
  rw [State.constructImage_of_seeded hp hfalse] at henv htrace hpeek
  rw [(StoreQuiet.blankCheck s).cfg] at hbytes hanswers hshown
  have hloaded : ∀ r i, i < s.cfg.size (Region.space r) → (s.construct now).peek r.space i =
      s.answers (k + 1 + loadsBefore s.cfg r + i) (s.peek .store (s.cfg.base r + i)) := by
    intro r i hi
    rw [hpeek, hbytes r i hi, State.answers_of_reads (congrArg Env.reads hsamples), State.blankCheck_peek,
      Nat.add_assoc (k + 1)]
  refine ⟨s.construct now, exec_construct hcfg hnew now, hran, hkept, hloaded, fun hreads r i hi => ?_, fun a => ?_,
    ⟨sampled, hwrites, ?_⟩, hdirty, hcommit, hlast.trans (Nat.mod_eq_of_lt hnow), hregisters, ?_⟩
  · rw [hloaded r i hi, State.answers_of_nil hreads]
  · rw [hpeek, hstore, State.blankCheck_peek]
  · rw [htrace, hshown, hsampled, List.append_assoc]
  · rw [henv, hanswers, hsamples, List.drop_drop]

/-! ## FACTORY_RESET, LOAD_STORE, BLANK_CHECK -/

/-- The image and the store after FACTORY_RESET_BODY, with and without a store (R292). -/
structure TemplatesRestored (s t : State) : Prop where
  persistent : s.cfg.persistEn = true →
    (∀ r a, a < s.cfg.size (Region.space r) → (s.cfg.template r)[a]? = some (t.peek .store (s.cfg.base r + a)) ∧
      t.peek r.space a = s.answers (loadsBefore s.cfg r + a) (t.peek .store (s.cfg.base r + a))) ∧
    t.trace = (factoryShown s.cfg).reverse ++ s.trace ∧
    t.env = { s.env with reads := s.env.reads.drop (s.cfg.dataSize + s.cfg.statusSize) }
  volatile : s.cfg.persistEn = false → SameStore s t ∧ t.trace = s.trace ∧ t.env = s.env
  templates : s.cfg.persistEn = false ∨ s.env.reads = [] →
    ∀ r a, a < s.cfg.size (Region.space r) → (s.cfg.template r)[a]? = some (t.peek r.space a)

theorem State.factoryResetBody_restores {s : State} (hcfg : s.cfg.wf = true) :
    TemplatesRestored s s.factoryResetBody := by
  have hc := Config.facts hcfg
  cases hp : s.cfg.persistEn with
  | true =>
    obtain ⟨hbytes, hanswers, hshown⟩ := State.factoryResetBody_answers hc hp
    have hrestored : ∀ r a, a < s.cfg.size (Region.space r) →
        (s.cfg.template r)[a]? = some (s.factoryResetBody.peek .store (s.cfg.base r + a)) ∧
        s.factoryResetBody.peek r.space a =
          s.answers (loadsBefore s.cfg r + a) (s.factoryResetBody.peek .store (s.cfg.base r + a)) := by
      intro r a ha
      obtain ⟨hstored, hloaded⟩ := hbytes r a ha
      rw [hstored]
      exact ⟨templateByte_getElem? hc r ha, hloaded⟩
    refine ⟨fun _ => ⟨hrestored, hshown, hanswers⟩, fun hfalse => (nomatch hp.symm.trans hfalse),
      fun hfaithful r a ha => ?_⟩
    obtain ⟨htemplate, hloaded⟩ := hrestored r a ha
    have hreads : s.env.reads = [] := hfaithful.resolve_left (by simp [hp])
    rw [hloaded, State.answers_of_nil hreads, htemplate]
  | false =>
    have hbody : s.factoryResetBody = s.copyTemplates := by rw [State.factoryResetBody, if_neg (by simp [hp])]
    obtain ⟨-, hstore⟩ := s.copyTemplates_peek
    rw [hbody]
    exact ⟨fun htrue => (nomatch hp.symm.trans htrue), fun _ => ⟨hstore, s.copyTemplates_quiet⟩,
      fun _ r a ha => State.copyTemplates_template hc r ha⟩

/-- Clearing trackers and commit state leaves image, store, trace and environment alone. -/
theorem TemplatesRestored.clearAll {s t : State} (h : TemplatesRestored s t) : TemplatesRestored s t.clearAll := by
  obtain ⟨-, -, -, -, hpeek, -, -, -, -, -, -, henv, htrace, -⟩ := t.clearAll_rest
  refine ⟨?_, ?_, ?_⟩
  · simpa only [hpeek, henv, htrace] using h.persistent
  · simpa only [SameStore, hpeek, henv, htrace] using h.volatile
  · simpa only [hpeek] using h.templates

/-- Settles O43: both operations run FACTORY_RESET_BODY, and FACTORY_RESET clears the trackers and the commit state. -/
theorem factoryResetRestoresTheTemplates : Obligations.FactoryResetRestoresTheTemplates := by
  intro s i hready hi
  have hbody := StoreQuiet.factoryResetBody s
  have hrestored := State.factoryResetBody_restores hready.1
  obtain rfl | rfl := hi
  · obtain ⟨hpersistent, hvolatile, htemplates⟩ := hrestored.clearAll
    obtain ⟨hdirty, hcommit, hcfg, -, -, hran, hphase, hcmd, hta, hcrc, hlast, -, -, hresult, -⟩ :=
      s.factoryResetBody.clearAll_rest
    exact ⟨s.factoryReset, State.whenReady_of hready _, hpersistent, hvolatile, htemplates,
      fun _ => ⟨hdirty, hcommit⟩, nofun, hlast.trans hbody.lastBus,
      ⟨hcmd.trans hbody.cmd, hta.trans hbody.ta, hcrc.trans hbody.crc, hphase.trans hbody.phase⟩,
      hbody.sameConfig_clearAll, hresult.trans hbody.result⟩
  · obtain ⟨hpersistent, hvolatile, htemplates⟩ := hrestored
    exact ⟨s.factoryResetBody, State.whenConfigured_of hready.1 _, hpersistent, hvolatile, htemplates, nofun,
      fun _ => ⟨hbody.sameTracker, hbody.commit⟩, hbody.lastBus, hbody.sameRegisters, hbody.sameConfig, hbody.result⟩

/-- Settles O44, by what each read of the two loops answers. -/
theorem loadStoreCopiesBothRegions : Obligations.LoadStoreCopiesBothRegions := by
  intro s hcfg hp
  have hquiet := StoreQuiet.loadStore s
  obtain ⟨hbytes, hstore, hanswers, hshown⟩ := s.loadStore_answers
  refine ⟨s.loadStore, (State.whenConfigured_of hcfg _).trans (State.whenStore_of hp _), hbytes, fun hreads r i hi => ?_,
    hshown, hstore, hquiet.sameTracker, hquiet.commit, hquiet.sameRegisters, hquiet.sameConfig, hquiet.lastBus, hanswers,
    hquiet.result⟩
  rw [hbytes r i hi, State.answers_of_nil hreads]

/-- Settles O45: the answer by the read that stops the loop, or by none doing so. -/
theorem blankCheckSamplesBothRegions : Obligations.BlankCheckSamplesBothRegions := by
  intro s hcfg hp
  have hquiet := StoreQuiet.blankCheck s
  have hanswer : (s.blankCheck.1 = true ↔
        ∀ j < 2 * s.cfg.blankSample, s.answers j (s.peek .store (sampleAddress s.cfg j)) = 0xFF) ∧
      ∃ sampled, s.blankCheck.2.trace = sampled ++ s.trace ∧ storeWrites sampled = 0 ∧
        sampled.length = storeReads sampled ∧ storeReads sampled ≤ 2 * s.cfg.blankSample ∧
        s.blankCheck.2.env = { s.env with reads := s.env.reads.drop (storeReads sampled) } := by
    obtain ⟨htrue, hall, henv, new, htrace, hlength, hreads, hwrites⟩ |
      ⟨k, hk, hfalse, -, hother, henv, new, htrace, hlength, hreads, hwrites⟩ := s.blankCheck_answers
    · exact ⟨⟨fun _ => hall, fun _ => htrue⟩, new, htrace, hwrites, by omega, by omega, by rw [hreads, henv]⟩
    · exact ⟨⟨fun htrue => (nomatch hfalse.symm.trans htrue), fun hall => absurd (hall k hk) hother⟩, new,
        htrace, hwrites, by omega, by omega, by rw [hreads, henv]⟩
  obtain ⟨hiff, sampled, hsampled⟩ := hanswer
  refine ⟨s.blankCheck.2.setResult (.blank s.blankCheck.1), s.blankCheck.1,
    (State.whenConfigured_of hcfg _).trans (State.whenStore_of hp _), rfl, hiff, fun hreads => ?_, ⟨sampled, hsampled⟩,
    fun r a => ?_, fun a => ?_, fun r => ?_, hquiet.commit, hquiet.sameRegisters, hquiet.sameConfig, hquiet.lastBus⟩
  · simpa [State.blankCheck] using blankLoop_answer s.cfg.blankSample 0 hreads
  · rw [State.setResult_peek, State.blankCheck_peek]
  · rw [State.setResult_peek, State.blankCheck_peek]
  · rw [State.setResult_dirty, hquiet.dirty r]

end Sys2Proof.Machine
end

section
/-! PROOF. Reset as a construction, what is refused, and the order of entry points (R8, R39, R117). -/

namespace Sys2Proof.Machine

/-- Settles O48, by running CONSTRUCT on the blank store of configuration T. -/
theorem resetIsTheStateAfterConstruct : Obligations.ResetIsTheStateAfterConstruct :=
  ⟨_, exec_construct (by decide) rfl 0, by decide +kernel⟩

section Refused
variable {s : State} {k : Result}

theorem State.whenConfigured_refuses (h : s.cfg.wf = false) (k : Result) :
    s.whenConfigured k = .refused .illFormedConfiguration := by
  simp [State.whenConfigured, h]

theorem State.whenReady_notConstructed (hcfg : s.cfg.wf = true) (h : s.constructed = false) (k : Result) :
    s.whenReady k = .refused .notConstructed := by
  rw [State.whenReady, State.whenConfigured_of hcfg, if_pos h]

theorem State.whenReady_overlapping (hcfg : s.cfg.wf = true) (hran : s.constructed = true) (h : s.phase ≠ .done)
    (k : Result) : s.whenReady k = .refused .overlappingEntryPoint := by
  rw [State.whenReady, State.whenConfigured_of hcfg, if_neg (by simp [hran]), if_neg h]

theorem State.whenStore_refuses (h : s.cfg.persistEn = false) (k : Result) : s.whenStore k = .refused .noStore := by
  simp [State.whenStore, h]

theorem State.whenInSpace_refuses {sp : Space} {a : Nat} (h : s.cfg.size sp ≤ a) (k : Result) :
    s.whenInSpace sp a k = .refused (.addressOutsideSpace sp a) := by
  rw [State.whenInSpace, if_neg (Nat.not_lt.2 h)]

/-- Every operation asks for a well-formed configuration first. -/
theorem exec_guarded (i : Instr) (s : State) : ∃ k, exec i s = s.whenConfigured k := by
  cases i <;> exact ⟨_, rfl⟩

/-- The three entry points other than CONSTRUCT ask for a machine that is ready (R117). -/
theorem exec_entryPoint_guarded {i : Instr} {now : Nat} (hi : i = .transact ∨ i = .service now ∨ i = .factoryReset)
    (s : State) : ∃ k, exec i s = s.whenReady k := by
  obtain rfl | rfl | rfl := hi <;> exact ⟨_, rfl⟩

end Refused

/-- Settles O46, by the guard every operation has. -/
theorem illFormedConfigurationIsRefused : Obligations.IllFormedConfigurationIsRefused := by
  intro i s hcfg
  obtain ⟨k, hk⟩ := exec_guarded i s
  rw [hk, State.whenConfigured_refuses hcfg]

/-- Settles O47, by the guard of the entry points, and CONSTRUCT's own. -/
theorem entryPointDutiesAreChecked : Obligations.EntryPointDutiesAreChecked := by
  intro s i now hcfg hi
  obtain ⟨k, hk⟩ := exec_entryPoint_guarded hi s
  refine ⟨fun hnew => ?_, fun hran hphase => ?_, fun hran => ?_⟩
  · rw [hk, State.whenReady_notConstructed hcfg hnew]
  · rw [hk, State.whenReady_overlapping hcfg hran hphase]
  · exact (State.whenConfigured_of hcfg _).trans (if_pos hran)

/-- Settles O33: each guard refuses before the operation begins. -/
theorem absentStorageIsRefused : Obligations.AbsentStorageIsRefused := by
  intro s hcfg
  have hconfigured := State.whenConfigured_of hcfg
  refine ⟨fun r i b hi => ?_, fun a b hp ha => ?_, fun hp => ?_⟩
  · have hspace := State.whenInSpace_refuses hi
    exact ⟨(hconfigured _).trans (hspace _), (hconfigured _).trans (hspace _)⟩
  · have hstore := State.whenStore_of hp
    have hspace := State.whenInSpace_refuses (sp := .store) ha
    exact ⟨(hconfigured _).trans ((hstore _).trans (hspace _)), (hconfigured _).trans ((hstore _).trans (hspace _))⟩
  · have hnone := State.whenStore_refuses hp
    exact ⟨fun _ _ => ⟨(hconfigured _).trans (hnone _), (hconfigured _).trans (hnone _)⟩,
      (hconfigured _).trans (hnone _), (hconfigured _).trans (hnone _)⟩

/-! ## Single operations -/

/-- Settles O18: a burn repeated finds the byte burned. -/
theorem burnIsIdempotent : Obligations.BurnIsIdempotent := by
  intro s t r i b h
  obtain ⟨hcfg, hnext⟩ := State.whenConfigured_next h
  obtain ⟨hi, hnext⟩ := State.whenInSpace_next hnext
  cases hnext
  rw [exec_burn (by rwa [State.burn_cfg]) (by rwa [State.burn_cfg]), State.burn_burn]

/-- Settles O30: a report is recorded, and nothing else is written. -/
theorem reportShowsTheCode : Obligations.ReportShowsTheCode := fun _ _ hcfg => State.whenConfigured_of hcfg _

/-- Settles O16: the command writes `CMD`, `TA` and the phase, reports, and ends. -/
theorem unknownCommandReportsItsCode : Obligations.UnknownCommandReportsItsCode := by
  intro s code ta hcfg
  obtain ⟨htrace, henv⟩ := s.unknownCommand_rest code ta
  exact ⟨s.unknownCommand code ta, State.whenConfigured_of hcfg _, htrace, rfl, rfl, rfl, rfl, henv, rfl,
    (Quiet.unknownCommand code ta s).busOnly⟩

theorem locate_data_valid_iff (cfg : Config) (ta i : Word16) :
    locate cfg .data ta = .valid i ↔ translate cfg ta.toNat = .mapped i := by
  rw [locate]
  cases translate cfg ta.toNat <;> simp

theorem locate_status_valid_iff (cfg : Config) (ta i : Word16) :
    locate cfg .status ta = .valid i ↔ i = ta ∧ ta.toNat < cfg.statusSize := by
  rw [locate]
  split
  · next h => simp [h, eq_comm]
  · next h => simp [h]

/-- Settles O23, by the two regions' rules. -/
theorem locateAnswersValidity : Obligations.LocateAnswersValidity := by
  intro s r ta hcfg
  refine ⟨locate s.cfg r ta, State.whenConfigured_of hcfg _, ?_, ?_, fun i => locate_lt (Config.facts hcfg)⟩
  · rintro rfl
    exact locate_data_valid_iff s.cfg ta
  · rintro rfl
    exact locate_status_valid_iff s.cfg ta

/-! ## The store primitives -/

theorem exec_storeReadByte {s : State} {a : Nat} (hcfg : s.cfg.wf = true) (hp : s.cfg.persistEn = true)
    (ha : a < s.cfg.size .store) : exec (.storeReadByte a) s =
      .next ((s.storeReadByte a).2.setResult (.stored (s.storeReadByte a).1)) :=
  (State.whenConfigured_of hcfg _).trans ((State.whenStore_of hp _).trans (State.whenInSpace_of ha _))

theorem exec_storeWriteByte {s : State} {a : Nat} (hcfg : s.cfg.wf = true) (hp : s.cfg.persistEn = true)
    (ha : a < s.cfg.size .store) (v : Byte) : exec (.storeWriteByte a v) s = .next (s.storeWriteByte a v) :=
  (State.whenConfigured_of hcfg _).trans ((State.whenStore_of hp _).trans (State.whenInSpace_of ha _))

/-- Settles O31: the read takes the next answer of the script. -/
theorem storeReadAnswersTheByte : Obligations.StoreReadAnswersTheByte := by
  intro s a hcfg hp ha
  have hquiet := StoreQuiet.storeReadByte s a
  obtain ⟨hvalue, henv⟩ := s.storeReadByte_answers a
  refine ⟨(s.storeReadByte a).2.setResult (.stored (s.storeReadByte a).1), exec_storeReadByte hcfg hp ha, ?_,
    s.storeReadByte_trace a, fun r x => ?_, fun x => ?_, fun r => ?_, hquiet.sameRegisters,
    hquiet.sameConfig, hquiet.commit, hquiet.lastBus, ?_, hquiet.freeCount⟩
  · rw [State.setResult_result, hvalue, State.answers, List.headD_eq_head?_getD, List.head?_eq_getElem?]
  · rw [State.setResult_peek, State.storeReadByte_peek]
  · rw [State.setResult_peek, State.storeReadByte_peek]
  · rw [State.setResult_dirty, hquiet.dirty r]
  · rw [State.setResult_env, henv, List.drop_one]

/-- Settles O32, by the rule of a store write, and of a read that does not diverge. -/
theorem storeWriteThenRead : Obligations.StoreWriteThenRead := by
  intro s a v hcfg hp ha
  have hquiet := StoreQuiet.storeWriteByte s a v
  have hsame : (s.storeWriteByte a v).peek .store a = v := by rw [State.storeWriteByte_peek, if_pos ⟨rfl, rfl⟩]
  refine ⟨s.storeWriteByte a v, exec_storeWriteByte hcfg hp ha v, hsame, fun x hx => ?_, fun r x => ?_,
    hquiet.sameTracker, hquiet.sameRegisters, hquiet.sameConfig, hquiet.commit, hquiet.lastBus, ?_, hquiet.result,
    s.storeWriteByte_trace a v, hquiet.freeCount, fun hreads => ?_⟩
  · rw [State.storeWriteByte_peek, if_neg fun h => hx h.2]
  · rw [State.storeWriteByte_peek, if_neg fun h => Region.space_ne_store r h.1.symm]
  · simp [State.storeWriteByte]
  · refine ⟨_, exec_storeReadByte (hquiet.cfg ▸ hcfg) (hquiet.cfg ▸ hp) (hquiet.cfg ▸ ha), ?_⟩
    rw [State.setResult_result, State.storeReadByte_faithful (hquiet.reads hreads), hsame]

end Sys2Proof.Machine
end

section
/-! PROOF. What a sequence of sends shows, by the bus host's answers to it: every call, or the calls up to the first that
failed (R153, R159). The read commands (R150 to R159) and CRC_EMIT (R134) are such sequences. -/

namespace Sys2Proof.Machine

/-- Sending changes bus matters only, receives nothing, and leaves `CMD` alone. -/
structure Sending (s t : State) : Prop where
  quiet : Quiet s t
  cmd : t.cmd = s.cmd
  rx : t.env.rx = s.env.rx

/-- What the sends `shown` do to trace and send script, and whether all of them succeed: either the script holds no failure
for them and `CRC` ends as `crc`, or they end at the first failure. -/
inductive Answered (s t : State) (shown : List Shown) (crc : Word16) : Bool → Prop where
  | all (hall : ∀ ok ∈ s.env.tx.take shown.length, ok = true) (trace : t.trace = shown.reverse ++ s.trace)
      (tx : t.env.tx = s.env.tx.drop shown.length) (hcrc : t.crc = crc) : Answered s t shown crc true
  | stopped (k : Nat) (rest : List Bool) (last : Shown) (hfails : s.env.tx = List.replicate k true ++ false :: rest)
      (hlast : shown[k]? = some last) (trace : t.trace = (shown.take k ++ [last.failed]).reverse ++ s.trace)
      (tx : t.env.tx = rest) : Answered s t shown crc false

/-- `t` is the state after the sends `shown` from `s`, all successful where `ok`. -/
structure Emits (s t : State) (shown : List Shown) (crc : Word16) (ok : Bool) : Prop where
  sending : Sending s t
  answered : Answered s t shown crc ok

section Emission
variable {s t u : State} {shown more : List Shown} {crc crc' : Word16} {ok : Bool}

/-! ## The frame -/

theorem Sending.trans (hst : Sending s t) (htu : Sending t u) : Sending s u :=
  ⟨hst.quiet.trans htu.quiet, htu.cmd.trans hst.cmd, htu.rx.trans hst.rx⟩

theorem Sending.send (b : Byte) (s : State) : Sending s (s.send b).2 := by
  obtain ⟨-, -, hcmd, -, hrx, -⟩ := s.send_rest b
  exact ⟨.send s b, hcmd, hrx⟩

theorem Sending.sendRaw (b : Byte) (s : State) : Sending s (s.sendRaw b).2 := by
  obtain ⟨-, -, hcmd, -, hrx, -⟩ := s.sendRaw_rest b
  exact ⟨.sendRaw s b, hcmd, hrx⟩

theorem Sending.setTa (a : Word16) (s : State) : Sending s (s.setTa a) := ⟨.setTa s a, rfl, rfl⟩

theorem Sending.setCrc (c : Word16) (s : State) : Sending s (s.setCrc c) := ⟨.setCrc s c, rfl, rfl⟩

theorem Sending.endTransaction (s : State) : Sending s s.endTransaction := ⟨.endTransaction s, rfl, rfl⟩

/-! ## Scripts -/

/-- The first failure of a script has one place. -/
theorem first_failure_unique {k m : Nat} {rest rest' : List Bool}
    (h : List.replicate k true ++ false :: rest = List.replicate m true ++ false :: rest') : k = m ∧ rest = rest' := by
  induction k generalizing m with
  | zero =>
    cases m with
    | zero => exact ⟨rfl, by simpa using h⟩
    | succ m => simp [List.replicate_succ] at h
  | succ k ih =>
    cases m with
    | zero => simp [List.replicate_succ] at h
    | succ m =>
      obtain ⟨rfl, hrest⟩ := ih (by simpa [List.replicate_succ] using h)
      exact ⟨rfl, hrest⟩

theorem failure_mem_take {k n : Nat} (rest : List Bool) (h : k < n) :
    false ∈ (List.replicate k true ++ false :: rest).take n := by
  obtain ⟨m, rfl⟩ := Nat.exists_eq_add_of_lt h
  simp [Nat.add_assoc, List.take_append]

/-- Answers that all succeed, with more to come, are that many successes. -/
theorem eq_replicate_append_drop {n : Nat} {tx : List Bool} (hall : ∀ ok ∈ tx.take n, ok = true) (hmore : tx.drop n ≠ []) :
    tx = List.replicate n true ++ tx.drop n := by
  have hlength : n < tx.length := by
    by_contra hge
    exact hmore (List.drop_eq_nil_of_le (Nat.not_lt.1 hge))
  have htake : tx.take n = List.replicate n true :=
    List.eq_replicate_iff.2 ⟨by rw [List.length_take]; omega, hall⟩
  rw [← htake, List.take_append_drop]

/-! ## Putting sends together -/

theorem Emits.crc_eq (h : Emits s t shown crc true) : t.crc = crc := by
  cases h.answered with
  | all _ _ _ hcrc => exact hcrc

/-- The sends that follow successful ones. -/
theorem Emits.append (h : Emits s t shown crc true) (hmore : Emits t u more crc' ok) :
    Emits s u (shown ++ more) crc' ok := by
  refine ⟨h.sending.trans hmore.sending, ?_⟩
  obtain ⟨hall, htrace, htx, -⟩ := h.answered
  cases hmore.answered with
  | all hall' htrace' htx' hcrc =>
    refine .all (fun b hb => ?_) (by rw [htrace', htrace, List.reverse_append, List.append_assoc])
      (by rw [htx', htx, List.drop_drop, List.length_append]) hcrc
    rw [List.length_append, List.take_add, ← htx, List.mem_append] at hb
    exact hb.elim (hall b) (hall' b)
  | stopped k rest last hfails hlast htrace' htx' =>
    rw [htx] at hfails
    have hscript := eq_replicate_append_drop hall (by rw [hfails]; simp)
    refine .stopped (shown.length + k) rest last ?_ ?_ ?_ htx'
    · rw [hscript, hfails, List.replicate_add, List.append_assoc]
    · rw [List.getElem?_append_right (Nat.le_add_right _ _), Nat.add_sub_cancel_left, hlast]
    · rw [htrace', htrace, List.take_length_add_append]
      simp

/-- The sends that do not follow a failed one. -/
theorem Emits.append_stopped (h : Emits s t shown crc false) (more : List Shown) (crc' : Word16) :
    Emits s t (shown ++ more) crc' false := by
  refine ⟨h.sending, ?_⟩
  cases h.answered with
  | stopped k rest last hfails hlast htrace htx =>
    obtain ⟨hk, -⟩ := List.getElem?_eq_some_iff.1 hlast
    refine .stopped k rest last hfails ?_ ?_ htx
    · rw [List.getElem?_append_left hk, hlast]
    · rw [List.take_append_of_le_length (Nat.le_of_lt hk), htrace]

/-- A change after the sends that neither shows anything nor takes an answer. -/
theorem Emits.silent (h : Emits s t shown crc ok) (hsending : Sending t u) (htrace : u.trace = t.trace)
    (htx : u.env.tx = t.env.tx) (hcrc : t.crc = crc → u.crc = crc') : Emits s u shown crc' ok := by
  refine ⟨h.sending.trans hsending, ?_⟩
  cases h.answered with
  | all hall htrace' htx' hcrc' => exact .all hall (htrace.trans htrace') (htx.trans htx') (hcrc hcrc')
  | stopped k rest last hfails hlast htrace' htx' =>
    exact .stopped k rest last hfails hlast (htrace.trans htrace') (htx.trans htx')

/-- The end of the transaction shows nothing. -/
theorem Emits.endTransaction (h : Emits s t shown crc ok) : Emits s t.endTransaction shown crc ok :=
  h.silent (.endTransaction t) rfl rfl id

theorem Emits.send (b : Byte) (s : State) : Emits s (s.send b).2 [.send b true] (crcStep s.cfg s.crc b) (s.send b).1 := by
  refine ⟨.send b s, ?_⟩
  obtain ⟨htrace, -, -, -, -, hcrc⟩ := s.send_rest b
  rcases htx : s.env.tx with _ | ⟨_ | _, rest⟩
  · have hsend : (s.send b).1 = true ∧ (s.send b).2.env.tx = [] := by rw [State.send_of_tx, htx]; simp [htx]
    obtain ⟨hok, hleft⟩ := hsend
    rw [hok] at htrace hcrc ⊢
    exact .all (by simp [htx]) htrace (by rw [hleft, htx]; rfl) (hcrc rfl).1
  · obtain ⟨hok, hleft⟩ := State.send_tx b htx
    rw [hok] at htrace ⊢
    exact .stopped 0 rest _ htx rfl htrace hleft
  · obtain ⟨hok, hleft⟩ := State.send_tx b htx
    rw [hok] at htrace hcrc ⊢
    exact .all (by simp [htx]) htrace (by rw [hleft, htx]; rfl) (hcrc rfl).1

theorem Emits.sendRaw (b : Byte) (s : State) : Emits s (s.sendRaw b).2 [.sendRaw b true] s.crc (s.sendRaw b).1 := by
  refine ⟨.sendRaw b s, ?_⟩
  obtain ⟨htrace, -, -, -, -, hcrc, -⟩ := s.sendRaw_rest b
  rcases htx : s.env.tx with _ | ⟨_ | _, rest⟩
  · have hsend : (s.sendRaw b).1 = true ∧ (s.sendRaw b).2.env.tx = [] := by rw [State.sendRaw_of_tx, htx]; simp [htx]
    obtain ⟨hok, hleft⟩ := hsend
    rw [hok] at htrace ⊢
    exact .all (by simp [htx]) htrace (by rw [hleft, htx]; rfl) hcrc
  · obtain ⟨hok, hleft⟩ := State.sendRaw_tx b htx
    rw [hok] at htrace ⊢
    exact .stopped 0 rest _ htx rfl htrace hleft
  · obtain ⟨hok, hleft⟩ := State.sendRaw_tx b htx
    rw [hok] at htrace ⊢
    exact .all (by simp [htx]) htrace (by rw [hleft, htx]; rfl) hcrc

/-- CRC_EMIT: the complement's two bytes, and `CRC` as it was (R134, R138). -/
theorem Emits.crcEmit (s : State) : Emits s s.crcEmit.2 (checksumShown s.crc) s.crc s.crcEmit.1 := by
  have hlow := Emits.sendRaw (lowByte (~~~ s.crc)) s
  have hhigh := Emits.sendRaw (highByte (~~~ s.crc)) (s.sendRaw (lowByte (~~~ s.crc))).2
  obtain ⟨-, -, -, -, -, hcrc, -⟩ := s.sendRaw_rest (lowByte (~~~ s.crc))
  rw [hcrc] at hhigh
  rw [State.crcEmit_eq]
  by_cases hok : (s.sendRaw (lowByte (~~~ s.crc))).1 = true
  · rw [if_pos hok]
    rw [hok] at hlow
    exact hlow.append hhigh
  · rw [if_neg hok]
    rw [Bool.eq_false_iff.2 hok] at hlow
    exact hlow.append_stopped _ _

/-! ## What is shown, by the script -/

theorem Emits.of_success (h : Emits s t shown crc ok) (hall : ∀ b ∈ s.env.tx.take shown.length, b = true) :
    ok = true ∧ t.trace = shown.reverse ++ s.trace ∧ t.env.tx = s.env.tx.drop shown.length ∧ t.crc = crc := by
  cases h.answered with
  | all _ htrace htx hcrc => exact ⟨rfl, htrace, htx, hcrc⟩
  | stopped k rest last hfails hlast _ _ =>
    obtain ⟨hk, -⟩ := List.getElem?_eq_some_iff.1 hlast
    exact absurd (hall false (hfails ▸ failure_mem_take rest hk)) Bool.false_ne_true

theorem Emits.of_failure (h : Emits s t shown crc ok) {k : Nat} {rest : List Bool} {last : Shown}
    (hfails : s.env.tx = List.replicate k true ++ false :: rest) (hlast : shown[k]? = some last) :
    ok = false ∧ t.trace = (shown.take k ++ [last.failed]).reverse ++ s.trace ∧ t.env.tx = rest := by
  cases h.answered with
  | all hall _ _ _ =>
    obtain ⟨hk, -⟩ := List.getElem?_eq_some_iff.1 hlast
    exact absurd (hall false (hfails ▸ failure_mem_take rest hk)) Bool.false_ne_true
  | stopped m rest' last' hfails' hlast' htrace htx =>
    obtain ⟨rfl, rfl⟩ := first_failure_unique (hfails.symm.trans hfails')
    obtain rfl : last = last' := Option.some.inj (hlast.symm.trans hlast')
    exact ⟨rfl, htrace, htx⟩

end Emission

end Sys2Proof.Machine
end

section
/-! PROOF. READ_MEMORY, READ_STATUS and CRC_EMIT as sequences of sends (R134, R150 to R159). -/

namespace Sys2Proof.Machine

section Reads
variable {s t u : State}

theorem Emits.refl (s : State) : Emits s s [] s.crc true :=
  ⟨⟨.refl s, rfl, rfl⟩, .all nofun rfl rfl rfl⟩

theorem crcFold_append (cfg : Config) (c : Word16) (l m : List Byte) :
    crcFold cfg c (l ++ m) = crcFold cfg (crcFold cfg c l) m := List.foldl_append

theorem bytesShown_cons (b : Byte) (bytes : List Byte) : bytesShown (b :: bytes) = [.send b true] ++ bytesShown bytes := rfl

/-! ## READ_MEMORY -/

theorem State.logicalBytes_succ (s : State) (a n : Nat) :
    s.logicalBytes a (n + 1) = s.logicalByte a :: s.logicalBytes (a + 1) n := rfl

theorem Quiet.logicalBytes (h : Quiet s t) (a n : Nat) : t.logicalBytes a n = s.logicalBytes a n :=
  List.map_congr_left fun i _ => h.logicalByte i

/-- READ_MEMORY's loop sends `n` bytes, then the checksum over what came before and these (R151). -/
theorem readMemoryLoop_emits (n a : Nat) (s : State) : ∃ ok, Emits s (readMemoryLoop n a s)
    (bytesShown (s.logicalBytes a n) ++ checksumShown (crcFold s.cfg s.crc (s.logicalBytes a n)))
    (crcFold s.cfg s.crc (s.logicalBytes a n)) ok := by
  induction n generalizing a s with
  | zero => exact ⟨_, (Emits.crcEmit s).endTransaction⟩
  | succ n ih =>
    have hsend := Emits.send (s.logicalByte a) s
    rw [readMemoryLoop_succ, s.logicalBytes_succ, bytesShown_cons, List.append_assoc]
    cases hok : (s.send (s.logicalByte a)).1 with
    | false =>
      rw [hok] at hsend
      exact ⟨false, (hsend.append_stopped _ _).endTransaction⟩
    | true =>
      rw [hok] at hsend
      have hfirst := hsend.silent (.setTa (BitVec.ofNat 16 (a + 1)) _) rfl rfl id
      obtain ⟨ok, hrest⟩ := ih (a + 1) ((s.send (s.logicalByte a)).2.setTa (BitVec.ofNat 16 (a + 1)))
      rw [hfirst.sending.quiet.logicalBytes, hfirst.sending.quiet.cfg, hfirst.crc_eq] at hrest
      exact ⟨ok, hfirst.append hrest⟩

/-! ## READ_STATUS -/

theorem Quiet.groupShown (h : Quiet s t) (c : Word16) (a n : Nat) : t.groupShown c a n = s.groupShown c a n := by
  have hbytes : t.statusBytes a n = s.statusBytes a n := List.map_congr_left fun i _ => h.peek .status i
  rw [State.groupShown, State.groupShown, hbytes, h.cfg]

theorem State.groupShown_succ (s : State) (c : Word16) (a n : Nat) : s.groupShown c a (n + 1) =
    [.send (s.peek .status a) true] ++ s.groupShown (crcStep s.cfg c (s.peek .status a)) (a + 1) n := rfl

theorem State.statusShown_of_ge {a : Nat} (h : s.cfg.statusSize ≤ a) : s.statusShown a = [] := by
  rw [State.statusShown, if_neg (Nat.not_lt.2 h)]

/-- The groups after the one of index `a` (R157). -/
def State.laterGroups (s : State) (a : Nat) : List Shown :=
  (List.range' (a / 8 + 1) (s.cfg.statusSize / 8 - (a / 8 + 1))).flatMap fun g => s.groupShown 0 (8 * g) 8

theorem State.statusShown_of_lt {a : Nat} (h : a < s.cfg.statusSize) :
    s.statusShown a = s.groupShown s.crc a (8 - a % 8) ++ s.laterGroups a := by
  rw [State.statusShown, if_pos h, State.laterGroups]

theorem Quiet.laterGroups (h : Quiet s t) (a : Nat) : t.laterGroups a = s.laterGroups a := by
  rw [State.laterGroups, State.laterGroups, h.cfg]
  exact List.flatMap_congr fun g _ => h.groupShown 0 (8 * g) 8

/-- Inside a group the byte is followed by the rest of the group, accumulated onto it. -/
theorem State.statusShown_inside {a : Nat} (hmod : s.cfg.statusSize % 8 = 0) (ha : a < s.cfg.statusSize)
    (hinside : (a + 1) % 8 ≠ 0) (hquiet : Quiet s u) (hcrc : u.crc = crcStep s.cfg s.crc (s.peek .status a)) :
    s.statusShown a = [.send (s.peek .status a) true] ++ u.statusShown (a + 1) := by
  have hleft : 8 - a % 8 = 8 - (a + 1) % 8 + 1 := by omega
  have hgroup : (a + 1) / 8 = a / 8 := by omega
  rw [State.statusShown_of_lt ha, State.statusShown_of_lt (s := u) (by rw [hquiet.cfg]; omega), hquiet.groupShown,
    hquiet.laterGroups, hcrc, hleft, State.groupShown_succ, List.append_assoc, State.laterGroups, State.laterGroups, hgroup]

/-- At a group's last index the byte is followed by the group's checksum, and the next group begins from 0. -/
theorem State.statusShown_boundary {a : Nat} (hmod : s.cfg.statusSize % 8 = 0) (ha : a < s.cfg.statusSize)
    (hend : (a + 1) % 8 = 0) (hquiet : Quiet s u) (hcrc : u.crc = 0) : s.statusShown a =
      [.send (s.peek .status a) true] ++
        (checksumShown (crcStep s.cfg s.crc (s.peek .status a)) ++ u.statusShown (a + 1)) := by
  have hlater : u.statusShown (a + 1) = s.laterGroups a := by
    by_cases hmore : a + 1 < s.cfg.statusSize
    · obtain ⟨m, hm⟩ : ∃ m, s.cfg.statusSize / 8 - (a / 8 + 1) = m + 1 :=
        Nat.exists_eq_succ_of_ne_zero (by omega)
      have hfirst : 8 * (a / 8 + 1) = a + 1 := by omega
      rw [State.statusShown_of_lt (by rw [hquiet.cfg]; exact hmore), hquiet.groupShown, hquiet.laterGroups, hcrc, hend,
        State.laterGroups, State.laterGroups, hm, List.range'_succ, List.flatMap_cons, hfirst,
        show (a + 1) / 8 = a / 8 + 1 by omega, show s.cfg.statusSize / 8 - (a / 8 + 1 + 1) = m by omega]
    · rw [State.statusShown_of_ge (by rw [hquiet.cfg]; omega), State.laterGroups,
        show s.cfg.statusSize / 8 - (a / 8 + 1) = 0 by omega]
      rfl
  rw [State.statusShown_of_lt ha, hlater, show 8 - a % 8 = 0 + 1 by omega, State.groupShown_succ, List.append_assoc]
  rfl

/-- READ_STATUS's loop from index `a` sends what the spec's groups are made of, and leaves `CRC` at 0 if it sends at all
(R156, R157). -/
theorem readStatusLoop_emits (n a : Nat) (s : State) (hmod : s.cfg.statusSize % 8 = 0) (hn : n = s.cfg.statusSize - a) :
    ∃ ok, Emits s (readStatusLoop n a s) (s.statusShown a) (if a < s.cfg.statusSize then 0 else s.crc) ok := by
  induction n generalizing a s with
  | zero =>
    rw [State.statusShown_of_ge (by omega), if_neg (by omega)]
    exact ⟨true, (Emits.refl s).endTransaction⟩
  | succ n ih =>
    have ha : a < s.cfg.statusSize := by omega
    have hsend := Emits.send (s.peek .status a) s
    rw [readStatusLoop_succ, if_pos ha]
    cases hok : (s.send (s.peek .status a)).1 with
    | false =>
      rw [hok] at hsend
      rw [State.statusShown_of_lt ha, show 8 - a % 8 = (7 - a % 8) + 1 by omega, State.groupShown_succ, List.append_assoc]
      exact ⟨false, (hsend.append_stopped _ _).endTransaction⟩
    | true =>
      rw [hok] at hsend
      have hfirst := hsend.silent (.setTa (BitVec.ofNat 16 (a + 1)) _) rfl rfl id
      rw [if_pos rfl]
      generalize (s.send (s.peek .status a)).2.setTa (BitVec.ofNat 16 (a + 1)) = u at hfirst
      have hquiet := hfirst.sending.quiet
      by_cases hend : (a + 1) % 8 = 0
      · have hsum := Emits.crcEmit u
        rw [if_pos hend]
        rw [hfirst.crc_eq] at hsum
        have hall := State.statusShown_boundary (u := u.crcEmit.2.setCrc 0) hmod ha hend
          (hquiet.trans ((Quiet.crcEmit u).trans (.setCrc _ 0))) rfl
        rw [hall]
        cases hsumok : u.crcEmit.1 with
        | false =>
          rw [hsumok] at hsum
          exact ⟨false, (hfirst.append (hsum.append_stopped _ _)).endTransaction⟩
        | true =>
          rw [hsumok] at hsum
          have hcfg : (u.crcEmit.2.setCrc 0).cfg = s.cfg := (Quiet.crcEmit u).cfg.trans hquiet.cfg
          obtain ⟨ok, hrest⟩ := ih (a + 1) (u.crcEmit.2.setCrc 0) (by rw [hcfg]; exact hmod) (by rw [hcfg]; omega)
          rw [State.setCrc_crc, ite_self] at hrest
          exact ⟨ok, hfirst.append ((hsum.silent (crc' := 0) (.setCrc 0 _) rfl rfl fun _ => rfl).append hrest)⟩
      · obtain ⟨ok, hrest⟩ := ih (a + 1) u (by rw [hquiet.cfg]; exact hmod) (by rw [hquiet.cfg]; omega)
        rw [if_neg hend, State.statusShown_inside hmod ha hend hquiet hfirst.crc_eq]
        rw [hquiet.cfg, if_pos (by omega)] at hrest
        exact ⟨ok, hfirst.append hrest⟩

end Reads

/-- Settles O9: the loop's sends begin once `CMD`, `TA` and the phase are written. -/
theorem readMemoryStreamsToTheEnd : Obligations.ReadMemoryStreamsToTheEnd := by
  intro s ta hcfg
  obtain ⟨ok, hemits⟩ := readMemoryLoop_emits (s.cfg.totalSpace - ta.toNat) ta.toNat
    (s.beginCommand .readMemory s.cfg.cmdReadMemory ta)
  rw [(Quiet.beginCommand s .readMemory s.cfg.cmdReadMemory ta).logicalBytes] at hemits
  refine ⟨s.readMemory ta, State.whenConfigured_of hcfg _, hemits.sending.cmd, s.readMemory_phase ta, hemits.sending.rx,
    (Quiet.readMemory ta s).busOnly, fun hall => ?_, fun k rest last hfails hlast => ?_⟩
  · obtain ⟨-, htrace, -, hcrc⟩ := hemits.of_success hall
    refine ⟨htrace, hcrc, fun hheader => hcrc.trans ?_⟩
    rw [crcFold_append, ← hheader]
    rfl
  · obtain ⟨-, htrace, htx⟩ := hemits.of_failure hfails hlast
    exact ⟨htrace, htx⟩

/-- Settles O10, likewise. -/
theorem readStatusShowsGroups : Obligations.ReadStatusShowsGroups := by
  intro s ta hcfg
  obtain ⟨ok, hemits⟩ := readStatusLoop_emits (s.cfg.statusSize - ta.toNat) ta.toNat
    (s.beginCommand .readStatus s.cfg.cmdReadStatus ta) (Config.facts hcfg).status_mod rfl
  refine ⟨s.readStatus ta, State.whenConfigured_of hcfg _, hemits.sending.cmd, s.readStatus_phase ta, hemits.sending.rx,
    (Quiet.readStatus ta s).busOnly, fun hall => ?_, fun k rest last hfails hlast => ?_⟩
  · obtain ⟨-, htrace, -, hcrc⟩ := hemits.of_success hall
    exact ⟨htrace, hcrc⟩
  · obtain ⟨-, htrace, htx⟩ := hemits.of_failure hfails hlast
    exact ⟨htrace, htx⟩

end Sys2Proof.Machine
end

section
/-! PROOF. The write commands (R170 to R180): a payload burned byte by byte, how a write ends, and what every write
leaves alone. -/

namespace Sys2Proof.Machine

section Payload
variable {s t u : State} {r : Region}

/-! ## A payload, byte by byte -/

/-- What the write loop leaves once `payload` has arrived: every byte burned on the location it lands on, and no send. -/
structure PayloadBurned (r : Region) (payload : List Byte) (s t : State) : Prop where
  cfg : t.cfg = s.cfg
  image : ∀ i, t.peek r.space i = (landing s.cfg r s.ta payload i).foldl (· &&& ·) (s.peek r.space i)
  ta : t.ta = s.ta + BitVec.ofNat 16 payload.length
  crc : t.crc = crcFold s.cfg s.crc payload
  cmd : t.cmd = s.cmd
  tx : t.env.tx = s.env.tx
  trace : t.trace = s.trace

theorem PayloadBurned.nil (r : Region) (s : State) : PayloadBurned r [] s s :=
  ⟨rfl, fun _ => rfl, by simp, rfl, rfl, rfl, rfl⟩

theorem PayloadBurned.cons {b : Byte} {payload : List Byte} (hb : PayloadBurned r [b] s t)
    (h : PayloadBurned r payload t u) : PayloadBurned r (b :: payload) s u where
  cfg := h.cfg.trans hb.cfg
  image i := by
    have hta : t.ta = s.ta + 1 := hb.ta
    rw [h.image i, hb.image i, hb.cfg, hta, landing_cons, landing_cons, List.foldl_append, List.foldl_append]
    rfl
  ta := by
    have hta : t.ta = s.ta + 1 := hb.ta
    rw [h.ta, hta, BitVec.add_assoc, List.length_cons, Nat.add_comm payload.length, BitVec.ofNat_add]
    rfl
  crc := by rw [h.crc, hb.crc, hb.cfg]; rfl
  cmd := h.cmd.trans hb.cmd
  tx := h.tx.trans hb.tx
  trace := h.trace.trans hb.trace

/-- What is written where the payload byte `b` lands at `TA`: a burn, or nothing where the location is invalid. -/
def State.burnAt (r : Region) (b : Byte) (s : State) : State :=
  match locate s.cfg r s.ta with
  | .valid i => s.burn r i b
  | .invalid => s

theorem State.burnAt_valid {i : Word16} (h : locate s.cfg r s.ta = .valid i) (b : Byte) : s.burnAt r b = s.burn r i b := by
  rw [State.burnAt, h]

theorem State.burnAt_invalid (h : locate s.cfg r s.ta = .invalid) (b : Byte) : s.burnAt r b = s := by
  rw [State.burnAt, h]

theorem State.burnAt_rest (r : Region) (b : Byte) (s : State) :
    (s.burnAt r b).cfg = s.cfg ∧ (s.burnAt r b).ta = s.ta ∧ (s.burnAt r b).crc = s.crc ∧ (s.burnAt r b).cmd = s.cmd ∧
    (s.burnAt r b).env = s.env ∧ (s.burnAt r b).trace = s.trace := by
  cases hl : locate s.cfg r s.ta with
  | invalid =>
    rw [State.burnAt_invalid hl]
    exact ⟨rfl, rfl, rfl, rfl, rfl, rfl⟩
  | valid i =>
    obtain ⟨hcfg, -, -, hcmd, hta, hcrc, -, -, -, henv, htrace, -⟩ := s.burn_rest r i b
    rw [State.burnAt_valid hl]
    exact ⟨hcfg, hta, hcrc, hcmd, henv, htrace⟩

theorem State.burnAt_peek (r : Region) (b : Byte) (s : State) (i : Nat) :
    (s.burnAt r b).peek r.space i = (landing s.cfg r s.ta [b] i).foldl (· &&& ·) (s.peek r.space i) := by
  rw [landing_cons]
  cases hl : locate s.cfg r s.ta with
  | invalid =>
    rw [State.burnAt_invalid hl]
    rfl
  | valid j =>
    rw [State.burnAt_valid hl, State.burn_peek]
    by_cases hij : j.toNat = i
    · rw [if_pos ⟨rfl, hij.symm⟩]
      simp [hij, landing]
    · rw [if_neg fun h => hij h.2.symm]
      simp [hij, landing]

/-- One turn of the write loop on a byte that does not abort it (R172, R176). -/
theorem writeLoop_turn {b : Byte} {rest : List (Option Byte)} (n : Nat) (hrx : s.env.rx = some b :: rest)
    (hlands : s.cfg.strict = false ∨ locate s.cfg r s.ta ≠ .invalid) :
    writeLoop r (n + 1) s = writeLoop r n (s.recv.2.burnAt r b).advanceTa := by
  have hdelivered : s.recv.1 = some b := by rw [State.recv_some hrx]
  obtain ⟨-, hta, -⟩ := s.recv_rest
  rw [writeLoop_succ, hdelivered]
  dsimp only
  cases hl : locate s.cfg r s.ta with
  | invalid =>
    rw [State.burnAt_invalid (by rw [s.recv_cfg, hta, hl]), hlands.resolve_right (absurd hl)]
    rfl
  | valid i => rw [State.burnAt_valid (by rw [s.recv_cfg, hta, hl])]

theorem PayloadBurned.turn {b : Byte} {rest : List (Option Byte)} (hrx : s.env.rx = some b :: rest) :
    PayloadBurned r [b] s (s.recv.2.burnAt r b).advanceTa ∧ (s.recv.2.burnAt r b).advanceTa.env.rx = rest := by
  obtain ⟨htrace, hta, hcmd, -, htx, -⟩ := s.recv_rest
  obtain ⟨hcrc, hrest⟩ : s.recv.2.crc = crcStep s.cfg s.crc b ∧ s.recv.2.env.rx = rest := by
    rw [State.recv_some hrx]
    simp
  obtain ⟨hcfg', hta', hcrc', hcmd', henv', htrace'⟩ := s.recv.2.burnAt_rest r b
  refine ⟨⟨hcfg'.trans s.recv_cfg, fun i => ?_, ?_, hcrc'.trans hcrc, hcmd'.trans hcmd,
    (congrArg Env.tx henv').trans htx, htrace'.trans htrace⟩, (congrArg Env.rx henv').trans hrest⟩
  · rw [State.advanceTa, State.setTa_peek, State.burnAt_peek, s.recv_cfg, hta, (Quiet.recv s).peek]
  · show (s.recv.2.burnAt r b).ta + 1 = s.ta + 1
    rw [hta', hta]

/-- The loop over a payload that arrives whole and does not abort it. -/
theorem writeLoop_payload (m : Nat) {tail : List (Option Byte)} (payload : List Byte) (s : State)
    (hrx : s.env.rx = payload.map some ++ tail)
    (hlands : s.cfg.strict = false ∨ ∀ k < payload.length, locate s.cfg r (s.ta + BitVec.ofNat 16 k) ≠ .invalid) :
    ∃ t, writeLoop r (payload.length + m) s = writeLoop r m t ∧ t.env.rx = tail ∧ PayloadBurned r payload s t := by
  induction payload generalizing s with
  | nil => exact ⟨s, by rw [List.length_nil, Nat.zero_add], hrx, .nil r s⟩
  | cons b payload ih =>
    have hfirst : s.cfg.strict = false ∨ locate s.cfg r s.ta ≠ .invalid :=
      hlands.imp_right fun h => by simpa using h 0 (Nat.zero_lt_succ _)
    obtain ⟨hburned, hrest⟩ := PayloadBurned.turn (r := r) hrx
    have hta : (s.recv.2.burnAt r b).advanceTa.ta = s.ta + 1 := hburned.ta
    have hlater : (s.recv.2.burnAt r b).advanceTa.cfg.strict = false ∨ ∀ k < payload.length,
        locate (s.recv.2.burnAt r b).advanceTa.cfg r ((s.recv.2.burnAt r b).advanceTa.ta + BitVec.ofNat 16 k) ≠
          .invalid := by
      rw [hburned.cfg, hta]
      refine hlands.imp_right fun h k hk => ?_
      have hnext := h (k + 1) (Nat.succ_lt_succ hk)
      rwa [Nat.add_comm, BitVec.ofNat_add, ← BitVec.add_assoc] at hnext
    obtain ⟨t, hloop, htail, hpayload⟩ := ih _ hrest hlater
    exact ⟨t, by rw [List.length_cons, Nat.add_right_comm, writeLoop_turn _ hrx hfirst, hloop], htail,
      hburned.cons hpayload⟩

/-! ## How a write ends -/

/-- Where no byte arrives, the payload is at its end (R173, R254). -/
theorem writeLoop_end (n : Nat) (h : ∀ b, s.env.rx.head? ≠ some (some b)) :
    writeLoop r n s = s.recv.2.takeError .endOfWrite := by
  cases n with
  | zero => rfl
  | succ n =>
    obtain ⟨hnone, -⟩ := State.recv_fails h
    rw [writeLoop_succ, hnone]

/-- In strict mode a byte on an invalid location ends the write (R176). -/
theorem writeLoop_abort {b : Byte} {rest : List (Option Byte)} (n : Nat) (hrx : s.env.rx = some b :: rest)
    (hstrict : s.cfg.strict = true) (hinvalid : locate s.cfg r s.ta = .invalid) :
    writeLoop r (n + 1) s = s.recv.2.takeError .invalidWriteAddress := by
  have hdelivered : s.recv.1 = some b := by rw [State.recv_some hrx]
  rw [writeLoop_succ, hdelivered]
  dsimp only
  rw [hinvalid]
  exact if_pos hstrict

/-- With WRITE_EN a write command is the write loop, once `CMD`, `TA` and the phase are written (R170, R171). -/
theorem exec_writeInstr (hcfg : s.cfg.wf = true) (hw : s.cfg.writeEn = true) (r : Region) (ta : Word16) : ∃ c,
    exec (writeInstr r ta) s = .next (writeLoop r s.env.rx.length (s.beginCommand c (writeCode s.cfg r) ta)) := by
  cases r with
  | data =>
    have hwrite : s.writeMemory ta = _ := if_pos hw
    exact ⟨.writeMemory, (State.whenConfigured_of hcfg _).trans (by rw [hwrite]; rfl)⟩
  | status =>
    have hwrite : s.writeStatus ta = _ := if_pos hw
    exact ⟨.writeStatus, (State.whenConfigured_of hcfg _).trans (by rw [hwrite]; rfl)⟩

end Payload

/-- Settles O11: the payload is burned byte by byte, then the receive that fails sends the checksum. -/
theorem writeBurnsEveryLandingByte : Obligations.WriteBurnsEveryLandingByte := by
  intro s r ta payload tail hcfg hw hrx htail hlands
  obtain ⟨c, hexec⟩ := exec_writeInstr hcfg hw r ta
  obtain ⟨u, hloop, hrest, hburned⟩ := writeLoop_payload (r := r) tail.length payload
    (s.beginCommand c (writeCode s.cfg r) ta) hrx hlands
  have hend := hloop.trans (writeLoop_end _ (by rw [hrest]; exact htail))
  obtain ⟨-, hrx', hcrc'⟩ := State.recv_fails (s := u) (by rw [hrest]; exact htail)
  obtain ⟨htrace', hta', hcmd', -, htx', -⟩ := u.recv_rest
  have hcrc : u.recv.2.crc = crcFold s.cfg s.crc payload := hcrc'.trans hburned.crc
  have hemits := (Emits.crcEmit u.recv.2).endTransaction
  rw [hcrc] at hemits
  obtain ⟨hsumcrc, hsumta, -⟩ := u.recv.2.crcEmit_rest
  have hfinal : crcFold s.cfg s.crc payload = u.recv.2.crcEmit.2.endTransaction.crc := (hsumcrc.trans hcrc).symm
  rw [show s.env.rx.length = payload.length + tail.length by rw [hrx]; simp, hend] at hexec
  refine ⟨u.recv.2.crcEmit.2.endTransaction, hexec, fun i => ?image, ?ta, hfinal.symm, fun hheader => ?header,
    hemits.sending.cmd.trans (hcmd'.trans hburned.cmd), hemits.sending.rx.trans (hrx'.trans (by rw [hrest])), rfl,
    fun hall => ?all, fun k rest last hfails hlast => ?stopped⟩
  case image =>
    rw [hemits.sending.quiet.peek, (Quiet.recv u).peek, hburned.image i]
    rfl
  case ta => exact hsumta.trans (hta'.trans hburned.ta)
  case header => rw [← hfinal, crcFold_append, ← hheader]
  case all =>
    obtain ⟨-, htrace, -⟩ := hemits.of_success (by rw [htx', hburned.tx]; exact hall)
    rw [htrace, htrace', hburned.trace]
    rfl
  case stopped =>
    obtain ⟨-, htrace, htx⟩ := hemits.of_failure (by rw [htx', hburned.tx]; exact hfails) hlast
    rw [htrace, htrace', hburned.trace]
    exact ⟨rfl, htx⟩

/-- Settles O12: the payload up to the invalid location is burned, then the next byte aborts the write. -/
theorem strictInvalidWriteAborts : Obligations.StrictInvalidWriteAborts := by
  intro s r ta payload b rest hcfg hw hstrict hrx hvalid hinvalid
  obtain ⟨c, hexec⟩ := exec_writeInstr hcfg hw r ta
  obtain ⟨u, hloop, hrest, hburned⟩ := writeLoop_payload (r := r) (rest.length + 1) payload
    (s.beginCommand c (writeCode s.cfg r) ta) hrx (.inr hvalid)
  have habort := hloop.trans (writeLoop_abort rest.length hrest (by rw [hburned.cfg]; exact hstrict)
    (by rw [hburned.cfg, hburned.ta]; exact hinvalid))
  obtain ⟨htrace', -, hcmd', -, htx', -⟩ := u.recv_rest
  have hrx' : u.recv.2.env.rx = rest := by rw [State.recv_some hrest]; simp
  rw [show s.env.rx.length = payload.length + (rest.length + 1) by rw [hrx]; simp, habort] at hexec
  refine ⟨_, hexec, ?_, fun i => ?_, hrx', htx'.trans hburned.tx, rfl⟩
  · show Shown.report u.recv.2.cmd :: u.recv.2.trace = _
    rw [hcmd', hburned.cmd, htrace', hburned.trace]
    rfl
  · rw [(Quiet.takeError u.recv.2 _).peek, (Quiet.recv u).peek, hburned.image i]
    rfl

/-! ## What every write leaves alone -/

/-- Whatever WRITE_EN and the scripts are, a write command completes, ends the transaction, and is made of quiet changes
and burns of its region (R170, R171, R182). -/
theorem exec_writeInstr_parts {s : State} (hcfg : s.cfg.wf = true) (r : Region) (ta : Word16) :
    ∃ t, exec (writeInstr r ta) s = .next t ∧ t.phase = .done ∧
      ∀ P : State → Prop, (∀ s t, Quiet s t → P s → P t) →
        (∀ s i b, BitVec.toNat i < s.cfg.size r.space → P s → P (s.burn r i b)) → P s → P t := by
  have hc := Config.facts hcfg
  cases r with
  | data =>
    exact ⟨s.writeMemory ta, State.whenConfigured_of hcfg _, s.writeMemory_phase ta, fun P hquiet hburn hs =>
      (State.write_induction .data ta s hc hquiet hburn hs).1 rfl⟩
  | status =>
    exact ⟨s.writeStatus ta, State.whenConfigured_of hcfg _, s.writeStatus_phase ta, fun P hquiet hburn hs =>
      (State.write_induction .status ta s hc hquiet hburn hs).2 rfl⟩

/-- What neither a quiet change nor a burn ever does: write the configuration, the commit state, the store or its script,
set a bit of the image, or clear a dirty flag (R38). -/
structure TransactionFrame (s t : State) : Prop where
  config : SameConfig s t
  cleared : OnlyCleared s t
  store : SameStore s t
  commit : t.commit = s.commit
  result : t.result = s.result
  events : t.env.events = s.env.events
  reads : t.env.reads = s.env.reads
  flags : ∀ r, (s.dirty r).flag = true → (t.dirty r).flag = true

/-- The frame of a write of region `r`, which leaves the other region and its tracker alone besides. -/
structure RegionOnly (r : Region) (s t : State) : Prop where
  frame : TransactionFrame s t
  others : ∀ q, q ≠ r → t.dirty q = s.dirty q ∧ ∀ a, t.peek (Region.space q) a = s.peek q.space a

section Frame
variable {r : Region} {s t u : State}

theorem TransactionFrame.refl (s : State) : TransactionFrame s s :=
  ⟨.refl s, .refl s, fun _ => rfl, rfl, rfl, rfl, rfl, fun _ => id⟩

theorem TransactionFrame.trans (hst : TransactionFrame s t) (htu : TransactionFrame t u) : TransactionFrame s u where
  config := hst.config.trans htu.config
  cleared := hst.cleared.trans htu.cleared
  store a := (htu.store a).trans (hst.store a)
  commit := htu.commit.trans hst.commit
  result := htu.result.trans hst.result
  events := htu.events.trans hst.events
  reads := htu.reads.trans hst.reads
  flags r hr := htu.flags r (hst.flags r hr)

theorem Quiet.transactionFrame (h : Quiet s t) : TransactionFrame s t := by
  obtain ⟨hconfig, himage, hstore, htracker, hcommit, hresult, hevents, hreads⟩ := h.busOnly
  exact ⟨hconfig, himage.onlyCleared, hstore, hcommit, hresult, hevents, hreads, fun r hr => by rwa [htracker r]⟩

theorem State.burn_transactionFrame (r : Region) (i : Word16) (b : Byte) (s : State) :
    TransactionFrame s (s.burn r i b) := by
  obtain ⟨hconfig, -, hstore, hcommit, -, henv, -, hresult, -⟩ := s.burn_imageOnly r i b
  exact ⟨hconfig, .burn r i b s, hstore, hcommit, hresult, congrArg Env.events henv, congrArg Env.reads henv,
    s.burn_flag r i b⟩

theorem RegionOnly.refl (r : Region) (s : State) : RegionOnly r s s := ⟨.refl s, fun _ _ => ⟨rfl, fun _ => rfl⟩⟩

theorem RegionOnly.trans (hst : RegionOnly r s t) (htu : RegionOnly r t u) : RegionOnly r s u where
  frame := hst.frame.trans htu.frame
  others q hq := by
    obtain ⟨hdirty, hbytes⟩ := hst.others q hq
    obtain ⟨hdirty', hbytes'⟩ := htu.others q hq
    exact ⟨hdirty'.trans hdirty, fun a => (hbytes' a).trans (hbytes a)⟩

theorem Quiet.regionOnly (h : Quiet s t) (r : Region) : RegionOnly r s t :=
  ⟨h.transactionFrame, fun q _ => ⟨h.dirty q, h.peek q.space⟩⟩

theorem State.burn_regionOnly (r : Region) (i : Word16) (b : Byte) (s : State) : RegionOnly r s (s.burn r i b) := by
  refine ⟨s.burn_transactionFrame r i b, fun q hq => ⟨?_, fun a => ?_⟩⟩
  · rw [State.burn_dirty, if_neg fun h => hq h.1.symm]
  · rw [State.burn_peek, if_neg fun h => hq (Region.space_injective h.1).symm]

end Frame

/-- Settles O13: quiet changes and burns of its own region keep to the frame. -/
theorem writeTouchesOnlyItsRegion : Obligations.WriteTouchesOnlyItsRegion := by
  intro s r ta hcfg
  obtain ⟨t, hexec, hphase, hparts⟩ := exec_writeInstr_parts hcfg r ta
  obtain ⟨⟨hconfig, hcleared, hstore, hcommit, hresult, hevents, hreads, -⟩, hothers⟩ :=
    hparts (RegionOnly r s) (fun _ _ h hs => hs.trans (h.regionOnly r))
      (fun t i b _ hs => hs.trans (t.burn_regionOnly r i b)) (.refl r s)
  exact ⟨t, hexec, hcleared, hothers, hstore, hcommit, hconfig, hresult, hevents, hreads, hphase⟩

/-! ## What a write marks -/

/-- From `s` on, the bytes of region `r` that changed lie in its dirty range, which has only widened, and has not been
touched before a byte changed. -/
structure MarksChanges (r : Region) (s t : State) : Prop where
  region : RegionOnly r s t
  marked : ∀ i, t.peek r.space i ≠ s.peek r.space i →
    (t.dirty r).flag = true ∧ (t.dirty r).low.toNat ≤ i ∧ i ≤ (t.dirty r).high.toNat
  untouched : t.dirty r = s.dirty r ∨ ∃ i, t.peek r.space i ≠ s.peek r.space i
  low : (t.dirty r).low.toNat ≤ (s.dirty r).low.toNat
  high : (s.dirty r).high.toNat ≤ (t.dirty r).high.toNat

section Marks
variable {r : Region} {s t u : State}

theorem MarksChanges.refl (r : Region) (s : State) : MarksChanges r s s :=
  ⟨.refl r s, fun _ h => absurd rfl h, .inl rfl, le_refl _, le_refl _⟩

theorem MarksChanges.quiet (h : MarksChanges r s t) (hq : Quiet t u) : MarksChanges r s u := by
  obtain ⟨hregion, hmarked, huntouched, hlow, hhigh⟩ := h
  refine ⟨hregion.trans (hq.regionOnly r), ?_, ?_, ?_, ?_⟩ <;> simpa only [hq.dirty, hq.peek]

/-- A byte that has lost a bit does not get it back by losing more. -/
theorem ne_of_and_ne {old byte b : Byte} (hsub : byte &&& old = byte) (hne : byte &&& b ≠ byte) : byte &&& b ≠ old := by
  rintro rfl
  rw [← BitVec.and_assoc, BitVec.and_self] at hsub
  exact hne hsub

/-- A burn that changes its byte marks it; one that does not changes nothing (R175). -/
theorem MarksChanges.burn (h : MarksChanges r s t) (i : Word16) (b : Byte) : MarksChanges r s (t.burn r i b) := by
  by_cases hsame : t.peek r.space i.toNat &&& b = t.peek r.space i.toNat
  · rw [State.burn_eq, if_pos hsame]
    exact h
  · have hbyte : (t.burn r i b).peek r.space i.toNat ≠ s.peek r.space i.toNat := by
      rw [State.burn_peek, if_pos ⟨rfl, rfl⟩]
      exact ne_of_and_ne (h.region.frame.cleared r i.toNat) hsame
    have hdirty : (t.burn r i b).dirty r = (t.dirty r).mark i := by rw [State.burn_dirty, if_pos ⟨rfl, hsame⟩]
    have hlow := h.low
    have hhigh := h.high
    refine ⟨h.region.trans (t.burn_regionOnly r i b), fun j hj => ?_, .inr ⟨i.toNat, hbyte⟩, ?_, ?_⟩ <;> rw [hdirty]
    · rw [DirtyRange.mark_low, DirtyRange.mark_high]
      by_cases hji : j = i.toNat
      · exact ⟨rfl, by omega, by omega⟩
      · rw [State.burn_peek, if_neg fun h => hji h.2] at hj
        obtain ⟨-, hlow', hhigh'⟩ := h.marked j hj
        exact ⟨rfl, by omega, by omega⟩
    · rw [DirtyRange.mark_low]; omega
    · rw [DirtyRange.mark_high]; omega

end Marks

/-- Settles O14, by the parts of a write. -/
theorem writeMarksWhatChanged : Obligations.WriteMarksWhatChanged := by
  intro s t r ta h
  have hcfg : s.cfg.wf = true := by cases r <;> exact (State.whenConfigured_next h).1
  obtain ⟨u, hexec, -, hparts⟩ := exec_writeInstr_parts hcfg r ta
  cases hexec.symm.trans h
  have hmarks : MarksChanges r s t :=
    hparts (MarksChanges r s) (fun _ _ hq hs => hs.quiet hq) (fun _ i b _ hs => hs.burn i b) (.refl r s)
  refine ⟨hmarks.marked, fun himage q => ?_, hmarks.region.frame.flags r, hmarks.low, hmarks.high⟩
  by_cases hq : q = r
  · subst hq
    exact hmarks.untouched.resolve_right fun ⟨i, hi⟩ => hi (himage q i)
  · exact (hmarks.region.others q hq).1

end Sys2Proof.Machine
end

section
/-! PROOF. The bus primitives run alone (R110 to R112, R119), CRC_EMIT's bytes (R134), and the residue of the default
checksum (R142). -/

namespace Sys2Proof.Machine

section Primitives
variable {s t : State}

/-- Run alone, a primitive's answer is written besides the bus matters. -/
theorem Quiet.busOnly_setResult (h : Quiet s t) (x : OpResult) : BusOnly (s.setResult x) (t.setResult x) := by
  obtain ⟨hconfig, himage, hstore, htracker, hcommit, -, hevents, hreads⟩ := h.busOnly
  exact ⟨hconfig, fun r a => by simpa using himage r a, fun a => by simpa using hstore a,
    fun r => by simpa using htracker r, hcommit, rfl, hevents, hreads⟩

theorem State.recv_rx (s : State) : s.recv.2.env.rx = s.env.rx.tail := by
  rcases h : s.env.rx with _ | ⟨_ | b, rest⟩
  · rw [State.recv_nil h]; simp [h]
  · rw [State.recv_none h]; simp
  · rw [State.recv_some h]; simp

/-- An exhausted send script answers success (log 4). -/
theorem State.send_script (b : Byte) (s : State) :
    ((s.send b).1 = false ↔ s.env.tx.head? = some false) ∧ (s.send b).2.env.tx = s.env.tx.tail := by
  rcases h : s.env.tx with _ | ⟨ok, rest⟩
  · rw [State.send_of_tx, h]; simp [h]
  · obtain ⟨hok, hrest⟩ := State.send_tx b h
    rw [hok, hrest]
    simp

theorem State.sendRaw_script (b : Byte) (s : State) :
    ((s.sendRaw b).1 = false ↔ s.env.tx.head? = some false) ∧ (s.sendRaw b).2.env.tx = s.env.tx.tail := by
  rcases h : s.env.tx with _ | ⟨ok, rest⟩
  · rw [State.sendRaw_of_tx, h]; simp [h]
  · obtain ⟨hok, hrest⟩ := State.sendRaw_tx b h
    rw [hok, hrest]
    simp

end Primitives

/-- Settles O26, by the next answer of the receive script. -/
theorem recvFoldsOnlyDeliveredBytes : Obligations.RecvFoldsOnlyDeliveredBytes := by
  intro s hcfg
  obtain ⟨htrace, hta, hcmd, hphase, htx, -⟩ := s.recv_rest
  refine ⟨s.recv.2.setResult (.received s.recv.1), State.whenConfigured_of hcfg _, htrace, hcmd, hta, hphase, s.recv_rx,
    htx, (Quiet.recv s).busOnly_setResult _, fun b rest hrx => ?_, fun hfails => ?_⟩
  · rw [State.recv_some hrx]
    exact ⟨rfl, by simp⟩
  · obtain ⟨hnone, -, hcrc⟩ := State.recv_fails hfails
    rw [hnone]
    exact ⟨rfl, hcrc⟩

/-- Settles O27, by the next answer of the send script. -/
theorem sendFoldsSentBytes : Obligations.SendFoldsSentBytes := by
  intro s b hcfg
  obtain ⟨htrace, hta, hcmd, hphase, hrx, hcrc⟩ := s.send_rest b
  obtain ⟨hfails, htx⟩ := s.send_script b
  exact ⟨(s.send b).2.setResult (.answered (s.send b).1), (s.send b).1, State.whenConfigured_of hcfg _, rfl, htrace, hcmd,
    hta, hphase, hrx, htx, (Quiet.send s b).busOnly_setResult _, hfails, fun hok => (hcrc hok).1⟩

/-- Settles O28, likewise; the checksum is not touched. -/
theorem sendRawLeavesTheChecksum : Obligations.SendRawLeavesTheChecksum := by
  intro s b hcfg
  obtain ⟨htrace, hta, hcmd, hphase, hrx, hcrc, hfree⟩ := s.sendRaw_rest b
  obtain ⟨hfails, htx⟩ := s.sendRaw_script b
  exact ⟨(s.sendRaw b).2.setResult (.answered (s.sendRaw b).1), (s.sendRaw b).1, State.whenConfigured_of hcfg _, rfl,
    htrace, ⟨hcmd, hta, hcrc, hphase⟩, hrx, htx, hfree, (Quiet.sendRaw s b).busOnly_setResult _, hfails⟩

section Clock
variable {s t : State}

theorem State.touchBus_of_no_reading (h : s.env.ticks = []) :
    s.touchBus.env.ticks = [] ∧ s.touchBus.lastBus = s.lastBus := by
  rw [State.touchBus_eq, h]
  exact ⟨h, rfl⟩

theorem State.recv_of_no_reading (h : s.env.ticks = []) : s.recv.2.env.ticks = [] ∧ s.recv.2.lastBus = s.lastBus := by
  rcases hrx : s.env.rx with _ | ⟨_ | b, rest⟩
  · rw [State.recv_nil hrx]; exact State.touchBus_of_no_reading h
  · rw [State.recv_none hrx]; exact State.touchBus_of_no_reading h
  · rw [State.recv_some hrx]; exact State.touchBus_of_no_reading h

theorem State.send_of_no_reading (h : s.env.ticks = []) (b : Byte) :
    (s.send b).2.env.ticks = [] ∧ (s.send b).2.lastBus = s.lastBus := by
  rw [State.send_of_tx]
  split <;> exact State.touchBus_of_no_reading h

theorem State.sendRaw_of_no_reading (h : s.env.ticks = []) (b : Byte) :
    (s.sendRaw b).2.env.ticks = [] ∧ (s.sendRaw b).2.lastBus = s.lastBus := by
  rw [State.sendRaw_of_tx]
  split <;> exact State.touchBus_of_no_reading h

/-- A clock that never had a reading leaves `LAST_BUS` to every primitive as it was (log 4). -/
theorem exec_busPrimitive_of_no_reading {i : Instr} (hi : i = .recv ∨ (∃ b, i = .send b) ∨ ∃ b, i = .sendRaw b)
    (h : exec i s = .next t) (hempty : s.env.ticks = []) : t.env.ticks = [] ∧ t.lastBus = s.lastBus := by
  obtain rfl | ⟨b, rfl⟩ | ⟨b, rfl⟩ := hi
  · cases (State.whenConfigured_next h).2
    exact State.recv_of_no_reading hempty
  · cases (State.whenConfigured_next h).2
    exact State.send_of_no_reading hempty b
  · cases (State.whenConfigured_next h).2
    exact State.sendRaw_of_no_reading hempty b

end Clock

/-- Settles O55, by the `touchBus` each primitive ends in. -/
theorem lastClockReadingStands : Obligations.LastClockReadingStands := by
  intro s t i hi h
  refine ⟨fun now hnow => ?_, exec_busPrimitive_of_no_reading hi h⟩
  obtain ⟨u, x, rfl, -, hticks⟩ := exec_busPrimitive_eq_touchBus hi h
  exact (u.touchBus_lastBus (hticks.trans hnow)).2

/-! ## CRC_EMIT -/

/-- While the clock stands, `LAST_BUS` is its reading after CRC_EMIT, which ends in a `send_raw` (R139). -/
theorem State.crcEmit_clock {s : State} {now : Nat} (h : s.env.ticks = [now]) :
    s.crcEmit.2.lastBus = now % s.cfg.timeModulus := by
  have hstamp : ∀ (b : Byte) (u : State), u.env.ticks = [now] → (u.sendRaw b).2.lastBus = now % u.cfg.timeModulus := by
    intro b u hu
    obtain ⟨v, hv, hcfg, hticks⟩ := u.sendRaw_eq_touchBus b
    rw [hv, ← hcfg]
    exact (v.touchBus_lastBus (hticks.trans hu)).1
  have hlow := Quiet.sendRaw s (lowByte (~~~ s.crc))
  rw [State.crcEmit_eq]
  split
  · rw [hstamp _ _ (hlow.clock now h).1, hlow.cfg]
  · exact hstamp _ _ h

/-- Settles O24: CRC_EMIT is two sends, and its answer is whether both succeeded. -/
theorem crcEmitSendsTheComplement : Obligations.CrcEmitSendsTheComplement := by
  intro s hcfg
  obtain ⟨hconfig, himage, hstore, htracker, hcommit, -⟩ := (Quiet.crcEmit s).busOnly
  obtain ⟨hcrc, hta, hcmd, hphase, hrx, hfree⟩ := s.crcEmit_rest
  have hemits := Emits.crcEmit s
  refine ⟨s.crcEmit.2.setResult (.answered s.crcEmit.1), State.whenConfigured_of hcfg _, ⟨hcmd, hta, hcrc, hphase⟩,
    hconfig, fun r a => by simpa using himage r a, fun a => by simpa using hstore a, fun r => by simpa using htracker r,
    hcommit, hfree, hrx, fun now => State.crcEmit_clock, fun htx => ?both, fun rest htx => ?first, fun rest htx => ?second⟩
  case both =>
    have hall : ∀ b ∈ s.env.tx.take 2, b = true := by
      obtain htx | htx | ⟨rest, htx⟩ := htx <;> rw [htx] <;> simp
    obtain ⟨hok, htrace, hleft, -⟩ := hemits.of_success hall
    rw [hok]
    exact ⟨rfl, hleft, htrace⟩
  case first =>
    obtain ⟨hok, htrace, hleft⟩ := hemits.of_failure (k := 0) htx rfl
    rw [hok]
    exact ⟨rfl, htrace, hleft⟩
  case second =>
    obtain ⟨hok, htrace, hleft⟩ := hemits.of_failure (k := 1) htx rfl
    rw [hok]
    exact ⟨rfl, hleft, htrace⟩

/-! ## The residue (R142) -/

theorem crc16Bit_eq (c : Word16) : crc16Bit c = c >>> 1 ^^^ if c.getLsbD 0 then 0xA001 else 0 := by
  unfold crc16Bit
  split
  · rfl
  · exact BitVec.xor_zero.symm

/-- One bit of the default step is linear. -/
theorem crc16Bit_xor (x y : Word16) : crc16Bit (x ^^^ y) = crc16Bit x ^^^ crc16Bit y := by
  have hpoly : ∀ p q : Bool, (if (p ^^ q) = true then (0xA001 : Word16) else 0) =
      (if p = true then 0xA001 else 0) ^^^ if q = true then 0xA001 else 0 := by decide
  rw [crc16Bit_eq, crc16Bit_eq, crc16Bit_eq, BitVec.getLsbD_xor, hpoly, BitVec.ushiftRight_xor_distrib]
  ac_rfl

theorem crc16Bits_xor (n : Nat) (x y : Word16) :
    Nat.repeat crc16Bit n (x ^^^ y) = Nat.repeat crc16Bit n x ^^^ Nat.repeat crc16Bit n y := by
  induction n with
  | zero => rfl
  | succ n ih =>
    show crc16Bit (Nat.repeat crc16Bit n (x ^^^ y)) = _
    rw [ih, crc16Bit_xor]
    rfl

/-- A bit step on a byte that stands above the lowest place only shifts it down. -/
theorem crc16Bit_shiftLeft (b : Byte) {k : Nat} (hk : k < 8) :
    crc16Bit (b.setWidth 16 <<< (k + 1)) = b.setWidth 16 <<< k := by
  rw [crc16Bit, if_neg (by simp)]
  apply BitVec.eq_of_getLsbD_eq
  intro i hi
  by_cases hlast : i = 15
  · have habove : b.getLsbD (15 - k) = false := BitVec.getLsbD_of_ge _ _ (by omega)
    simp [hlast, habove]
  · have hplace : 1 + i - (k + 1) = i - k := by omega
    have hin : 1 + i < 16 := by omega
    have horder : 1 + i < k + 1 ↔ i < k := by omega
    simp [hi, hin, hplace, horder]

/-- As many steps as the byte stands high bring it down to the low byte. -/
theorem crc16Bits_shiftLeft (b : Byte) (n k : Nat) (h : k + n ≤ 8) :
    Nat.repeat crc16Bit n (b.setWidth 16 <<< (k + n)) = b.setWidth 16 <<< k := by
  induction n generalizing k with
  | zero => rfl
  | succ n ih =>
    have hhigher := ih (k + 1) (by omega)
    rw [Nat.repeat, show k + (n + 1) = k + 1 + n by omega, hhigher, crc16Bit_shiftLeft b (by omega)]

theorem lowOnes_getLsbD : ∀ i < 16, (0x00FF : Word16).getLsbD i = decide (i < 8) := by decide

/-- Folding in the complement of the accumulator's own low byte leaves its high byte over a low byte of ones. -/
theorem xor_lowByte_not (c : Word16) :
    c ^^^ (lowByte (~~~ c)).setWidth 16 = (highByte c).setWidth 16 <<< 8 ^^^ 0x00FF := by
  apply BitVec.eq_of_getLsbD_eq
  intro i hi
  rw [BitVec.getLsbD_xor, BitVec.getLsbD_xor, lowOnes_getLsbD i hi]
  by_cases hlow : i < 8
  · simp [lowByte, hi, hlow]
  · have hplace : 8 + (i - 8) = i := by omega
    have hhigh : i - 8 < 8 := by omega
    simp [lowByte, highByte, hi, hlow, hplace, hhigh]

theorem xor_highByte_not (c : Word16) : (highByte c).setWidth 16 ^^^ (highByte (~~~ c)).setWidth 16 = (0x00FF : Word16) := by
  apply BitVec.eq_of_getLsbD_eq
  intro i hi
  rw [BitVec.getLsbD_xor, lowOnes_getLsbD i hi]
  by_cases hlow : i < 8
  · have hin : 8 + i < 16 := by omega
    simp [highByte, hi, hlow, hin]
  · simp [highByte, hlow]

theorem crc16Step_lowByte_not (c : Word16) : crc16Step c (lowByte (~~~ c)) = (highByte c).setWidth 16 ^^^ 0x4040 := by
  have hhigh := crc16Bits_shiftLeft (highByte c) 8 0 (le_refl 8)
  have hones : Nat.repeat crc16Bit 8 0x00FF = 0x4040 := by decide
  rw [crc16Step, xor_lowByte_not, crc16Bits_xor, hhigh, hones, BitVec.shiftLeft_zero]

/-- After both bytes of the complement the accumulator's own value has cancelled. -/
theorem crc16Step_complement (c : Word16) : crc16Step (crc16Step c (lowByte (~~~ c))) (highByte (~~~ c)) = 0xB001 := by
  have hcancel : (highByte c).setWidth 16 ^^^ 0x4040 ^^^ (highByte (~~~ c)).setWidth 16 = 0x40BF := by
    rw [BitVec.xor_assoc, BitVec.xor_comm 0x4040, ← BitVec.xor_assoc, xor_highByte_not]
    rfl
  rw [crc16Step_lowByte_not, crc16Step, hcancel]
  decide

/-- Settles O25: whatever the string accumulates to, its own complement cancels it. -/
theorem checksummedMessageHasConstantResidue : Obligations.ChecksummedMessageHasConstantResidue := by
  intro cfg bytes hcrc
  have hstep : ∀ c b, crcStep cfg c b = crc16Step c b := fun c b => by rw [crcStep, hcrc]
  rw [crcFold_append]
  show crcStep cfg (crcStep cfg _ _) _ = _
  rw [hstep, hstep, crc16Step_complement]

end Sys2Proof.Machine
end

section
/-! PROOF. The step and TRANSACT: the event run, the header received or cut short, and the frame of every transaction
(R10, R38, R101, R104). -/

namespace Sys2Proof.Machine

/-- Settles O5: the step takes the first pending event's operation. -/
theorem stepRunsPendingEvent : Obligations.StepRunsPendingEvent := fun _ _ _ =>
  ⟨step_of_event, step_of_event, step_of_event, step_of_event, step_of_no_event⟩

section Header
variable {s t u : State}

/-- A complete header's operation is the command its first byte starts (R104). -/
theorem exec_decodeHeader (hcfg : s.cfg.wf = true) (b0 b1 b2 : Byte) :
    exec (decodeHeader s.cfg b0 b1 b2) s = .next (s.runCommand b0 (addressOf b1 b2)) := by
  rw [decodeHeader, State.runCommand]
  cases commandOf s.cfg b0 <;> exact State.whenConfigured_of hcfg _

/-- What receiving a header leaves alone, besides what no bus primitive touches. -/
structure Receiving (s t : State) : Prop where
  quiet : Quiet s t
  trace : t.trace = s.trace
  cmd : t.cmd = s.cmd
  ta : t.ta = s.ta
  tx : t.env.tx = s.env.tx

theorem Receiving.trans (hst : Receiving s t) (htu : Receiving t u) : Receiving s u :=
  ⟨hst.quiet.trans htu.quiet, htu.trace.trans hst.trace, htu.cmd.trans hst.cmd, htu.ta.trans hst.ta, htu.tx.trans hst.tx⟩

theorem Receiving.recv (s : State) : Receiving s s.recv.2 := by
  obtain ⟨htrace, hta, hcmd, -, htx, -⟩ := s.recv_rest
  exact ⟨.recv s, htrace, hcmd, hta, htx⟩

/-- The state in which the header's first byte is received (R101). -/
def State.beginHeader (s : State) : State := (s.setCrc 0).setPhase .header

theorem Receiving.beginHeader (s : State) : Receiving s s.beginHeader :=
  ⟨(Quiet.setCrc s 0).trans (.setPhase _ _), rfl, rfl, rfl, rfl⟩

theorem State.recv_delivers {b : Byte} {rest : List (Option Byte)} (h : s.env.rx = some b :: rest) :
    ∃ t, s.recv = (some b, t) ∧ Receiving s t ∧ t.env.rx = rest := by
  have hreceiving := Receiving.recv s
  have hrecv := State.recv_some h
  rw [hrecv] at hreceiving
  exact ⟨_, hrecv, hreceiving, by simp⟩

theorem State.recv_eq_of_fails (h : ∀ b, s.env.rx.head? ≠ some (some b)) : s.recv = (none, s.recv.2) := by
  obtain ⟨hnone, -⟩ := State.recv_fails h
  exact Prod.ext hnone rfl

/-- A header cut short ends in a failed receive, one case for each number of bytes that arrived before it (R101). -/
theorem State.receiveHeader_cutShort {bytes : List Byte} {tail : List (Option Byte)} (hlength : bytes.length < 3)
    (hrx : s.env.rx = bytes.map some ++ tail) (htail : ∀ b, tail.head? ≠ some (some b)) :
    ∃ t, s.receiveHeader = (none, t.recv.2) ∧ Receiving s t ∧ t.env.rx = tail := by
  have hbegin := Receiving.beginHeader s
  match bytes with
  | [] =>
    have hrx0 : s.beginHeader.env.rx = tail := hrx
    refine ⟨s.beginHeader, ?_, hbegin, hrx0⟩
    rw [State.receiveHeader, ← State.beginHeader, State.recv_eq_of_fails (s := s.beginHeader) (by rw [hrx0]; exact htail)]
  | [b0] =>
    obtain ⟨t0, h0, hr0, hrx0⟩ := State.recv_delivers (s := s.beginHeader) hrx
    refine ⟨t0, ?_, hbegin.trans hr0, hrx0⟩
    rw [State.receiveHeader, ← State.beginHeader, h0]
    dsimp only
    rw [State.recv_eq_of_fails (s := t0) (by rw [hrx0]; exact htail)]
  | [b0, b1] =>
    obtain ⟨t0, h0, hr0, hrx0⟩ := State.recv_delivers (s := s.beginHeader) hrx
    obtain ⟨t1, h1, hr1, hrx1⟩ := State.recv_delivers hrx0
    refine ⟨t1, ?_, hbegin.trans (hr0.trans hr1), hrx1⟩
    rw [State.receiveHeader, ← State.beginHeader, h0]
    dsimp only
    rw [h1]
    dsimp only
    rw [State.recv_eq_of_fails (s := t1) (by rw [hrx1]; exact htail)]
  | b0 :: b1 :: b2 :: rest => exact absurd hlength (by simp)

end Header

/-- Settles O7: the receive that fails leaves nothing but bus matters, and ends the transaction. -/
theorem incompleteHeaderIsSilent : Obligations.IncompleteHeaderIsSilent := by
  intro s bytes tail hready hlength hrx htail
  obtain ⟨u, hheader, hbefore, hrest⟩ := State.receiveHeader_cutShort hlength hrx htail
  obtain ⟨-, hleft, -⟩ := State.recv_fails (s := u) (by rw [hrest]; exact htail)
  have hreceiving := hbefore.trans (.recv u)
  have htransact : s.transact = u.recv.2.takeError .transportFailure := by rw [State.transact, hheader]
  refine ⟨s.transact, State.whenReady_of hready _, ?_⟩
  rw [htransact]
  exact ⟨hreceiving.trace, hreceiving.cmd, hreceiving.ta, rfl, hleft.trans (by rw [hrest]), hreceiving.tx,
    (hreceiving.quiet.trans (.takeError _ _)).busOnly⟩

/-- Settles O6: the transaction is the command of its header, run where the header receive ends. -/
theorem transactRunsDecodedCommand : Obligations.TransactRunsDecodedCommand := by
  intro s b0 b1 b2 rest events i more hready hevents hrx hdecode
  obtain rfl : decodeHeader s.cfg b0 b1 b2 = i := (Decoded.instr.inj hdecode).1
  obtain ⟨u, hu⟩ : ∃ u, s.setEnv { s.env with events := events } = u := ⟨_, rfl⟩
  have hquiet := Quiet.receiveHeader u
  have hcfg : u.receiveHeader.2.cfg = s.cfg := hquiet.cfg.trans (by rw [← hu]; rfl)
  obtain ⟨-, hcrc, hleft, htx, htrace, hcmd, hta, hfree⟩ :=
    State.receiveHeader_complete (s := u) (by rw [← hu]; exact hrx)
  refine ⟨u.receiveHeader.2, ?_, ?_, hleft, ?_, ?_, ?_, ?_, ?_, hu ▸ hquiet.busOnly⟩
  · rw [step_of_event hevents, hu, ← hcfg, exec_decodeHeader (by rw [hcfg]; exact hready.1),
      ← State.transact_of_header (by rw [← hu]; exact hrx)]
    exact State.whenReady_of (by rw [← hu]; exact hready) _
  all_goals subst hu
  · exact hcrc
  · exact htx
  · exact htrace
  · exact hcmd
  · exact hta
  · exact hfree

/-- Settles O8, by the parts of a transaction, and the clock's one reading. -/
theorem transactCompletes : Obligations.TransactCompletes := by
  intro s hready
  have hc := Config.facts hready.1
  obtain ⟨hconfig, hcleared, hstore, hcommit, hresult, hevents, hreads, hflags⟩ :=
    State.transact_induction s hc (fun _ _ hq hs => hs.trans hq.transactionFrame)
      (fun t r i b _ hs => hs.trans (t.burn_transactionFrame r i b)) (TransactionFrame.refl s)
  exact ⟨s.transact, State.whenReady_of hready _, s.transact_phase, hcleared, hstore, hcommit, hconfig, hresult, hevents,
    hreads, hflags, fun now hnow => (State.transact_clock hc hnow).symm⟩

end Sys2Proof.Machine
end
